-- ==== Sys2Proof/Word.lean ====
section
/-! DEFINITION. The word types of the block: stream bytes, packed words, 2-bit slots (R91, R95), and byte
sequences (R11). -/

namespace Sys2Proof

/-- Format SB, a stream byte (R91), and one byte of PIX (R63). -/
abbrev Byte := BitVec 8

/-- Format PW, the packed word (R95). -/
abbrev Word := BitVec 32

/-- One 2-bit slot of a packed word: a sample or the parity slot (R95). -/
abbrev Slot := BitVec 2

/-- A byte sequence, first byte at index 0 (R11). -/
abbrev Bytes := List Byte

end Sys2Proof
end

