-- ==== Sys2Proof/Config.lean ====
section
/-! DEFINITION. What is fixed for the machine: the protocol constants (R7, R8), the open parameters (R9) and
the free values (what the spec leaves to the environment under no law, R12 "draw"). -/

namespace Sys2Proof
namespace Config

/-- Pixels per row (R7). -/
def WIDTH : Nat := 320
/-- Rows (R7). -/
def HEIGHT : Nat := 224
/-- Length of the marker in bytes (R7). -/
def MARKER_LEN : Nat := 4
/-- The marker `03 03 03 03` (R7, R92). -/
def MARKER : Bytes := [0x03#8, 0x03#8, 0x03#8, 0x03#8]
/-- Required words per frame (R7). -/
def WORDS_PER_FRAME : Nat := 14336
/-- Largest chunk one read returns (R7). -/
def CHUNK_MAX : Nat := 512
/-- Samples in one packed word (R8). -/
def SAMPLES_PER_WORD : Nat := 15
/-- The scale from a 2-bit sample to a byte (R8, R97). -/
def SCALE : Nat := 85
/-- A throughput report every so many frames (R8, R184). -/
def REPORT_PERIOD : Nat := 30
/-- Samples in one picture (R8). -/
def TARGET : Nat := 215040
/-- Pixels in one picture (R8). -/
def PIXELS : Nat := 71680
/-- Bytes of the pixel buffer (R8, R63). -/
def PIX_BYTES : Nat := 286720
/-- Bits of the required words of a frame: the last value of CURSOR (R8, R26). -/
def FRAME_BITS : Nat := 458752

end Config

/-- BYTE_ORDER of packed words (R9, R65, D4). -/
inductive ByteOrder where
  | le
  | be
  deriving DecidableEq, Repr, Inhabited

/-- HALT_POLICY: what a fault in one unit does to the other (R9, R207, D7). -/
inductive HaltPolicy where
  | independent
  | haltAll
  | any
  deriving DecidableEq, Repr, Inhabited

/-- The open parameters of R9, fixed when the machine is built; no step writes them. QUEUE_CAP and
COUNTER_WIDTH have no field: the model takes both as unbounded (R9, D14, D11; log entry 16). -/
structure Params where
  /-- BYTE_ORDER. -/
  byteOrder : ByteOrder
  /-- ACC_CAP; `none` is `unbounded`. -/
  accCap : Option Nat
  /-- HALT_POLICY. -/
  haltPolicy : HaltPolicy
  deriving DecidableEq, Repr, Inhabited

/-- The defaults of R9. DESIGN CHOICE of the spec, the byte order PRESUMED by it (K2; log entries 13 to 15). -/
def Params.default : Params :=
  { byteOrder := .le, accCap := none, haltPolicy := .any }

/-- What the source does on `available()` (R122): it answers, or, `silent`, it never answers and FS is stuck inside
the transaction (R137, R209, U7; log entry 34). -/
inductive AvailReply where
  | count (n : Nat)
  | linkError
  | silent
  deriving DecidableEq, Repr, Inhabited

/-- What the source does on `read(max_len)` (R123): it answers, a `chunk` longer than `max_len` in pieces (log entry
3), or, `silent`, it never answers and FS is stuck inside the transaction (R137, R209, U7; log entry 34). -/
inductive ReadReply where
  | chunk (bytes : Bytes)
  | linkError
  | silent
  deriving DecidableEq, Repr, Inhabited

namespace Config

/-- FREE VALUE: what the source does on `available()` when nothing is on hand (R121, R137, U7, U19; log entries 3,
34). -/
opaque freeAvail : Nat → AvailReply
/-- FREE VALUE: what the source does on `read` when nothing is on hand (R121, R137, U7; log entries 3, 34). -/
opaque freeRead : Nat → ReadReply
/-- FREE VALUE: which agent takes the next unscripted step, `true` the worker (R215; log entry 2). -/
opaque freeTurn : Nat → Bool
/-- FREE VALUE: whether a unit stops for good after the other's fault under HALT_POLICY `any`
(R207, U13; log entry 15). -/
opaque freeStop : Nat → Bool
/-- FREE VALUE: the wall time `now()` (R184; log entry 20). -/
opaque freeNow : Nat → Nat
/-- FREE VALUE: the content of a throughput report when no wall time has elapsed (R184, U15; log entry 20). -/
opaque freeReport : Nat → Nat

end Config
end Sys2Proof
end

