-- ==== Sys2Proof/Syntax.lean ====
section
/-! DEFINITION. The rows of spec/opcode_table.json: the operations and steps of R100 and the data patterns
of R92, R95, R96, R97, R157, R204, one constructor each. -/

namespace Sys2Proof

/-- One row of the table. Operations and steps have no operand bits; SRC.READ has the constant operand
`max_len` (R123). The data patterns carry the bits they hold. -/
inductive Instr where
  /-- SRC.AVAIL (R122) -/
  | srcAvail
  /-- SRC.READ (R123) -/
  | srcRead (maxLen : Nat)
  /-- CATCH (R125) -/
  | catchOp
  /-- FS.START (R127) -/
  | fsStart
  /-- FS.POLL (R128) -/
  | fsPoll
  /-- FS.READ (R129) -/
  | fsRead
  /-- FS.SCAN (R130) -/
  | fsScan
  /-- FS.EMIT (R131) -/
  | fsEmit
  /-- DECODE (R150) -/
  | decodeOp
  /-- PD.START (R151) -/
  | pdStart
  /-- PD.CHECK (R152) -/
  | pdCheck
  /-- PD.SAMPLE (R156) -/
  | pdSample
  /-- PD.PARITY (R157) -/
  | pdParity
  /-- PD.DONE (R158) -/
  | pdDone
  /-- PD.WORD (R159) -/
  | pdWord
  /-- RUN (R181) -/
  | runOp
  /-- CP.PUSH (R182) -/
  | cpPush
  /-- CP.POLL (R183) -/
  | cpPoll
  /-- CP.REPORT (R184) -/
  | cpReport
  /-- CP.TICK (R185) -/
  | cpTick
  /-- RESET (R230) -/
  | resetOp
  /-- MARKER, the data pattern of format MK (R92) -/
  | marker
  /-- PWORD, the data pattern of format PW: a packed word (R95) -/
  | pword (w : Word)
  /-- PIXEL, the data pattern of format PX: the four bytes of one pixel, lowest offset first (R96) -/
  | pixel (r g b a : Byte)
  /-- LVL0, sample slot value 0 (R97) -/
  | lvl0
  /-- LVL1, sample slot value 1 (R97) -/
  | lvl1
  /-- LVL2, sample slot value 2 (R97) -/
  | lvl2
  /-- LVL3, sample slot value 3 (R97) -/
  | lvl3
  /-- PAR.OK, parity slot value 0 (R157) -/
  | parOk
  /-- PAR.NZ1, parity slot value 1 (R204) -/
  | parNz1
  /-- PAR.NZ2, parity slot value 2 (R204) -/
  | parNz2
  /-- PAR.NZ3, parity slot value 3 (R204) -/
  | parNz3
  deriving DecidableEq, Repr

/-- The formats an instruction's bits stand in: the 8-bit label OPC (R100), the marker window (R92), the
packed word (R95), the pixel (R96), and the two places of a 2-bit slot: sample slots 0..14 and the parity
slot 15 (R95). -/
inductive Format where
  | opc8
  | mk
  | pw
  | px
  | sampleSlot
  | paritySlot
  deriving DecidableEq, Repr

/-- The format of each row. -/
def Instr.format : Instr → Format
  | .marker => .mk
  | .pword _ => .pw
  | .pixel _ _ _ _ => .px
  | .lvl0 | .lvl1 | .lvl2 | .lvl3 => .sampleSlot
  | .parOk | .parNz1 | .parNz2 | .parNz3 => .paritySlot
  | .srcAvail | .srcRead _ | .catchOp | .fsStart | .fsPoll | .fsRead | .fsScan | .fsEmit
  | .decodeOp | .pdStart | .pdCheck | .pdSample | .pdParity | .pdDone | .pdWord
  | .runOp | .cpPush | .cpPoll | .cpReport | .cpTick | .resetOp => .opc8

end Sys2Proof
end

