-- ==== Sys2Proof/WellFormed.lean ====
section
/-! DEFINITION. Which instructions have an encoding: the one operand the spec fixes is SRC.READ's `max_len`,
"always CHUNK_MAX = 512" (R123). -/

namespace Sys2Proof

/-- SRC.READ asks for CHUNK_MAX bytes (R123); every other row is well formed as it stands. -/
def Instr.wf : Instr → Bool
  | .srcRead maxLen => maxLen == Config.CHUNK_MAX
  | .srcAvail | .catchOp | .fsStart | .fsPoll | .fsRead | .fsScan | .fsEmit
  | .decodeOp | .pdStart | .pdCheck | .pdSample | .pdParity | .pdDone | .pdWord
  | .runOp | .cpPush | .cpPoll | .cpReport | .cpTick | .resetOp
  | .marker | .pword _ | .pixel _ _ _ _
  | .lvl0 | .lvl1 | .lvl2 | .lvl3 | .parOk | .parNz1 | .parNz2 | .parNz3 => true

end Sys2Proof
end

