-- ==== Sys2Proof/Decode.lean ====
section
/-! DEFINITION. The decoder, total on any bytes, and the encoder: the OPC labels of R100, the marker window of
R92, the packed word of R95 with the byte order of R64, the pixel of R96, the 2-bit slots of R95 to R97. -/

namespace Sys2Proof

/-- The 32-bit word made of four bytes, lowest offset first (R64). -/
def wordOfBytes (o : ByteOrder) (b0 b1 b2 b3 : Byte) : Word :=
  match o with
  | .le => b3 ++ b2 ++ b1 ++ b0
  | .be => b0 ++ b1 ++ b2 ++ b3

/-- The four bytes that hold a word, lowest offset first (R64). -/
def bytesOfWord (o : ByteOrder) (w : Word) : Bytes :=
  match o with
  | .le => [w.extractLsb' 0 8, w.extractLsb' 8 8, w.extractLsb' 16 8, w.extractLsb' 24 8]
  | .be => [w.extractLsb' 24 8, w.extractLsb' 16 8, w.extractLsb' 8 8, w.extractLsb' 0 8]

/-- Why bits are no instruction. -/
inductive DecodeError where
  /-- fewer bytes than the format has -/
  | tooShort
  /-- an OPC label that is not in the table of R100 -/
  | unknownOpc (b : Byte)
  /-- a window that is payload, not the marker (R92) -/
  | notMarker
  /-- a slot has two bits (R95) -/
  | notSlot (b : Byte)
  deriving DecidableEq, Repr

/-- The OPC labels of units FS and the source (R100). -/
def opcTableFs : List (Byte × Instr) :=
  [(0x01#8, .srcAvail), (0x02#8, .srcRead Config.CHUNK_MAX), (0x10#8, .catchOp), (0x11#8, .fsStart),
   (0x12#8, .fsPoll), (0x13#8, .fsRead), (0x14#8, .fsScan), (0x15#8, .fsEmit)]

/-- The OPC labels of unit PD (R100). -/
def opcTablePd : List (Byte × Instr) :=
  [(0x20#8, .decodeOp), (0x21#8, .pdStart), (0x22#8, .pdCheck), (0x23#8, .pdSample), (0x24#8, .pdParity),
   (0x25#8, .pdDone), (0x26#8, .pdWord)]

/-- The OPC labels of the pipeline and the host (R100). -/
def opcTableCp : List (Byte × Instr) :=
  [(0x30#8, .runOp), (0x31#8, .cpPush), (0x32#8, .cpPoll), (0x33#8, .cpReport), (0x34#8, .cpTick),
   (0xFF#8, .resetOp)]

/-- The OPC table of R100. -/
def opcTable : List (Byte × Instr) := opcTableFs ++ (opcTablePd ++ opcTableCp)

/-- The operation or step an OPC label names, if it names one (R100). -/
def decodeOpc (b : Byte) : Option Instr := (opcTable.find? (fun row => row.1 == b)).map (·.2)

/-- A 2-bit sample (R97). -/
def decodeSample (v : Slot) : Instr :=
  if v = 0#2 then .lvl0 else if v = 1#2 then .lvl1 else if v = 2#2 then .lvl2 else .lvl3

/-- A 2-bit parity slot (R157, R204). -/
def decodeParity (v : Slot) : Instr :=
  if v = 0#2 then .parOk else if v = 1#2 then .parNz1 else if v = 2#2 then .parNz2 else .parNz3

/-- A slot held alone in a byte, the six high bits 0 (DESIGN CHOICE, log entry 12). -/
def slotOfByte (b : Byte) : Except DecodeError Slot :=
  if b.toNat < 4 then .ok (b.setWidth 2) else .error (.notSlot b)

/-- The decoder: the instruction that stands at the head of the bytes in a format, and the bytes after it. -/
def decode (o : ByteOrder) (f : Format) (bs : Bytes) : Except DecodeError (Instr × Bytes) :=
  match f, bs with
  | .opc8, b :: rest =>
    match decodeOpc b with
    | some i => .ok (i, rest)
    | none => .error (.unknownOpc b)
  | .mk, b0 :: b1 :: b2 :: b3 :: rest =>
    if [b0, b1, b2, b3] = Config.MARKER then .ok (.marker, rest) else .error .notMarker
  | .pw, b0 :: b1 :: b2 :: b3 :: rest => .ok (.pword (wordOfBytes o b0 b1 b2 b3), rest)
  | .px, b0 :: b1 :: b2 :: b3 :: rest => .ok (.pixel b0 b1 b2 b3, rest)
  | .sampleSlot, b :: rest => (slotOfByte b).map (fun v => (decodeSample v, rest))
  | .paritySlot, b :: rest => (slotOfByte b).map (fun v => (decodeParity v, rest))
  | _, _ => .error .tooShort

/-- The bytes of an instruction in its own format (R100, R92, R95, R96, R97). -/
def encode (o : ByteOrder) : Instr → Bytes
  | .srcAvail => [0x01#8]
  | .srcRead _ => [0x02#8]
  | .catchOp => [0x10#8]
  | .fsStart => [0x11#8]
  | .fsPoll => [0x12#8]
  | .fsRead => [0x13#8]
  | .fsScan => [0x14#8]
  | .fsEmit => [0x15#8]
  | .decodeOp => [0x20#8]
  | .pdStart => [0x21#8]
  | .pdCheck => [0x22#8]
  | .pdSample => [0x23#8]
  | .pdParity => [0x24#8]
  | .pdDone => [0x25#8]
  | .pdWord => [0x26#8]
  | .runOp => [0x30#8]
  | .cpPush => [0x31#8]
  | .cpPoll => [0x32#8]
  | .cpReport => [0x33#8]
  | .cpTick => [0x34#8]
  | .resetOp => [0xFF#8]
  | .marker => [0x03#8, 0x03#8, 0x03#8, 0x03#8]
  | .pword w => bytesOfWord o w
  | .pixel r g b a => [r, g, b, a]
  | .lvl0 => [0x00#8]
  | .lvl1 => [0x01#8]
  | .lvl2 => [0x02#8]
  | .lvl3 => [0x03#8]
  | .parOk => [0x00#8]
  | .parNz1 => [0x01#8]
  | .parNz2 => [0x02#8]
  | .parNz3 => [0x03#8]

/-- The instruction a decoder's answer holds, if it is one. -/
def decodedInstr? (r : Except DecodeError (Instr × Bytes)) : Option Instr :=
  match r with
  | .ok (i, _) => some i
  | .error _ => none

/-- The instruction of a table row from the row's bits. A 2-bit row (SLOT2) is read as a sample slot, a 32-bit
row as the marker where it is one and else as a packed word, whose value does not depend on the byte order it
is laid out and read back in (log entry 12). -/
def decodeTableWord (nbits w : Nat) : Option Instr :=
  match nbits with
  | 2 => decodedInstr? (decode .le .sampleSlot [BitVec.ofNat 8 w])
  | 8 => decodedInstr? (decode .le .opc8 [BitVec.ofNat 8 w])
  | 32 =>
    let bs := bytesOfWord .le (BitVec.ofNat 32 w)
    match decodedInstr? (decode .le .mk bs) with
    | some i => some i
    | none => decodedInstr? (decode .le .pw bs)
  | _ => none

end Sys2Proof
end

