-- ==== Sys2Proof/Machine/State.lean ====
section
/-! DEFINITION. The state of the machine (10_state.md, 20_memory.md), plain data, and its value after reset
(R40). Fields that are the model's own and not the spec's say so. -/

namespace Sys2Proof
namespace Machine

/-- FS_PHASE (R31). -/
inductive FsPhase where
  | idle
  | poll
  | read
  | scan
  | emit
  | fault
  deriving DecidableEq, Repr

/-- PD_PHASE (R32). -/
inductive PdPhase where
  | idle
  | check
  | run
  | fault
  deriving DecidableEq, Repr

/-- The conditions of R200. -/
inductive FaultCode where
  | none
  | linkError
  | malformedFrame
  | parityMismatch
  | bufferOverflow
  deriving DecidableEq, Repr

/-- A throughput report (R184): the exact quotient `frames / elapsed` with `elapsed = now() - T0`, or, when no
wall time has elapsed, content the spec leaves unspecified (U15); either way the frame count it was made at. -/
inductive Report where
  | rate (frames : Nat) (elapsed : Int)
  | unstated (frames content : Nat)
  deriving DecidableEq, Repr

/-- What the environment decides: that an operation or step of R100 is taken, by its label; or that the host, as
the owner of PIX at boot, writes the byte at an offset of PIX (R12, R60, R236, R237) or the four bytes of pixel number
`n` (R96) (R14 (4); log entries 1, 10). -/
inductive Act where
  | label (opc : Byte)
  | pixel (n : Fin Config.PIXELS) (r g b a : Byte)
  | byte (off : Fin Config.PIX_BYTES) (v : Byte)
  deriving DecidableEq, Repr

/-- The pixel space's contents: (offset, byte) pairs, offsets strictly rising (R63). An offset not listed has
no value: nothing has written it (R40 "any value"; log entry 9). -/
abbrev Memory := List Host.Cell

/-- Unit FS (R21 to R24, R31, R34). -/
structure FsUnit where
  /-- SPILL (R21) -/
  spill : Bytes
  /-- ACC (R22) -/
  acc : Bytes
  /-- FS_AVAIL (R24) -/
  avail : Nat
  /-- FS_CHUNK (R24) -/
  chunk : Bytes
  /-- FS_MATCH (R24) -/
  found : Option Nat
  /-- FRAME_OUT (R23) -/
  frameOut : Option Bytes
  /-- FS_PHASE (R31) -/
  phase : FsPhase
  /-- FS_FAULT (R34) -/
  fault : FaultCode
  /-- model's own: the worker has stopped for good under HALT_POLICY `any` (R207, log entry 15) -/
  stopped : Bool
  /-- "Stuck" of R209: FS is inside a source transaction that the source never answers (R137, U7; log entry 34) -/
  stuck : Bool
  deriving DecidableEq, Repr

/-- Unit PD (R25 to R27, R32 to R34). -/
structure PdUnit where
  /-- FRM (R25) -/
  frm : Option Bytes
  /-- CURSOR (R26) -/
  cursor : Nat
  /-- DUMPED (R27) -/
  dumped : Nat
  /-- PERR (R33) -/
  perr : Bool
  /-- PERR_CNT (R33) -/
  perrCnt : Nat
  /-- PD_PHASE (R32) -/
  phase : PdPhase
  /-- PD_FAULT (R34) -/
  fault : FaultCode
  /-- model's own: the consumer has stopped for good under HALT_POLICY `any` (R207, log entry 15) -/
  stopped : Bool
  deriving DecidableEq, Repr

/-- The pipeline (R38). -/
structure Pipeline where
  /-- Q, oldest frame first (R38) -/
  q : List Bytes
  /-- FCOUNT (R38) -/
  fcount : Nat
  /-- T0 (R38) -/
  t0 : Nat
  /-- model's own: the worker loop RUN has been started (R181, log entry 5) -/
  running : Bool
  /-- model's own: the result of the consumer's last CP.POLL, the `f` of R185 (log entry 21) -/
  taken : Option Bytes
  /-- model's own: the last throughput report sent out; only CP.REPORT's condition looks at it (R184, log entries 20,
  35) -/
  report : Option Report
  deriving DecidableEq, Repr

/-- The source as the block sees it (R39 (1), R121). -/
structure Source where
  /-- the bytes the source has returned since reset, `S[0:pos)`; the stream position is its length (R121, R41) -/
  stream : Bytes
  /-- model's own: answers to `available()` on hand, next first (log entry 3) -/
  avails : List AvailReply
  /-- model's own: answers to `read` on hand, next first (log entry 3) -/
  reads : List ReadReply
  deriving DecidableEq, Repr

/-- The rest of the surroundings, all model's own. -/
structure Env where
  /-- what the host and the scheduler have decided, next first (R100, R103, log entry 1) -/
  script : List Act
  /-- wall times on hand for `now()` (R184, log entry 20) -/
  clock : List Nat
  /-- the pixel number PIXEL writes (log entry 10) -/
  pixelAt : Fin Config.PIXELS
  /-- how many free values have been drawn (log entry 33) -/
  draws : Nat
  deriving DecidableEq, Repr

/-- The machine's state. -/
structure State where
  /-- the open parameters of R9 -/
  params : Params
  /-- unit FS -/
  fs : FsUnit
  /-- unit PD -/
  pd : PdUnit
  /-- the pipeline -/
  pipe : Pipeline
  /-- PIX (R63) -/
  pix : Memory
  /-- the source -/
  src : Source
  /-- the surroundings -/
  env : Env
  deriving DecidableEq, Repr

/-- Why a request or a step has no move: R126, R151, R206, R207, R209 ("refused"). -/
inductive NoStep where
  /-- the unit is in phase FAULT (R206, R209, R249) -/
  | faulted
  /-- HALT_POLICY has stopped the unit after the other unit's fault (R207) -/
  | halted
  /-- FS is stuck inside a source transaction that the source never answers (R137, R209) -/
  | unanswered
  /-- the unit's sequencing state selects another step (R30 to R32, R126, R151) -/
  | phase
  /-- the step needs a frame and there is none (R151, R182) -/
  | noFrame
  /-- FRAME_OUT has not been taken (R126) -/
  | frameNotTaken
  /-- no window of ACC is the marker (R92) -/
  | noMarker
  deriving DecidableEq, Repr

/-- Reasons the model stops. Each belongs to states no run from reset reaches (Safety.lean, R156 "there is no
out-of-range case to trap"); all are safe (log entry 23). -/
inductive Fault where
  /-- raised by a write to PIX at an offset that does not exist (R63); safe -/
  | pixelOutside (off : Nat)
  /-- raised by PD when CURSOR selects a word the frame does not have, or there is no frame (R64); safe -/
  | frameOutside (word : Nat)
  /-- raised by PD.CHECK in phase CHECK without a frame in FRM (R25); safe -/
  | noFrame
  /-- raised by FS.EMIT in phase EMIT without a match in FS_MATCH (R24); safe -/
  | noMatch
  deriving DecidableEq, Repr

/-- Reasons the model gives no step. -/
inductive Refusal where
  /-- raised by exec's arm of an instruction without a meaning; safe -/
  | notModelled (mnemonic : String)
  /-- raised by every operation and step whose enabling condition does not hold: the spec gives it no step
  (R126, R137, R151, R209, U16, U17); safe -/
  | noStep (why : NoStep)
  /-- raised by the machine's step on a label that is not in the table of R100; safe -/
  | unknownCode (opc : Byte)
  deriving DecidableEq, Repr

/-- Unit FS after reset (R40); FS_AVAIL, FS_CHUNK and FS_MATCH are DESIGN CHOICE (log entry 17). -/
def FsUnit.reset : FsUnit :=
  { spill := [], acc := [], avail := 0, chunk := [], found := none, frameOut := none, phase := .idle,
    fault := .none, stopped := false, stuck := false }

/-- Unit PD after reset (R40). -/
def PdUnit.reset : PdUnit :=
  { frm := none, cursor := 0, dumped := 0, perr := false, perrCnt := 0, phase := .idle, fault := .none,
    stopped := false }

/-- The pipeline after reset (R40); T0 is DESIGN CHOICE (log entry 18). -/
def Pipeline.reset : Pipeline :=
  { q := [], fcount := 0, t0 := 0, running := false, taken := none, report := none }

/-- The source after reset: stream position 0 (R40). -/
def Source.reset : Source := { stream := [], avails := [], reads := [] }

/-- The surroundings after reset, DESIGN CHOICE (log entries 1, 10, 20, 33). -/
def Env.reset : Env := { script := [], clock := [], pixelAt := ⟨0, by decide⟩, draws := 0 }

/-- The machine right after reset (R40): both units idle, nothing asked (R231), PIX with nothing listed. -/
def State.reset : State :=
  { params := .default, fs := .reset, pd := .reset, pipe := .reset, pix := [], src := .reset, env := .reset }

end Machine
end Sys2Proof
end

