-- ==== Sys2Proof/Machine/Ops.lean ====
section
/-! DEFINITION. The named operations over the state: field updates, the pixel memory (R63), the source
transactions (R121 to R123), fault entry (R206), the enabling conditions (R126, R151, R206, R207), the wall
clock and the throughput report (R184). There is no return from a fault (R209); RESET is in Machine/HostAction.lean. -/

namespace Sys2Proof
namespace Machine

/-- What a step answers. -/
abbrev Out := Host.Outcome State Fault Refusal

/-- Continue with the next state, or stop as the first part stopped. -/
def andThen (o : Out) (k : State → Out) : Out :=
  match o with
  | .next s => k s
  | .fault r => .fault r
  | .refused r => .refused r

/-! ### Updates -/

/-- Unit FS replaced. -/
def State.setFs (s : State) (x : FsUnit) : State := { s with fs := x }
/-- Unit PD replaced. -/
def State.setPd (s : State) (x : PdUnit) : State := { s with pd := x }
/-- The pipeline replaced. -/
def State.setPipe (s : State) (x : Pipeline) : State := { s with pipe := x }
/-- PIX replaced. -/
def State.setPix (s : State) (x : Memory) : State := { s with pix := x }
/-- The source replaced. -/
def State.setSrc (s : State) (x : Source) : State := { s with src := x }
/-- The surroundings replaced. -/
def State.setEnv (s : State) (x : Env) : State := { s with env := x }

/-- One free value has been drawn (log entry 33). -/
def State.draw (s : State) : State := s.setEnv { s.env with draws := s.env.draws + 1 }

/-! ### The pixel memory -/

/-- The byte at an offset, if anything has written it (R63, log entry 9). -/
def Memory.read : Memory → Nat → Option Byte
  | [], _ => none
  | (b, w) :: m, a => if a = b then some w else Memory.read m a

/-- One byte written, the canonical form kept (R63, R70). -/
def Memory.write : Memory → Nat → Byte → Memory
  | [], a, v => [(a, v)]
  | (b, w) :: m, a, v =>
    if a < b then (a, v) :: (b, w) :: m
    else if a = b then (a, v) :: m
    else (b, w) :: Memory.write m a v

/-- Offsets strictly rising, the first above `lo` when a bound is given. -/
def Memory.rising : Option Nat → Memory → Bool
  | _, [] => true
  | none, (a, _) :: m => Memory.rising (some a) m
  | some lo, (a, _) :: m => decide (lo < a) && Memory.rising (some a) m

/-- The canonical form: offsets strictly rising and inside PIX (R63). -/
def Memory.wf (m : Memory) : Bool :=
  Memory.rising none m && m.all (fun c => decide (c.1 < Config.PIX_BYTES))

/-! ### Fault entry -/

/-- Fault entry of unit FS (R206): the code and the phase, nothing else. -/
def raiseFs (c : FaultCode) (s : State) : State :=
  s.setFs { s.fs with fault := c, phase := .fault }

/-- Fault entry of unit PD (R206): the code and the phase; FRM is discarded (R203, D24). -/
def raisePd (c : FaultCode) (s : State) : State :=
  s.setPd { s.pd with fault := c, phase := .fault, frm := none }

/-- FS has begun a transaction that the source never answers: it stays where it is, without a step of its own
(R137, R209 "stuck", U7; log entry 34). -/
def leftWaiting (s : State) : State := s.setFs { s.fs with stuck := true }

/-! ### Enabling conditions -/

/-- HALT_POLICY keeps the worker from taking steps after a fault in PD (R207). -/
def fsHalted (s : State) : Bool :=
  decide (s.pd.phase = .fault) &&
    (match s.params.haltPolicy with
     | .independent => false
     | .haltAll => true
     | .any => s.fs.stopped)

/-- HALT_POLICY keeps the consumer from taking steps after a fault in FS (R207). -/
def pdHalted (s : State) : Bool :=
  decide (s.fs.phase = .fault) &&
    (match s.params.haltPolicy with
     | .independent => false
     | .haltAll => true
     | .any => s.pd.stopped)

/-- After a fault of PD under HALT_POLICY `any` a worker that could go on may stop for good at the step boundary
(R207, D7). -/
def exposedFs (s : State) : Bool :=
  decide (s.params.haltPolicy = .any) && (decide (s.pd.phase = .fault) &&
    (decide (s.fs.phase ≠ .fault) && (!s.fs.stuck && !s.fs.stopped)))

/-- After a fault of FS under HALT_POLICY `any` a consumer that could go on may stop for good at the step boundary
(R207, D7). -/
def exposedPd (s : State) : Bool :=
  decide (s.params.haltPolicy = .any) && (decide (s.fs.phase = .fault) &&
    (decide (s.pd.phase ≠ .fault) && !s.pd.stopped))

/-- What keeps the worker from every step: its own fault (R206, R249), a source that never answers (R137, R209), or
the halt policy (R207). -/
def workerStop (s : State) : Option NoStep :=
  if s.fs.phase = .fault then some .faulted
  else if s.fs.stuck then some .unanswered
  else if fsHalted s then some .halted
  else none

/-- What keeps the consumer from every step: its own fault (R206, R249) or the halt policy (R207). -/
def consumerStop (s : State) : Option NoStep :=
  if s.pd.phase = .fault then some .faulted else if pdHalted s then some .halted else none

/-- What keeps the worker from a step that needs FS_PHASE = `p` (R31, R126). -/
def fsStop (p : FsPhase) (s : State) : Option NoStep :=
  match workerStop s with
  | some w => some w
  | none => if s.fs.phase = p then none else some .phase

/-- What keeps the consumer from a step that needs PD_PHASE = `p` and the condition `c` (R32, R151). -/
def pdStop (p : PdPhase) (c : Bool) (s : State) : Option NoStep :=
  match consumerStop s with
  | some w => some w
  | none => if s.pd.phase = p && c then none else some .phase

/-- The step if nothing keeps it from having one, else its refusal (R209 "has no step"). -/
def gate (w : Option NoStep) (o : Out) : Out :=
  match w with
  | some r => .refused (.noStep r)
  | none => o

/-! ### The source -/

/-- What the source does on `available()`: the next reply on hand, else a free one (R121, R122). -/
def availAnswer (s : State) : AvailReply :=
  match s.src.avails with
  | r :: _ => r
  | [] => Config.freeAvail s.env.draws

/-- After `available()`: the reply is used up, the stream untouched (R66, R122). -/
def afterAvail (s : State) : State :=
  match s.src.avails with
  | _ :: rs => s.setSrc { s.src with avails := rs }
  | [] => s.draw

/-- At most `maxLen` bytes of a reply (R123: `0..=max_len`). -/
def ReadReply.upTo (maxLen : Nat) (r : ReadReply) : ReadReply :=
  match r with
  | .chunk bs => .chunk (bs.take maxLen)
  | .linkError => .linkError
  | .silent => .silent

/-- What is left on hand of a reply after one read of at most `maxLen` bytes. -/
def ReadReply.left (maxLen : Nat) (r : ReadReply) : List ReadReply :=
  match r with
  | .chunk bs => if bs.length ≤ maxLen then [] else [.chunk (bs.drop maxLen)]
  | .linkError => []
  | .silent => []

/-- What the source does on `read(maxLen)`: the next reply on hand, else a free one (R121, R123). -/
def readAnswer (maxLen : Nat) (s : State) : ReadReply :=
  match s.src.reads with
  | r :: _ => ReadReply.upTo maxLen r
  | [] => ReadReply.upTo maxLen (Config.freeRead s.env.draws)

/-- After `read(maxLen)`: the reply is used up; the bytes it returned are the next of the
stream (R66, R121, R123). -/
def afterRead (maxLen : Nat) (s : State) : State :=
  let t := match s.src.reads with
    | r :: rs => s.setSrc { s.src with reads := ReadReply.left maxLen r ++ rs }
    | [] => s.draw
  match readAnswer maxLen s with
  | .chunk c => t.setSrc { t.src with stream := t.src.stream ++ c }
  | .linkError => t
  | .silent => t

/-- An append of `n` bytes would pass a finite ACC_CAP (R129, R205). -/
def overflows (s : State) (n : Nat) : Bool :=
  match s.params.accCap with
  | some cap => decide (cap < s.fs.acc.length + n)
  | none => false

/-! ### The wall clock and the throughput report -/

/-- `now()`: the next time on hand, else a free one (R184). -/
def nowAnswer (s : State) : Nat :=
  match s.env.clock with
  | t :: _ => t
  | [] => Config.freeNow s.env.draws

/-- After `now()` has answered. -/
def afterNow (s : State) : State :=
  s.setEnv { s.env with clock := s.env.clock.tail, draws := s.env.draws + 1 }

/-- The report of R184: `frames / (now - t0)`, content unspecified when they are equal (U15). -/
def throughput (frames now t0 draws : Nat) : Report :=
  if now = t0 then .unstated frames (Config.freeReport draws) else .rate frames ((now : Int) - (t0 : Int))

/-- The frame count a report was made at (R184). -/
def Report.frames (r : Report) : Nat :=
  match r with
  | .rate n _ => n
  | .unstated n _ => n

/-- CP.REPORT's effect (R184): a report goes out; nothing else changes. -/
def reported (s : State) : State :=
  (afterNow s).setPipe
    { s.pipe with report := some (throughput s.pipe.fcount (nowAnswer s) s.pipe.t0 s.env.draws) }

end Machine
end Sys2Proof
end

