-- ==== Sys2Proof/Machine/Operands.lean ====
section
/-! DEFINITION. How every operand is assembled (R98): the first match in a byte sequence (R11), the word of a
frame (R64), the slots of a word (R67, R95), the output byte (R97) and the destination offset (R28). -/

namespace Sys2Proof
namespace Machine

/-- `find_first(s, m)`: the least index at which `m` stands in `s` (R11, R130). -/
def findFirst : Bytes → Bytes → Option Nat
  | [], m => if m = [] then some 0 else none
  | b :: s, m =>
    if (b :: s).take m.length = m then some 0 else (findFirst s m).map (fun i => i + 1)

/-- `FrameWord(F, k)`, if the frame has it (R64). -/
def frameWord (o : ByteOrder) (f : Bytes) (k : Nat) : Option Word :=
  match f.drop (4 * k) with
  | b0 :: b1 :: b2 :: b3 :: _ => some (wordOfBytes o b0 b1 b2 b3)
  | _ => none

/-- The frame is decodable: a length that is a multiple of 4 and at least 14336 words (R94, R152). -/
def wellFormedFrame (f : Bytes) : Bool :=
  f.length % 4 == 0 && decide (Config.WORDS_PER_FRAME ≤ f.length / 4)

/-- The two bits at a place counted from the top, `(w >> (30 - at)) & 3` (R98 (b), R156). -/
def bitsAt (w : Word) (place : Nat) : Slot := (w >>> (30 - place)).setWidth 2

/-- Slot `j` of a word, bits `[31-2j : 30-2j]` (R67). -/
def slot (w : Word) (j : Nat) : Slot := bitsAt w (2 * j)

/-- The fifteen samples of a word, slot 0 first (R95). -/
def samplesOf (w : Word) : List Slot :=
  [slot w 0, slot w 1, slot w 2, slot w 3, slot w 4, slot w 5, slot w 6, slot w 7, slot w 8, slot w 9,
   slot w 10, slot w 11, slot w 12, slot w 13, slot w 14]

/-- The parity slot, bits [1:0] (R95, R157). -/
def paritySlot (w : Word) : Slot := slot w 15

/-- `zext_8(v) * 85` (R97). -/
def scale (v : Slot) : Byte := v.setWidth 8 * BitVec.ofNat 8 Config.SCALE

/-- The slot CURSOR stands at (R26). -/
def slotIndex (cursor : Nat) : Nat := cursor % 32 / 2

/-- The destination of sample number `d` (R28, R156). -/
def pixelOffset (d : Nat) : Nat :=
  let tp := d / 3
  let y := tp / Config.WIDTH
  let x := tp - y * Config.WIDTH
  (y * Config.WIDTH + x) * 4 + d % 3

/-- The word CURSOR stands in (R26, R64). -/
def currentWord (s : State) : Option Word :=
  match s.pd.frm with
  | some f => frameWord s.params.byteOrder f (s.pd.cursor / 32)
  | none => none

end Machine
end Sys2Proof
end

