-- ==== Sys2Proof/Machine/Flags.lean ====
section
/-! DEFINITION. The flag-like state: the parity diagnostic (R33, R204), the codes of the phases and faults
(R31, R32, R200) and the STATUS view (R35). -/

namespace Sys2Proof
namespace Machine

/-- ParityMismatch is noted when the slot is not 0 (R157, R204). -/
def notePar (p : Slot) (x : PdUnit) : PdUnit :=
  if p = 0#2 then x else { x with perr := true, perrCnt := x.perrCnt + 1 }

/-- Codes of FS_PHASE (R31). -/
def fsPhaseCode : FsPhase → BitVec 3
  | .idle => 0#3
  | .poll => 2#3
  | .read => 3#3
  | .scan => 4#3
  | .emit => 5#3
  | .fault => 7#3

/-- Codes of PD_PHASE (R32). -/
def pdPhaseCode : PdPhase → BitVec 3
  | .idle => 0#3
  | .check => 1#3
  | .run => 2#3
  | .fault => 7#3

/-- Codes of the conditions (R200). -/
def faultNumber : FaultCode → BitVec 3
  | .none => 0#3
  | .linkError => 1#3
  | .malformedFrame => 2#3
  | .parityMismatch => 3#3
  | .bufferOverflow => 4#3

/-- One bit. -/
def bit (b : Bool) : BitVec 1 := if b then 1#1 else 0#1

/-- The STATUS view (R35), bit 15 first; it holds nothing of its own. -/
def status (s : State) : BitVec 16 :=
  0#2 ++ (bit s.fs.frameOut.isSome ++ (bit s.pd.perr ++ (faultNumber s.pd.fault ++
    (faultNumber s.fs.fault ++ (pdPhaseCode s.pd.phase ++ fsPhaseCode s.fs.phase)))))

end Machine
end Sys2Proof
end

