-- ==== Sys2Proof/Machine/FrameSync.lean ====
section
/-! DEFINITION. Unit FS, the FrameSynchronizer (40_frame_synchronizer.md): the source transactions as the block
makes them (R122, R123), the five steps (R127 to R131) and the operation CATCH (R125, R126). -/

namespace Sys2Proof
namespace Machine

/-! ### The effects -/

/-- FS.START: `ACC <- SPILL; FS_PHASE <- POLL` (R127). -/
def fsStarted (s : State) : State :=
  s.setFs { s.fs with acc := s.fs.spill, phase := .poll }

/-- FS.POLL: one `SrcAvail()` and what follows from its answer (R128). -/
def fsPolled (s : State) : State :=
  match availAnswer s with
  | .linkError => raiseFs .linkError (afterAvail s)
  | .silent => leftWaiting (afterAvail s)
  | .count n =>
    (afterAvail s).setFs { s.fs with avail := n, phase := if n = 0 then .poll else .read }

/-- FS.READ: one `SrcRead(maxLen)` and what follows from its answer (R129). -/
def fsReadDone (maxLen : Nat) (s : State) : State :=
  match readAnswer maxLen s with
  | .linkError => raiseFs .linkError (afterRead maxLen s)
  | .silent => leftWaiting (afterRead maxLen s)
  | .chunk c =>
    if overflows s c.length then
      raiseFs .bufferOverflow ((afterRead maxLen s).setFs { s.fs with chunk := c })
    else
      (afterRead maxLen s).setFs { s.fs with chunk := c, acc := s.fs.acc ++ c, phase := .scan }

/-- FS.SCAN: the first match in the whole of ACC (R130). -/
def fsScanned (s : State) : State :=
  s.setFs { s.fs with
    found := findFirst s.fs.acc Config.MARKER
    phase := if (findFirst s.fs.acc Config.MARKER).isNone then .poll else .emit }

/-- FS.EMIT: the frame before the match, the spillover after the marker (R131, R98 (e)). -/
def fsEmitted (s : State) : Out :=
  match s.fs.found with
  | some i =>
    .next (s.setFs { s.fs with
      frameOut := some (s.fs.acc.take i)
      spill := s.fs.acc.drop (i + Config.MARKER_LEN)
      phase := .idle })
  | none => .fault .noMatch

/-! ### CATCH as far as the answers on hand reach (log entry 5) -/

/-- A bound on the reads one reply serves. -/
def ReadReply.cost (r : ReadReply) : Nat :=
  match r with
  | .chunk bs => bs.length + 1
  | .linkError => 1
  | .silent => 1

/-- A bound on the transactions the answers on hand serve. -/
def answersOnHand (s : State) : Nat :=
  s.src.avails.length + (s.src.reads.map ReadReply.cost).sum

/-- The loop of R125: steps of FS one after another until CATCH has ended, has faulted, waits for FRAME_OUT to
be taken (R126), waits for a source transaction that has no reply on hand, or is stuck inside one (R137). -/
def catchLoop : Nat → State → Out
  | 0, s => .next s
  | n + 1, s =>
    if s.fs.stuck then .next s
    else match s.fs.phase with
    | .poll => if s.src.avails.isEmpty then .next s else catchLoop n (fsPolled s)
    | .read => if s.src.reads.isEmpty then .next s else catchLoop n (fsReadDone Config.CHUNK_MAX s)
    | .scan => catchLoop n (fsScanned s)
    | .emit => if s.fs.frameOut.isSome then .next s else fsEmitted s
    | .idle => .next s
    | .fault => .next s

/-- Steps enough to use up the answers on hand: three for each transaction and two to end in. -/
def catchFuel (s : State) : Nat := 3 * answersOnHand s + 3

/-! ### The meanings -/

/-- SRC.AVAIL (R122): the transaction FS makes in phase POLL, with what FS.POLL does with the answer (R128;
log entry 6). -/
def execSrcAvail (s : State) : Out := gate (fsStop .poll s) (.next (fsPolled s))

/-- SRC.READ (R123): the transaction FS makes in phase READ, with what FS.READ does with the answer (R129;
log entry 6). -/
def execSrcRead (maxLen : Nat) (s : State) : Out := gate (fsStop .read s) (.next (fsReadDone maxLen s))

/-- CATCH (R125): admitted in phase IDLE (R126); FS.START and then the loop. -/
def execCatch (s : State) : Out :=
  gate (fsStop .idle s) (catchLoop (catchFuel s) (fsStarted s))

/-- FS.START (R127). -/
def execFsStart (s : State) : Out := gate (fsStop .idle s) (.next (fsStarted s))

/-- FS.POLL (R128). -/
def execFsPoll (s : State) : Out := gate (fsStop .poll s) (.next (fsPolled s))

/-- FS.READ (R129), always of CHUNK_MAX. -/
def execFsRead (s : State) : Out := gate (fsStop .read s) (.next (fsReadDone Config.CHUNK_MAX s))

/-- FS.SCAN (R130). -/
def execFsScan (s : State) : Out := gate (fsStop .scan s) (.next (fsScanned s))

/-- What keeps FS.EMIT from its step: another phase, or a frame not yet taken (R126, R131). -/
def emitStop (s : State) : Option NoStep :=
  match fsStop .emit s with
  | some w => some w
  | none => if s.fs.frameOut.isSome then some .frameNotTaken else none

/-- FS.EMIT (R131). -/
def execFsEmit (s : State) : Out := gate (emitStop s) (fsEmitted s)

end Machine
end Sys2Proof
end

