-- ==== Sys2Proof/Machine/PixelDecoder.lean ====
section
/-! DEFINITION. Unit PD, the PixelPlaneDecoder (41_pixel_plane_decoder.md): the steps (R151 to R158), the word
(R159) and the operation DECODE (R150). -/

namespace Sys2Proof
namespace Machine

/-! ### The effects -/

/-- PD.START: the frame is taken out of the consumer's hand into FRM (R151; log entry 21). -/
def pdStarted (f : Bytes) (s : State) : State :=
  (s.setPipe { s.pipe with taken := none }).setPd { s.pd with frm := some f, phase := .check }

/-- PD.CHECK: the length test, before every read and write (R152). -/
def pdChecked (f : Bytes) (s : State) : State :=
  if wellFormedFrame f then
    s.setPd { s.pd with cursor := 0, dumped := 0, perr := false, perrCnt := 0, phase := .run }
  else raisePd .malformedFrame s

/-- One sample written: the byte at the offset DUMPED selects, and the two counters (R156). -/
def putSample (v : Slot) (s : State) : Out :=
  if pixelOffset s.pd.dumped < Config.PIX_BYTES then
    .next ((s.setPix (s.pix.write (pixelOffset s.pd.dumped) (scale v))).setPd
      { s.pd with dumped := s.pd.dumped + 1, cursor := s.pd.cursor + 2 })
  else .fault (.pixelOutside (pixelOffset s.pd.dumped))

/-- PD.DONE: FRM is discarded, the unit idle (R158). -/
def pdFinished (x : PdUnit) : PdUnit := { x with frm := none, phase := .idle }

/-- One parity slot taken: the diagnostic, CURSOR, and PD.DONE after the last one (R157, R158). -/
def takeParity (p : Slot) (s : State) : State :=
  let x := notePar p s.pd
  let y := { x with cursor := s.pd.cursor + 2 }
  s.setPd (if s.pd.dumped = Config.TARGET then pdFinished y else y)

/-- Samples written one after another (R159). -/
def putSamples : List Slot → State → Out
  | [], s => .next s
  | v :: vs, s => andThen (putSample v s) (putSamples vs)

/-- A whole packed word: fifteen samples, then the parity slot (R159). -/
def putWord (w : Word) (s : State) : Out :=
  andThen (putSamples (samplesOf w) s) (fun t => .next (takeParity (paritySlot w) t))

/-- The word CURSOR stands in, handed on; none is a state no run reaches (R64, R156). -/
def withWord (s : State) (k : Word → Out) : Out :=
  match currentWord s with
  | some w => k w
  | none => .fault (.frameOutside (s.pd.cursor / 32))

/-- The loop of R150: words until the unit is no longer in phase RUN, at most `n` of them. -/
def pdWords : Nat → State → Out
  | 0, s => .next s
  | n + 1, s =>
    if s.pd.phase = .run then andThen (withWord s (fun w => putWord w s)) (pdWords n) else .next s

/-- The whole of DECODE on a frame (R150, R104). -/
def decodeFrame (f : Bytes) (s : State) : Out :=
  pdWords Config.WORDS_PER_FRAME (pdChecked f (pdStarted f s))

/-! ### Enabling conditions -/

/-- What keeps a sample step from happening: R156's condition. -/
def sampleStop (s : State) : Option NoStep :=
  pdStop .run (decide (slotIndex s.pd.cursor < Config.SAMPLES_PER_WORD)) s

/-- What keeps a parity step from happening: R157's condition. -/
def parityStop (s : State) : Option NoStep :=
  pdStop .run (decide (slotIndex s.pd.cursor = Config.SAMPLES_PER_WORD)) s

/-- What keeps a whole word from happening: CURSOR does not stand at a word's first slot (R159). -/
def wordStop (s : State) : Option NoStep := pdStop .run (decide (s.pd.cursor % 32 = 0)) s

/-- What keeps the end of DECODE from happening: R158's condition. -/
def doneStop (s : State) : Option NoStep :=
  pdStop .run (decide (s.pd.dumped = Config.TARGET) && decide (s.pd.cursor = Config.FRAME_BITS)) s

/-- A step on the frame in the consumer's hand; without one it is no request "with a frame" (R151). -/
def withTaken (s : State) (k : Bytes → Out) : Out :=
  match s.pipe.taken with
  | some f => k f
  | none => .refused (.noStep .noFrame)

/-- A step on the frame in FRM; none is a state no run reaches (R25). -/
def withFrm (s : State) (k : Bytes → Out) : Out :=
  match s.pd.frm with
  | some f => k f
  | none => .fault .noFrame

/-! ### The meanings -/

/-- DECODE (R150) of the frame in the consumer's hand. -/
def execDecode (s : State) : Out :=
  gate (pdStop .idle true s) (withTaken s (fun f => decodeFrame f s))

/-- PD.START (R151). -/
def execPdStart (s : State) : Out :=
  gate (pdStop .idle true s) (withTaken s (fun f => .next (pdStarted f s)))

/-- PD.CHECK (R152). -/
def execPdCheck (s : State) : Out :=
  gate (pdStop .check true s) (withFrm s (fun f => .next (pdChecked f s)))

/-- PD.SAMPLE (R156). -/
def execPdSample (s : State) : Out :=
  gate (sampleStop s) (withWord s (fun w => putSample (bitsAt w (s.pd.cursor % 32)) s))

/-- PD.PARITY (R157), PD.DONE inside the last one (R158). -/
def execPdParity (s : State) : Out :=
  gate (parityStop s) (withWord s (fun w => .next (takeParity (paritySlot w) s)))

/-- PD.DONE (R158) as a step of its own (log entry 30). -/
def execPdDone (s : State) : Out :=
  gate (doneStop s) (.next (s.setPd (pdFinished s.pd)))

/-- PD.WORD (R159): the word at CURSOR. -/
def execPdWord (s : State) : Out :=
  gate (wordStop s) (withWord s (fun w => putWord w s))

end Machine
end Sys2Proof
end

