-- ==== Sys2Proof/Machine/DataPatterns.lean ====
section
/-! DEFINITION. The data patterns of the table as the units meet them (log entry 11): the marker where FS scans
(R92, R130), a packed word, a sample and a parity slot where PD stands (R95, R97, R157, R159, R204), and what the
host writes as the owner of PIX at boot: a byte (R12, R60) or a pixel of four (R96) (R14, R237, R238; log entry 10). -/

namespace Sys2Proof
namespace Machine

/-- What keeps the marker from being matched: FS does not scan, or no window of ACC is the marker (R92). -/
def markerStop (s : State) : Option NoStep :=
  match fsStop .scan s with
  | some w => some w
  | none => if (findFirst s.fs.acc Config.MARKER).isNone then some .noMarker else none

/-- MARKER (R92): FS.SCAN finds it (R130). -/
def execMarker (s : State) : Out := gate (markerStop s) (.next (fsScanned s))

/-- PWORD (R95, R159): PD, at the first slot of a word, takes the word `w`. -/
def execPword (w : Word) (s : State) : Out := gate (wordStop s) (putWord w s)

/-- The four bytes of pixel number `n`, lowest offset first (R63, R96). -/
def writePixel (n : Nat) (r g b a : Byte) (m : Memory) : Memory :=
  (((m.write (4 * n) r).write (4 * n + 1) g).write (4 * n + 2) b).write (4 * n + 3) a

/-- What keeps the host from writing PIX: a DECODE in progress (R150, U23). Faults, stops and PD's end are nothing
to it: the host is no unit of the block (R14). -/
def hostStop (s : State) : Option NoStep :=
  if s.pd.phase = .check || s.pd.phase = .run then some .phase else none

/-- The host's write of one byte, `PIX[off] <- v` (R12 "the only write width to the pixel space", R60 "the owner at
boot", R236, R237): no row of the table, for the table has the block's own steps (R100). -/
def hostByte (off : Nat) (v : Byte) (s : State) : Out :=
  gate (hostStop s) (.next (s.setPix (s.pix.write off v)))

/-- PIXEL (R96): the host initialises one pixel of PIX, the alpha byte among the four (R14 (4), R60 "the owner at
boot", R237). -/
def execPixel (r g b a : Byte) (s : State) : Out :=
  gate (hostStop s) (.next (s.setPix (writePixel s.env.pixelAt r g b a s.pix)))

/-- LVL0 (R97): a sample slot holding 0. -/
def execLvl0 (s : State) : Out := gate (sampleStop s) (putSample 0#2 s)

/-- LVL1 (R97): a sample slot holding 1. -/
def execLvl1 (s : State) : Out := gate (sampleStop s) (putSample 1#2 s)

/-- LVL2 (R97): a sample slot holding 2. -/
def execLvl2 (s : State) : Out := gate (sampleStop s) (putSample 2#2 s)

/-- LVL3 (R97): a sample slot holding 3. -/
def execLvl3 (s : State) : Out := gate (sampleStop s) (putSample 3#2 s)

/-- PAR.OK (R157): a parity slot holding 0. -/
def execParOk (s : State) : Out := gate (parityStop s) (.next (takeParity 0#2 s))

/-- PAR.NZ1 (R204): a parity slot holding 1. -/
def execParNz1 (s : State) : Out := gate (parityStop s) (.next (takeParity 1#2 s))

/-- PAR.NZ2 (R204): a parity slot holding 2. -/
def execParNz2 (s : State) : Out := gate (parityStop s) (.next (takeParity 2#2 s))

/-- PAR.NZ3 (R204): a parity slot holding 3. -/
def execParNz3 (s : State) : Out := gate (parityStop s) (.next (takeParity 3#2 s))

end Machine
end Sys2Proof
end

