-- ==== Sys2Proof/Machine/HostAction.lean ====
section
/-! DEFINITION. The host's action RESET (R230), the only way out of a FAULT phase (R209). -/

namespace Sys2Proof
namespace Machine

/-- Everything of the block and the pipeline at its reset value (R230, R40); PIX, the source's answers, the
parameters, T0 and the surroundings untouched; the stream is indexed from 0 again (R18, R40; log entries 4, 18,
19). -/
def resetState (s : State) : State :=
  { params := s.params
    fs := FsUnit.reset
    pd := PdUnit.reset
    pipe := { Pipeline.reset with t0 := s.pipe.t0, report := s.pipe.report }
    pix := s.pix
    src := { s.src with stream := [] }
    env := s.env }

/-- RESET (R230): whatever the state. -/
def execReset (s : State) : Out := .next (resetState s)

end Machine
end Sys2Proof
end

