-- ==== Sys2Proof/Machine/Pipeline.lean ====
section
/-! DEFINITION. The CapturePipeline and Consumer boundary (42_capture_pipeline.md): CP.PUSH (R182), CP.REPORT
(R184), CP.POLL (R183), CP.TICK (R185) and the beginning of the worker loop RUN (R181). -/

namespace Sys2Proof
namespace Machine

/-- CP.PUSH: count, report every 30th, append at the tail, FRAME_OUT taken (R182, in that order). -/
def pushed (f : Bytes) (s : State) : State :=
  let t := s.setPipe { s.pipe with fcount := s.pipe.fcount + 1 }
  let u := if t.pipe.fcount % Config.REPORT_PERIOD = 0 then reported t else t
  (u.setPipe { u.pipe with q := u.pipe.q ++ [f] }).setFs { u.fs with frameOut := none }

/-- CP.POLL: the head of Q, or none, into the consumer's hand (R183; log entry 21). -/
def polled (s : State) : State :=
  s.setPipe { s.pipe with taken := s.pipe.q.head?, q := s.pipe.q.tail }

/-- RUN's first line: `T0 <- now(); FCOUNT <- 0`, and the loop has begun (R181). -/
def workerStarted (s : State) : State :=
  (afterNow s).setPipe { s.pipe with t0 := nowAnswer s, fcount := 0, running := true }

/-- What keeps RUN from starting: the loop runs already, or unit FS is busy (R181, R215; log entry 27). -/
def runStop (s : State) : Option NoStep :=
  match fsStop .idle s with
  | some w => some w
  | none => if s.pipe.running then some .phase else none

/-- RUN (R181): the loop begins. Its CATCH and CP.PUSH are the worker's next steps, one after another, which the
consumer's may come between (R14, R215): the sequencing state selects them (Machine/Sequencer.lean; log entry 5). -/
def execRun (s : State) : Out := gate (runStop s) (.next (workerStarted s))

/-- CP.PUSH (R182): enabled when FRAME_OUT holds a frame. -/
def execCpPush (s : State) : Out :=
  gate (workerStop s)
    (match s.fs.frameOut with
     | some f => .next (pushed f s)
     | none => .refused (.noStep .noFrame))

/-- CP.POLL (R183): never waits and never fails. -/
def execCpPoll (s : State) : Out := gate (consumerStop s) (.next (polled s))

/-- R184's condition: FCOUNT stands at a multiple of 30 that has been reached by counting, and the report made there
has not gone out. -/
def reportDue (s : State) : Bool :=
  decide (s.pipe.fcount ≠ 0) && decide (s.pipe.fcount % Config.REPORT_PERIOD = 0) &&
    decide (s.pipe.report.map Report.frames ≠ some s.pipe.fcount)

/-- What keeps a report from going out: R184's condition. -/
def reportStop (s : State) : Option NoStep :=
  match workerStop s with
  | some w => some w
  | none => if reportDue s then none else some .phase

/-- CP.REPORT (R184) as a step of its own, where its condition holds; in a run CP.PUSH has it inside, so that it
is never due afterwards (DEDUCED, log entry 35). -/
def execCpReport (s : State) : Out := gate (reportStop s) (.next (reported s))

/-- CP.TICK (R185): poll; without a frame nothing more; with one DECODE of it. Presentation is external. -/
def execCpTick (s : State) : Out :=
  gate (pdStop .idle true s)
    (match (polled s).pipe.taken with
     | some f => decodeFrame f (polled s)
     | none => .next (polled s))

end Machine
end Sys2Proof
end

