-- ==== Sys2Proof/Machine/Sequencer.lean ====
section
/-! DEFINITION. What is done next (R30 to R32): whether a unit stops for good (R207); the instruction each agent's
sequencing state selects and the free choice between the agents (R215); what the head of the script stands for; and
where an instruction is placed so that it is next (log entries 1, 2, 15, 26, 29). -/

namespace Sys2Proof
namespace Machine

/-- The instruction the worker's sequencing state selects (R31, R181), if it has a step. In phase SCAN the
marker is fetched where a window of ACC decodes to it (R92). -/
def workerInstr (s : State) : Option Instr :=
  if fsHalted s || s.fs.stuck then none
  else match s.fs.phase with
    | .idle =>
      if s.pipe.running then (if s.fs.frameOut.isSome then some .cpPush else some .fsStart) else none
    | .poll => some .fsPoll
    | .read => some .fsRead
    | .scan => if (findFirst s.fs.acc Config.MARKER).isSome then some .marker else some .fsScan
    | .emit =>
      if s.fs.frameOut.isSome then (if s.pipe.running then some .cpPush else none) else some .fsEmit
    | .fault => none

/-- The data PD fetches at CURSOR: the whole packed word when CURSOR stands at a word's first slot and PD may not stop
inside the word, else one slot of it (R26, R163, R207; log entry 26). Outside the frame PD.SAMPLE or PD.PARITY is left
to say so. -/
def pdFetch (s : State) : Instr :=
  match currentWord s with
  | none => if slotIndex s.pd.cursor < Config.SAMPLES_PER_WORD then .pdSample else .pdParity
  | some w =>
    if decide (s.pd.cursor % 32 = 0) && !exposedPd s then .pword w
    else if slotIndex s.pd.cursor < Config.SAMPLES_PER_WORD then
      decodeSample (bitsAt w (s.pd.cursor % 32))
    else decodeParity (paritySlot w)

/-- The instruction the consumer's sequencing state selects (R32), if it has a step. In phase IDLE it has none of
its own: it polls when a tick asks it to (R185, R210). -/
def consumerInstr (s : State) : Option Instr :=
  if pdHalted s then none
  else match s.pd.phase with
    | .idle => none
    | .check => some .pdCheck
    | .run => some (pdFetch s)
    | .fault => none

/-- What the scheduler chooses. -/
inductive Choice where
  /-- no agent has a step -/
  | rest
  /-- an agent takes the step of an instruction from a state -/
  | run (i : Instr) (s : State)
  deriving DecidableEq, Repr

/-- The scheduler's choice when the script is empty: the one agent that has a step, and freely between two
(R215: "any interleaving of their steps is a run"). -/
def choose (s : State) : Choice :=
  match workerInstr s, consumerInstr s with
  | none, none => .rest
  | some i, none => .run i s
  | none, some j => .run j s
  | some i, some j => if Config.freeTurn s.env.draws then .run i s.draw else .run j s.draw

/-! ### The stop of R207 -/

/-- At this step boundary the unit that has not faulted stops for good, if the free value says so: whatever the script
holds, and whether or not the unit has a step (R207; log entry 15). -/
def stopsHere (s : State) : Option State :=
  if exposedFs s && Config.freeStop s.env.draws then some (s.draw.setFs { s.fs with stopped := true })
  else if exposedPd s && Config.freeStop s.env.draws then some (s.draw.setPd { s.pd with stopped := true })
  else none

/-- The state from which the machine goes on where nothing stops: a free value has been drawn where one could. -/
def goesOn (s : State) : State := if exposedFs s || exposedPd s then s.draw else s

/-- The labels of the steps that CATCH's loop takes on the answers on hand (R125). -/
def catchLabels : Nat → State → List Byte
  | 0, _ => []
  | n + 1, s =>
    if s.fs.stuck then []
    else match s.fs.phase with
    | .poll => if s.src.avails.isEmpty then [] else 0x12#8 :: catchLabels n (fsPolled s)
    | .read => if s.src.reads.isEmpty then [] else 0x13#8 :: catchLabels n (fsReadDone Config.CHUNK_MAX s)
    | .scan => 0x14#8 :: catchLabels n (fsScanned s)
    | .emit => if s.fs.frameOut.isSome then [] else [0x15#8]
    | .idle => []
    | .fault => []

/-- The labels of the steps of one packed word (R159). -/
def wordLabels : List Byte := List.replicate Config.SAMPLES_PER_WORD 0x23#8 ++ [0x24#8]

/-- The labels of the steps of DECODE, by words (R150, R159). -/
def decodeLabels (f : Bytes) : List Byte :=
  0x21#8 :: 0x22#8 :: (if wellFormedFrame f then List.replicate Config.WORDS_PER_FRAME 0x26#8 else [])

/-- The steps in whose place an operation of several steps stands (R104), while the unit that takes them may stop at any
of their boundaries (R207; log entry 15). -/
def unfolding (i : Instr) (s : State) : Option (List Byte) :=
  match i with
  | .catchOp =>
    if exposedFs s && (fsStop .idle s).isNone then some (0x11#8 :: catchLabels (catchFuel s) (fsStarted s)) else none
  | .decodeOp => if exposedPd s && (pdStop .idle true s).isNone then s.pipe.taken.map decodeLabels else none
  | .cpTick =>
    if exposedPd s && (pdStop .idle true s).isNone then s.pipe.q.head?.map (fun f => 0x32#8 :: decodeLabels f) else none
  | .pdWord => if exposedPd s && (wordStop s).isNone then some wordLabels else none
  | .srcAvail | .srcRead _ | .fsStart | .fsPoll | .fsRead | .fsScan | .fsEmit
  | .pdStart | .pdCheck | .pdSample | .pdParity | .pdDone | .runOp | .cpPush | .cpPoll | .cpReport | .resetOp
  | .marker | .pword _ | .pixel _ _ _ _ | .lvl0 | .lvl1 | .lvl2 | .lvl3
  | .parOk | .parNz1 | .parNz2 | .parNz3 => none

/-- The script with an operation's steps in place of its label. -/
def afterUnfolding (ls : List Byte) (rest : List Act) (s : State) : State :=
  s.setEnv { s.env with script := ls.map .label ++ rest }

/-- The script after its head has been fetched. -/
def afterAct (rest : List Act) (s : State) : State := s.setEnv { s.env with script := rest }

/-- The pixel the host is about to write (R96, log entry 10). -/
def atPixel (n : Fin Config.PIXELS) (s : State) : State := s.setEnv { s.env with pixelAt := n }

/-- The refusal says that the spec gives the request no step. -/
def Refusal.isNoStep (r : Refusal) : Bool :=
  match r with
  | .noStep _ => true
  | _ => false

/-- A scripted request that has no step is not queued and no error (R126, R151): it is gone, and the machine
goes on from where it stood (log entry 7). -/
def settle (t : State) (o : Out) : Out :=
  match o with
  | .next s => .next s
  | .fault r => .fault r
  | .refused r => if Refusal.isNoStep r then .next t else .refused r

/-! ### Placing an instruction -/

/-- A frame of the one packed word `w`. -/
def oneWordFrame (s : State) (w : Word) : Bytes := bytesOfWord s.params.byteOrder w

/-- Unit FS standing at a phase, neither stopped nor stuck. -/
def atFs (p : FsPhase) (s : State) : State :=
  s.setFs { s.fs with phase := p, fault := .none, stopped := false, stuck := false }

/-- Unit PD standing at a phase, not stopped. -/
def atPd (p : PdPhase) (s : State) : State := s.setPd { s.pd with phase := p, fault := .none, stopped := false }

/-- No unit faulted, so that no halt policy keeps the placed instruction from running (R207). -/
def calm (s : State) : State :=
  let t := if s.fs.phase = .fault then atFs .idle s else s
  if t.pd.phase = .fault then atPd .idle t else t

/-- Unit PD in phase RUN at a slot of the first word of a frame. -/
def atSlot (f : Bytes) (cursor dumped : Nat) (s : State) : State :=
  s.setPd { s.pd with phase := .run, fault := .none, stopped := false, frm := some f, cursor := cursor,
                      dumped := dumped }

/-- The consumer holds a frame: the one it holds, or else the empty one. -/
def withHand (s : State) : State :=
  s.setPipe { s.pipe with taken := some (s.pipe.taken.getD []) }

/-- The sequencing state that an operation or step needs to be selected (R31, R32), so that the label at the
head of the script runs it. -/
def placeOpc (i : Instr) (s : State) : State :=
  match i with
  | .srcAvail => atFs .poll s
  | .srcRead _ => atFs .read s
  | .catchOp => atFs .idle s
  | .fsStart => atFs .idle s
  | .fsPoll => atFs .poll s
  | .fsRead => atFs .read s
  | .fsScan => atFs .scan s
  | .fsEmit =>
    (atFs .emit s).setFs { (atFs .emit s).fs with frameOut := none, acc := Config.MARKER, found := some 0 }
  | .decodeOp => atPd .idle (withHand s)
  | .pdStart => atPd .idle (withHand s)
  | .pdCheck =>
    s.setPd { s.pd with phase := .check, fault := .none, stopped := false, frm := some (s.pd.frm.getD []) }
  | .pdSample => atSlot (oneWordFrame s 0#32) 0 0 s
  | .pdParity => atSlot (oneWordFrame s 0#32) 30 15 s
  | .pdDone => atSlot (oneWordFrame s 0#32) Config.FRAME_BITS Config.TARGET s
  | .pdWord => atSlot (oneWordFrame s 0#32) 0 0 s
  | .runOp => (atFs .idle s).setPipe { s.pipe with running := false }
  | .cpPush =>
    (atFs .idle s).setFs { (atFs .idle s).fs with frameOut := some (s.fs.frameOut.getD []) }
  | .cpPoll => atPd .idle s
  | .cpReport => (atFs .idle s).setPipe { s.pipe with fcount := Config.REPORT_PERIOD, report := none }
  | .cpTick => atPd .idle s
  | .resetOp => s
  | .marker | .pword _ | .pixel _ _ _ _ | .lvl0 | .lvl1 | .lvl2 | .lvl3
  | .parOk | .parNz1 | .parNz2 | .parNz3 => s

/-- The worker without a step of its own: idle and its loop not started. -/
def quietWorker (s : State) : State := (atFs .idle s).setPipe { s.pipe with running := false }

/-- The consumer without a step of its own: idle. -/
def quietConsumer (s : State) : State := atPd .idle s

/-- The script emptied, so that the scheduler chooses. -/
def unscripted (s : State) : State := s.setEnv { s.env with script := [] }

/-- A label placed at the head of the script, its instruction made the unit's next step. -/
def placeLabel (b : Byte) (s : State) : State :=
  let t := match decodeOpc b with
    | some i => placeOpc i s
    | none => s
  t.setEnv { t.env with script := .label b :: t.env.script }

/-- The marker placed where FS fetches it: FS scans an ACC that holds it (R130). -/
def placeMarker (s : State) : State :=
  let t := quietConsumer (unscripted s)
  (atFs .scan t).setFs { (atFs .scan t).fs with acc := Config.MARKER }

/-- A packed word placed where PD fetches it: the first word of its frame (R64). -/
def placeWord (w : Word) (s : State) : State :=
  let t := quietWorker (unscripted s)
  atSlot (oneWordFrame t w) 0 0 t

/-- A 32-bit row placed where its unit fetches it. -/
def placePattern (w : Word) (s : State) : State :=
  if bytesOfWord .le w = Config.MARKER then placeMarker s else placeWord w s

/-- A sample placed where PD fetches it alone: slot 1 of the first word of its frame (R67). -/
def placeSample (v : Slot) (s : State) : State :=
  let t := quietWorker (unscripted s)
  atSlot (oneWordFrame t ((v.setWidth 32) <<< 28)) 2 1 t

end Machine
end Sys2Proof
end

