-- ==== Sys2Proof/Machine/Dispatch.lean ====
section
/-! DEFINITION. One arm per row of the table: the meaning of every instruction. -/

namespace Sys2Proof
namespace Machine

/-- The effect of one instruction. -/
def exec (i : Instr) (s : State) : Host.Outcome State Fault Refusal :=
  match i with
  | .srcAvail => Sys2Proof.Machine.execSrcAvail s
  | .srcRead maxLen => Sys2Proof.Machine.execSrcRead maxLen s
  | .catchOp => Sys2Proof.Machine.execCatch s
  | .fsStart => Sys2Proof.Machine.execFsStart s
  | .fsPoll => Sys2Proof.Machine.execFsPoll s
  | .fsRead => Sys2Proof.Machine.execFsRead s
  | .fsScan => Sys2Proof.Machine.execFsScan s
  | .fsEmit => Sys2Proof.Machine.execFsEmit s
  | .decodeOp => Sys2Proof.Machine.execDecode s
  | .pdStart => Sys2Proof.Machine.execPdStart s
  | .pdCheck => Sys2Proof.Machine.execPdCheck s
  | .pdSample => Sys2Proof.Machine.execPdSample s
  | .pdParity => Sys2Proof.Machine.execPdParity s
  | .pdDone => Sys2Proof.Machine.execPdDone s
  | .pdWord => Sys2Proof.Machine.execPdWord s
  | .runOp => Sys2Proof.Machine.execRun s
  | .cpPush => Sys2Proof.Machine.execCpPush s
  | .cpPoll => Sys2Proof.Machine.execCpPoll s
  | .cpReport => Sys2Proof.Machine.execCpReport s
  | .cpTick => Sys2Proof.Machine.execCpTick s
  | .resetOp => Sys2Proof.Machine.execReset s
  | .marker => Sys2Proof.Machine.execMarker s
  | .pword w => Sys2Proof.Machine.execPword w s
  | .pixel r g b a => Sys2Proof.Machine.execPixel r g b a s
  | .lvl0 => Sys2Proof.Machine.execLvl0 s
  | .lvl1 => Sys2Proof.Machine.execLvl1 s
  | .lvl2 => Sys2Proof.Machine.execLvl2 s
  | .lvl3 => Sys2Proof.Machine.execLvl3 s
  | .parOk => Sys2Proof.Machine.execParOk s
  | .parNz1 => Sys2Proof.Machine.execParNz1 s
  | .parNz2 => Sys2Proof.Machine.execParNz2 s
  | .parNz3 => Sys2Proof.Machine.execParNz3 s

end Machine
end Sys2Proof
end

