-- ==== Sys2Proof/Machine/Move.lean ====
section
/-! DEFINITION. What the machine does in one step when no unit stops at it: what the head of the script says, or, when
the script is empty, the step of the agent the scheduler chooses (Machine/Sequencer.lean). -/

namespace Sys2Proof
namespace Machine

/-- One step without a stop (R2, R14). A scripted label that the table does not have is refused by name; a scripted
request or host write that has no step leaves the machine as it was; an operation of several steps whose unit may stop
gives way to them; with no agent to move the machine rests (R231). -/
def move (s : State) : Out :=
  match s.env.script with
  | .label b :: rest =>
    match decodeOpc b with
    | some i =>
      match unfolding i s with
      | some ls => .next (afterUnfolding ls rest s)
      | none => settle (afterAct rest s) (exec i (afterAct rest s))
    | none => .refused (.unknownCode b)
  | .pixel n r g b a :: rest => settle (afterAct rest s) (exec (.pixel r g b a) (atPixel n (afterAct rest s)))
  | .byte off v :: rest => settle (afterAct rest s) (hostByte off v (afterAct rest s))
  | [] =>
    match choose s with
    | .rest => .next s
    | .run i t => exec i t

end Machine
end Sys2Proof
end

