-- ==== Sys2Proof/Machine/Step.lean ====
section
/-! DEFINITION. One step of the machine: the stop of R207, or what the machine does without one
(Machine/Move.lean). -/

namespace Sys2Proof
namespace Machine

/-- One step (R2, R14): at its boundary a unit stops for good (R207), or the machine goes on. -/
def step (s : State) : Host.Outcome State Fault Refusal :=
  match stopsHere s with
  | some t => .next t
  | none => move (goesOn s)

/-- The state with a table row's bits placed where the next step fetches them (log entry 29): a label at the
head of the script, a 32-bit pattern in ACC or in the frame, a 2-bit slot in the frame. -/
def State.withFetchWord (s : State) (nbits w : Nat) : State :=
  match nbits with
  | 8 => placeLabel (BitVec.ofNat 8 w) (calm s)
  | 32 => placePattern (BitVec.ofNat 32 w) (calm s)
  | 2 => placeSample (BitVec.ofNat 2 w) (calm s)
  | _ => s

end Machine
end Sys2Proof
end

