-- ==== Sys2Proof/Safety.lean ====
section
/-! DEFINITION. What a sound state of the machine is, in the terms claims use: the invariants of unit FS (R41,
R34, R31), of unit PD (R26, R27, R32 to R34), of the pixel memory (R63) and of the picture in it (R162), and
what it is for an agent to be able to move (R206, R207). -/

namespace Sys2Proof
namespace Machine

/-- The worker may take steps: FS has not faulted, is not stuck inside a transaction that the source never answers,
and HALT_POLICY has not stopped it (R206, R207, R209). -/
def WorkerLive (s : State) : Prop := s.fs.phase ≠ .fault ∧ s.fs.stuck = false ∧ fsHalted s = false

/-- The consumer may take steps: PD has not faulted and HALT_POLICY has not stopped it (R206, R207). -/
def ConsumerLive (s : State) : Prop := s.pd.phase ≠ .fault ∧ pdHalted s = false

/-- At this step boundary a unit may stop for good: the other has faulted, HALT_POLICY is `any`, and it could itself go
on (R207, D7). -/
def MayStop (s : State) : Prop :=
  s.params.haltPolicy = .any ∧ ((s.pd.phase = .fault ∧ WorkerLive s) ∨ (s.fs.phase = .fault ∧ ConsumerLive s))

/-- The machine goes on from `s` as `u`: no unit may stop at this boundary, or one may, the free value that decides has
been drawn, and it does not (R207; log entry 15). -/
def GoesOn (s u : State) : Prop :=
  (u = s ∧ ¬ MayStop s) ∨
    (u = s.setEnv { s.env with draws := s.env.draws + 1 } ∧ MayStop s ∧ Config.freeStop s.env.draws = false)

/-- The agents whose steps the rows of the table are (R14, R100): the transactions of the source are the
worker's (log entry 6), PIXEL is the host's, who initialises PIX (R14 (4), log entry 10). -/
inductive Agent where
  | worker
  | consumer
  | host
  deriving DecidableEq, Repr

/-- The agent of each row (R100). -/
def agentOf : Instr → Agent
  | .srcAvail | .srcRead _ | .catchOp | .fsStart | .fsPoll | .fsRead | .fsScan | .fsEmit | .marker
  | .runOp | .cpPush | .cpReport => .worker
  | .decodeOp | .pdStart | .pdCheck | .pdSample | .pdParity | .pdDone | .pdWord | .cpPoll | .cpTick
  | .pword _ | .lvl0 | .lvl1 | .lvl2 | .lvl3 | .parOk | .parNz1 | .parNz2 | .parNz3 => .consumer
  | .resetOp | .pixel _ _ _ _ => .host

/-- FS stands where it takes no further step on the replies on hand: its operation has ended or faulted, it is stuck,
it waits for a reply of the source (R137), or it waits for FRAME_OUT to be taken (R126). -/
def CatchRests (s : State) : Prop :=
  s.fs.phase = .idle ∨ s.fs.phase = .fault ∨ s.fs.stuck = true ∨
  (s.fs.phase = .poll ∧ s.src.avails = []) ∨ (s.fs.phase = .read ∧ s.src.reads = []) ∨
  (s.fs.phase = .emit ∧ s.fs.frameOut ≠ none)

/-! ### What a step leaves alone -/

/-- A step of FS leaves PD, the pipeline, PIX, the parameters and the surroundings' lists alone (R14, R60). -/
structure FsOnly (s t : State) : Prop where
  pd : t.pd = s.pd
  pipe : t.pipe = s.pipe
  pix : t.pix = s.pix
  params : t.params = s.params
  script : t.env.script = s.env.script
  clock : t.env.clock = s.env.clock
  pixelAt : t.env.pixelAt = s.env.pixelAt
  stopped : t.fs.stopped = s.fs.stopped

/-- A step of PD leaves FS, the source, the parameters, Q, FCOUNT and T0 alone (R14, R60). -/
structure PdOnly (s t : State) : Prop where
  fs : t.fs = s.fs
  src : t.src = s.src
  params : t.params = s.params
  q : t.pipe.q = s.pipe.q
  fcount : t.pipe.fcount = s.pipe.fcount
  t0 : t.pipe.t0 = s.pipe.t0
  running : t.pipe.running = s.pipe.running
  report : t.pipe.report = s.pipe.report
  env : t.env = s.env
  stopped : t.pd.stopped = s.pd.stopped

/-- A step of the worker leaves PD, PIX, the consumer's hand and the parameters alone (R14, R60). -/
structure WorkerOnly (s t : State) : Prop where
  pd : t.pd = s.pd
  pix : t.pix = s.pix
  taken : t.pipe.taken = s.pipe.taken
  params : t.params = s.params
  script : t.env.script = s.env.script
  pixelAt : t.env.pixelAt = s.env.pixelAt
  stopped : t.fs.stopped = s.fs.stopped

/-- A step of the consumer leaves FS, the source, the parameters, FCOUNT and T0 alone; of Q it takes at most the
head (R14, R60, R183). -/
structure ConsumerOnly (s t : State) : Prop where
  fs : t.fs = s.fs
  src : t.src = s.src
  params : t.params = s.params
  q : t.pipe.q = s.pipe.q ∨ t.pipe.q = s.pipe.q.tail
  fcount : t.pipe.fcount = s.pipe.fcount
  t0 : t.pipe.t0 = s.pipe.t0
  running : t.pipe.running = s.pipe.running
  report : t.pipe.report = s.pipe.report
  script : t.env.script = s.env.script
  pixelAt : t.env.pixelAt = s.env.pixelAt
  clock : t.env.clock = s.env.clock
  draws : t.env.draws = s.env.draws
  stopped : t.pd.stopped = s.pd.stopped

/-- Only the script, the pixel number and the counter of the surroundings differ. -/
structure Fetched (s t : State) : Prop where
  params : t.params = s.params
  fs : t.fs = s.fs
  pd : t.pd = s.pd
  pipe : t.pipe = s.pipe
  pix : t.pix = s.pix
  src : t.src = s.src
  clock : t.env.clock = s.env.clock

/-- No byte at an offset 3 mod 4 differs (R63, R237). -/
def AlphaKept (s t : State) : Prop := ∀ a, a % 4 = 3 → t.pix.read a = s.pix.read a

/-- The head of the script is a write of the host's to PIX: a pixel or a byte (R14 (4), R60). -/
def HostWrites (s : State) : Prop :=
  (∃ n r g b a rest, s.env.script = .pixel n r g b a :: rest) ∨ ∃ off v rest, s.env.script = .byte off v :: rest

/-! ### CATCH on answers on hand -/

/-- One pass of CATCH's loop as the source answers it (R104, R125): `zeros` answers 0 to `available()`, one answer
that is not 0, and one chunk. -/
structure Pass where
  /-- how many answers 0 come first -/
  zeros : Nat
  /-- one less than the answer that is not 0 -/
  count : Nat
  /-- the bytes the read returns -/
  bytes : Bytes
  deriving DecidableEq, Repr

/-- The answers to `available()` of some passes. -/
def passAvails : List Pass → List AvailReply
  | [] => []
  | p :: ps => List.replicate p.zeros (.count 0) ++ (.count (p.count + 1) :: passAvails ps)

/-- The answers to `read` of some passes. -/
def passReads (ps : List Pass) : List ReadReply := ps.map (fun p => .chunk p.bytes)

/-- The bytes read in some passes. -/
def passBytes : List Pass → Bytes
  | [] => []
  | p :: ps => p.bytes ++ passBytes ps

/-- ACC of this length passes no finite ACC_CAP (R129, R205). -/
def Fits (s : State) (n : Nat) : Prop := ∀ cap, s.params.accCap = some cap → n ≤ cap

/-- A frame that collides with no marker: the first match in the frame followed by the marker is at the
frame's end (R41 (c), R134, C8). -/
def FrameClean (f : Bytes) : Prop := findFirst (f ++ Config.MARKER) Config.MARKER = some f.length

/-- Where a CATCH begun in state `s` stands after it has read `more`: ended, with the frame before the first marker
and the spillover after it (R125, R131); faulted (R206); or on the way, ACC being SPILL and what was read (R127,
R129). -/
def CatchStands (s : State) (more : Bytes) (t : State) : Prop :=
  match t.fs.phase with
  | .idle =>
    s.fs.frameOut = none ∧ ∃ f, t.fs.frameOut = some f ∧ FrameClean f ∧
      s.fs.spill ++ more = f ++ (Config.MARKER ++ t.fs.spill)
  | .fault =>
    t.fs.spill = s.fs.spill ∧ t.fs.frameOut = s.fs.frameOut ∧
      ((t.fs.fault = .linkError ∧ t.fs.acc = s.fs.spill ++ more) ∨
       (t.fs.fault = .bufferOverflow ∧ t.fs.acc ++ t.fs.chunk = s.fs.spill ++ more ∧
         ¬ Fits s (s.fs.spill ++ more).length))
  | .poll | .read | .scan | .emit =>
    t.fs.spill = s.fs.spill ∧ t.fs.frameOut = s.fs.frameOut ∧ t.fs.fault = s.fs.fault ∧
      t.fs.acc = s.fs.spill ++ more

/-- Some steps of the machine, one after another. -/
def steps : Nat → State → Out
  | 0, s => .next s
  | n + 1, s => andThen (step s) (steps n)

/-- The instructions of some labels, one after another (R104). -/
def runLabels : List Byte → State → Out
  | [], s => .next s
  | b :: bs, s =>
    match decodeOpc b with
    | some i => andThen (exec i s) (runLabels bs)
    | none => .refused (.unknownCode b)

/-- `F_1 ++ MARKER ++ ... ++ F_n ++ MARKER` (R41 (a)). -/
def joinFrames : List Bytes → Bytes
  | [] => []
  | f :: fs => f ++ (Config.MARKER ++ joinFrames fs)

/-- What FS holds of the stream after the last consumed marker: SPILL between operations, ACC during one
(R41 (a), (b)). -/
def heldBytes (s : State) : Bytes := if s.fs.phase = .idle then s.fs.spill else s.fs.acc

/-- R41 (a), (b), (c): the stream is the frames emitted, each clean and each followed by its marker, and then
what FS holds. -/
def Reconstructs (s : State) : Prop :=
  s.fs.phase ≠ .fault →
    ∃ frames : List Bytes, (∀ f ∈ frames, FrameClean f) ∧
      s.src.stream = joinFrames frames ++ heldBytes s

/-- The stream is exactly these frames, each clean and each followed by its marker, and then what FS holds
(R41 (a), (b), (c)). -/
def AccountsFor (frames : List Bytes) (s : State) : Prop :=
  (∀ f ∈ frames, FrameClean f) ∧
    (s.fs.phase ≠ .fault → s.src.stream = joinFrames frames ++ heldBytes s)

/-- The frames that have left FS and have not been polled: Q, then FRAME_OUT (R39 (3)). -/
def inFlight (s : State) : List Bytes := s.pipe.q ++ s.fs.frameOut.toList

/-- The registers of FS: the fault register and the phase agree (R34); FS_MATCH in phase EMIT is the first
match in ACC (R24, R31); FS_CHUNK is no longer than a read (R24); stuck is inside a transaction (R209). -/
def FsSound (s : State) : Prop :=
  (s.fs.phase = .fault ↔ s.fs.fault ≠ .none) ∧
  (s.fs.fault = .none ∨ s.fs.fault = .linkError ∨ s.fs.fault = .bufferOverflow) ∧
  (s.fs.phase = .emit →
    (findFirst s.fs.acc Config.MARKER).isSome = true ∧ s.fs.found = findFirst s.fs.acc Config.MARKER) ∧
  s.fs.chunk.length ≤ Config.CHUNK_MAX ∧
  (s.fs.stuck = true → s.fs.phase = .poll ∨ s.fs.phase = .read)

/-- R27's equation between the two counters of PD. -/
def CountersAgree (x : PdUnit) : Prop :=
  x.cursor % 2 = 0 ∧ x.cursor ≤ Config.FRAME_BITS ∧
  x.dumped = 15 * (x.cursor / 32) + min (x.cursor % 32 / 2) 15

/-- FRM by phase: none outside a DECODE, a frame in CHECK, a decodable frame with words left in RUN (R25, R32,
R152). -/
def FrameHeld (x : PdUnit) : Prop :=
  match x.phase with
  | .idle => x.frm = none
  | .fault => x.frm = none
  | .check => x.frm ≠ none
  | .run => ∃ f, x.frm = some f ∧ wellFormedFrame f = true ∧ x.cursor < Config.FRAME_BITS

/-- The registers of PD: fault register and phase (R34), counters (R26, R27), parity diagnostic (R33), FRM
(R25). -/
def PdSound (s : State) : Prop :=
  (s.pd.phase = .fault ↔ s.pd.fault ≠ .none) ∧
  (s.pd.fault = .none ∨ s.pd.fault = .malformedFrame) ∧
  CountersAgree s.pd ∧
  (s.pd.perr = true ↔ s.pd.perrCnt ≠ 0) ∧
  s.pd.perrCnt ≤ s.pd.cursor / 32 ∧
  FrameHeld s.pd

/-- Sample number `k` of a frame (R95, R162). -/
def sampleOf (o : ByteOrder) (f : Bytes) (k : Nat) : Option Slot :=
  match frameWord o f (k / 15) with
  | some w => some (slot w (k % 15))
  | none => none

/-- How many of the first `n` words of a frame have a parity slot that is not 0 (R33, R157). -/
def parityWords (o : ByteOrder) (f : Bytes) : Nat → Nat
  | 0 => 0
  | n + 1 =>
    parityWords o f n +
      (match frameWord o f n with
       | some w => if paritySlot w = 0#2 then 0 else 1
       | none => 0)

/-- During a DECODE every sample written so far stands in PIX at its place (R156, R162). -/
def PictureSound (s : State) : Prop :=
  s.pd.phase = .run → ∀ f, s.pd.frm = some f → ∀ k, k < s.pd.dumped →
    s.pix.read (pixelOffset k) = (sampleOf s.params.byteOrder f k).map scale

/-- The pixel memory is in its canonical form (R63). -/
def PixSound (s : State) : Prop := s.pix.wf = true

/-- At every multiple of 30 the report of that count has gone out, inside its CP.PUSH (R184). -/
def ReportSound (s : State) : Prop :=
  s.pipe.fcount ≠ 0 → s.pipe.fcount % 30 = 0 → s.pipe.report.map Report.frames = some s.pipe.fcount

/-- Everything a run from reset keeps. -/
def Sound (s : State) : Prop :=
  FsSound s ∧ PdSound s ∧ PixSound s ∧ ReportSound s ∧ Reconstructs s ∧ PictureSound s

end Machine
end Sys2Proof
end

