-- ==== Sys2Proof/Certificates/Slice0/Obligations.lean ====
section
/-! DEFINITION. The statements for the provers, from the numbered rules of spec/. Where a statement rests on a
choice of the model (a log entry), its docstring names the entry. Every statement is about every state that meets
its hypotheses; an equation `exec i s = .next (s.setFs ...)` says the frame as well: nothing else changes. -/

section
open Sys2Proof Sys2Proof.Machine

/-! ### Encoding -/

/-- Every row with its operands at every value decodes from its own encoding, with the bytes after it left over
(R92, R95, R96, R97, R100; slots alone in a byte: log entry 12). -/
def Obligations.DecodeEncodeRoundTrip : Prop :=
  ∀ (o : ByteOrder) (i : Instr) (rest : Bytes), i.wf = true →
    decode o i.format (encode o i ++ rest) = .ok (i, rest)

/-- What decodes is exactly what encodes: no bits are dropped and no reserved pattern falls to a neighbour
(R92, R95, R96, R97, R100; log entry 12). -/
def Obligations.EncodeDecodeRoundTrip : Prop :=
  ∀ (o : ByteOrder) (f : Format) (bs rest : Bytes) (i : Instr), decode o f bs = .ok (i, rest) →
    i.format = f ∧ i.wf = true ∧ bs = encode o i ++ rest

/-- The twenty-one labels of R100 and nothing else; and a few words written out from the spec's formats: the marker
(R92), the word of the vector W2 in both byte orders (R64, R95), a pixel (R96), a sample (R97) and a parity slot
(R157) (formats given to the decoder: log entry 12). -/
def Obligations.LabelsAndWordsDecode : Prop :=
  (decodeOpc 0x01#8 = some .srcAvail ∧ decodeOpc 0x02#8 = some (.srcRead 512) ∧
   decodeOpc 0x10#8 = some .catchOp ∧ decodeOpc 0x11#8 = some .fsStart ∧ decodeOpc 0x12#8 = some .fsPoll ∧
   decodeOpc 0x13#8 = some .fsRead ∧ decodeOpc 0x14#8 = some .fsScan ∧ decodeOpc 0x15#8 = some .fsEmit) ∧
  (decodeOpc 0x20#8 = some .decodeOp ∧ decodeOpc 0x21#8 = some .pdStart ∧ decodeOpc 0x22#8 = some .pdCheck ∧
   decodeOpc 0x23#8 = some .pdSample ∧ decodeOpc 0x24#8 = some .pdParity ∧ decodeOpc 0x25#8 = some .pdDone ∧
   decodeOpc 0x26#8 = some .pdWord) ∧
  (decodeOpc 0x30#8 = some .runOp ∧ decodeOpc 0x31#8 = some .cpPush ∧ decodeOpc 0x32#8 = some .cpPoll ∧
   decodeOpc 0x33#8 = some .cpReport ∧ decodeOpc 0x34#8 = some .cpTick ∧ decodeOpc 0xFF#8 = some .resetOp) ∧
  (∀ b : Byte, b ∉ [0x01#8, 0x02#8, 0x10#8, 0x11#8, 0x12#8, 0x13#8, 0x14#8, 0x15#8, 0x20#8, 0x21#8, 0x22#8,
      0x23#8, 0x24#8, 0x25#8, 0x26#8, 0x30#8, 0x31#8, 0x32#8, 0x33#8, 0x34#8, 0xFF#8] → decodeOpc b = none) ∧
  decode .le .mk [0x03#8, 0x03#8, 0x03#8, 0x03#8] = .ok (.marker, []) ∧
  decode .le .mk [0x03#8, 0x03#8, 0x03#8, 0x04#8] = .error .notMarker ∧
  decode .le .pw [0x18#8, 0x1B#8, 0x1B#8, 0x1B#8] = .ok (.pword 0x1B1B1B18#32, []) ∧
  decode .be .pw [0x1B#8, 0x1B#8, 0x1B#8, 0x18#8] = .ok (.pword 0x1B1B1B18#32, []) ∧
  decode .le .px [0x11#8, 0x22#8, 0x33#8, 0x7F#8] = .ok (.pixel 0x11#8 0x22#8 0x33#8 0x7F#8, []) ∧
  decode .le .sampleSlot [0x02#8] = .ok (.lvl2, []) ∧
  decode .le .paritySlot [0x03#8] = .ok (.parNz3, []) ∧
  decode .le .opc8 [0x13#8, 0x02#8] = .ok (.fsRead, [0x02#8])

/-! ### Operands -/

/-- R64: the bytes of word `k` in either byte order, and no word past the frame's end. -/
def Obligations.FrameWordFromBytes : Prop :=
  (∀ (f : Bytes) (k : Nat) (b0 b1 b2 b3 : Byte),
    f[4 * k]? = some b0 → f[4 * k + 1]? = some b1 → f[4 * k + 2]? = some b2 → f[4 * k + 3]? = some b3 →
    frameWord .le f k =
      some (b0.setWidth 32 ||| b1.setWidth 32 <<< 8 ||| b2.setWidth 32 <<< 16 ||| b3.setWidth 32 <<< 24) ∧
    frameWord .be f k =
      some (b0.setWidth 32 <<< 24 ||| b1.setWidth 32 <<< 16 ||| b2.setWidth 32 <<< 8 ||| b3.setWidth 32)) ∧
  (∀ (o : ByteOrder) (f : Bytes) (k : Nat), f.length < 4 * k + 4 → frameWord o f k = none)

/-- R67: slot `j` is bits `[31-2j : 30-2j]`, the higher bit the more significant. -/
def Obligations.SlotBits : Prop :=
  (∀ (w : Word) (j : Nat), j ≤ 15 →
    slot w j = w.extractLsb' (30 - 2 * j) 2 ∧ (slot w j).toNat = w.toNat / 2 ^ (30 - 2 * j) % 4) ∧
  (∀ w : Word, slot w 0 = w.extractLsb' 30 2 ∧ slot w 14 = w.extractLsb' 2 2 ∧ slot w 15 = w.extractLsb' 0 2 ∧
    paritySlot w = slot w 15) ∧
  (∀ w : Word, samplesOf w = (List.range 15).map (slot w))

/-- R97: the output byte is 85 times the sample, which is the two bits repeated four times. -/
def Obligations.SampleScale : Prop :=
  (∀ v : Slot, (scale v).toNat = 85 * v.toNat ∧ (scale v).toNat ≤ 255 ∧
    scale v = v.setWidth 8 <<< 6 ||| v.setWidth 8 <<< 4 ||| v.setWidth 8 <<< 2 ||| v.setWidth 8) ∧
  scale 0#2 = 0x00#8 ∧ scale 1#2 = 0x55#8 ∧ scale 2#2 = 0xAA#8 ∧ scale 3#2 = 0xFF#8

/-- R28: the values computed from DUMPED and their ranges. -/
def Obligations.SampleDestination : Prop :=
  ∀ d : Nat, d < 215040 →
    let totalPixels := d / 3
    let y := totalPixels / 320
    let x := totalPixels - y * 320
    let channel := d % 3
    pixelOffset d = (y * 320 + x) * 4 + channel ∧ pixelOffset d = 4 * (d / 3) + d % 3 ∧
    totalPixels ≤ 71679 ∧ y ≤ 223 ∧ x ≤ 319 ∧ channel ≤ 2 ∧ pixelOffset d ≤ 286718 ∧
    y * 320 + x = totalPixels ∧ (y * 320 + x) * 4 ≤ 458752 ∧ y * 320 ≤ 458752

/-- The samples' destinations are the colour bytes of PIX, each once (R63, R73 (f), R150 "each once"). -/
def Obligations.DestinationsAreColourBytes : Prop :=
  (∀ a b : Nat, pixelOffset a = pixelOffset b → a = b) ∧
  (∀ off : Nat, (∃ d, d < 215040 ∧ pixelOffset d = off) ↔ off < 286720 ∧ off % 4 ≠ 3)

/-- R11: `find_first` answers the least index at which the pattern stands, and none when there is none. -/
def Obligations.FirstMatchIsLeast : Prop :=
  ∀ (s m : Bytes),
    (∀ i : Nat, findFirst s m = some i ↔
      (i + m.length ≤ s.length ∧ (s.drop i).take m.length = m) ∧
        ∀ j, j < i → ¬ (j + m.length ≤ s.length ∧ (s.drop j).take m.length = m)) ∧
    (findFirst s m = none ↔ ∀ j : Nat, ¬ (j + m.length ≤ s.length ∧ (s.drop j).take m.length = m))

/-! ### Reset -/

/-- The reset values R40 gives. The registers it gives none (FS_AVAIL, FS_CHUNK, FS_MATCH, T0, PIX) are not
stated. -/
def Obligations.ResetValues : Prop :=
  State.reset.fs.spill = [] ∧ State.reset.fs.acc = [] ∧ State.reset.fs.frameOut = none ∧
  State.reset.fs.phase = .idle ∧ State.reset.fs.fault = .none ∧
  State.reset.pd.frm = none ∧ State.reset.pd.cursor = 0 ∧ State.reset.pd.dumped = 0 ∧
  State.reset.pd.perr = false ∧ State.reset.pd.perrCnt = 0 ∧ State.reset.pd.phase = .idle ∧
  State.reset.pd.fault = .none ∧ State.reset.pipe.q = [] ∧ State.reset.pipe.fcount = 0 ∧
  State.reset.src.stream = [] ∧ status State.reset = 0#16

/-- The invariants hold right after reset. -/
def Obligations.ResetIsSound : Prop := Sound State.reset

/-- RESET, whatever the state (R230): both units and the pipeline at the values of R40; PIX, what the source has
still to answer and the parameters untouched. The stream is indexed from 0 again: log entry 4. -/
def Obligations.ResetInstruction : Prop :=
  ∀ s : State, ∃ t, exec .resetOp s = .next t ∧
    t.fs.spill = [] ∧ t.fs.acc = [] ∧ t.fs.frameOut = none ∧ t.fs.phase = .idle ∧ t.fs.fault = .none ∧
    t.pd.frm = none ∧ t.pd.cursor = 0 ∧ t.pd.dumped = 0 ∧ t.pd.perr = false ∧ t.pd.perrCnt = 0 ∧
    t.pd.phase = .idle ∧ t.pd.fault = .none ∧ t.pipe.q = [] ∧ t.pipe.fcount = 0 ∧ t.src.stream = [] ∧
    t.pix = s.pix ∧ t.src.avails = s.src.avails ∧ t.src.reads = s.src.reads ∧ t.params = s.params ∧
    t.fs.stuck = false ∧ WorkerLive t ∧ ConsumerLive t

/-! ### Unit FS -/

/-- FS.START (R127): ACC seeded from SPILL, which is empty on the first CATCH after reset; nothing else changes. -/
def Obligations.FsStartSeedsAcc : Prop :=
  (∀ s : State, WorkerLive s → s.fs.phase = .idle →
    exec .fsStart s = .next (s.setFs { s.fs with acc := s.fs.spill, phase := .poll })) ∧
  ∃ t, exec .fsStart State.reset = .next t ∧ t.fs.acc = [] ∧ t.fs.phase = .poll

/-- FS.POLL (R128), and SRC.AVAIL, which is the transaction inside it (log entry 6): one `available()`, the source and
the draws after it as SourceAnswersInOrder says. A source that never answers leaves FS stuck (R137, R209; log entry
34). -/
def Obligations.FsPollByAnswer : Prop :=
  ∀ (s : State) (i : Instr), (i = .fsPoll ∨ i = .srcAvail) → WorkerLive s → s.fs.phase = .poll →
    ∃ t, exec i s = .next t ∧ FsOnly s t ∧ t.src = (afterAvail s).src ∧ t.env = (afterAvail s).env ∧
      (availAnswer s = .linkError → t.fs = { s.fs with fault := .linkError, phase := .fault }) ∧
      (availAnswer s = .silent → t.fs = { s.fs with stuck := true }) ∧
      (∀ n, availAnswer s = .count n →
        t.fs = { s.fs with avail := n, phase := if n = 0 then .poll else .read })

/-- FS.READ (R129), and SRC.READ of 512 bytes, which is the transaction inside it (log entry 6): one `read(512)`, the
source and the draws after it as SourceAnswersInOrder says. What FS_CHUNK and the stream hold at an overflow: log entry
25. A source that never answers leaves FS stuck (R137, R209; log entry 34). -/
def Obligations.FsReadByAnswer : Prop :=
  ∀ (s : State) (i : Instr), (i = .fsRead ∨ i = .srcRead 512) → WorkerLive s → s.fs.phase = .read →
    ∃ t, exec i s = .next t ∧ FsOnly s t ∧ t.src = (afterRead 512 s).src ∧ t.env = (afterRead 512 s).env ∧
      (readAnswer 512 s = .linkError →
        t.fs = { s.fs with fault := .linkError, phase := .fault } ∧ t.src.stream = s.src.stream) ∧
      (readAnswer 512 s = .silent → t.fs = { s.fs with stuck := true } ∧ t.src.stream = s.src.stream) ∧
      (∀ c, readAnswer 512 s = .chunk c →
        c.length ≤ 512 ∧ t.src.stream = s.src.stream ++ c ∧
        (s.params.accCap = none → t.fs = { s.fs with chunk := c, acc := s.fs.acc ++ c, phase := .scan }) ∧
        (∀ cap, s.params.accCap = some cap →
          t.fs = if cap < s.fs.acc.length + c.length then
              { s.fs with chunk := c, fault := .bufferOverflow, phase := .fault }
            else { s.fs with chunk := c, acc := s.fs.acc ++ c, phase := .scan }))

/-- The source's answers on hand are given in order, each once, a reply longer than the bytes asked for in pieces; with
none on hand a free answer is drawn, of at most the bytes asked for (R66, R121, R123; the answers on hand are the
model's own: log entries 3, 33, 34). -/
def Obligations.SourceAnswersInOrder : Prop :=
  (∀ (s : State) (r : AvailReply) (rs : List AvailReply), s.src.avails = r :: rs →
    availAnswer s = r ∧ afterAvail s = s.setSrc { s.src with avails := rs }) ∧
  (∀ s : State, s.src.avails = [] →
    availAnswer s = Config.freeAvail s.env.draws ∧ afterAvail s = s.setEnv { s.env with draws := s.env.draws + 1 }) ∧
  (∀ (s : State) (m : Nat) (bs : Bytes) (rs : List ReadReply), s.src.reads = .chunk bs :: rs →
    readAnswer m s = .chunk (bs.take m) ∧
    afterRead m s = s.setSrc { s.src with
      reads := if bs.length ≤ m then rs else .chunk (bs.drop m) :: rs
      stream := s.src.stream ++ bs.take m }) ∧
  (∀ (s : State) (m : Nat) (r : ReadReply) (rs : List ReadReply), (r = .linkError ∨ r = .silent) →
    s.src.reads = r :: rs → readAnswer m s = r ∧ afterRead m s = s.setSrc { s.src with reads := rs }) ∧
  (∀ (s : State) (m : Nat), s.src.reads = [] →
    (∀ bs, Config.freeRead s.env.draws = .chunk bs → readAnswer m s = .chunk (bs.take m) ∧
      afterRead m s = s.draw.setSrc { s.src with stream := s.src.stream ++ bs.take m }) ∧
    ((∀ bs, Config.freeRead s.env.draws ≠ .chunk bs) →
      readAnswer m s = Config.freeRead s.env.draws ∧ afterRead m s = s.draw))

/-- FS.SCAN (R130): the first match of 03 03 03 03 in the whole of ACC, into FS_MATCH; POLL without one, EMIT with
one; nothing else changes. -/
def Obligations.FsScanFindsFirst : Prop :=
  ∀ s : State, WorkerLive s → s.fs.phase = .scan →
    exec .fsScan s = .next (s.setFs { s.fs with
      found := findFirst s.fs.acc [0x03#8, 0x03#8, 0x03#8, 0x03#8]
      phase := if findFirst s.fs.acc [0x03#8, 0x03#8, 0x03#8, 0x03#8] = none then .poll else .emit }) ∧
    (s.fs.acc.length < 4 → findFirst s.fs.acc [0x03#8, 0x03#8, 0x03#8, 0x03#8] = none)

/-- MARKER, the pattern FS.SCAN finds (R92): with a match in ACC it is FS.SCAN's step, without one it has no step
(the row's effect is the model's: log entry 11). -/
def Obligations.MarkerIsFirstMatch : Prop :=
  ∀ s : State, WorkerLive s → s.fs.phase = .scan →
    (∀ k, findFirst s.fs.acc [0x03#8, 0x03#8, 0x03#8, 0x03#8] = some k →
      exec .marker s = .next (s.setFs { s.fs with found := some k, phase := .emit })) ∧
    (findFirst s.fs.acc [0x03#8, 0x03#8, 0x03#8, 0x03#8] = none →
      exec .marker s = .refused (.noStep .noMarker))

/-- FS.EMIT (R131): the frame before the match, the spillover after the marker; in a sound state ACC is the frame,
the marker and the spillover. -/
def Obligations.FsEmitSplits : Prop :=
  ∀ (s : State) (i : Nat), WorkerLive s → s.fs.phase = .emit → s.fs.frameOut = none → s.fs.found = some i →
    exec .fsEmit s = .next (s.setFs { s.fs with
      frameOut := some (s.fs.acc.take i), spill := s.fs.acc.drop (i + 4), phase := .idle }) ∧
    (FsSound s →
      s.fs.acc = s.fs.acc.take i ++ ([0x03#8, 0x03#8, 0x03#8, 0x03#8] ++ s.fs.acc.drop (i + 4)) ∧
      (s.fs.acc.take i).length = i ∧ (s.fs.acc.drop (i + 4)).length = s.fs.acc.length - i - 4 ∧
      FrameClean (s.fs.acc.take i))

/-- CATCH on any answers on hand: it goes as far as they reach and rests, and where it rests says what it has done:
it has ended, with the frame before the first marker handed over, FRAME_OUT having been taken; or faulted, by LinkError
or past a finite ACC_CAP; or it is stuck, or waits for an answer or for FRAME_OUT, ACC being SPILL and what was read
(R125, R126, R131, R137, R209; the granularity is the model's: log entry 5). With no answer to `available()` on hand
it is FS.START alone. That SPILL keeps its bytes while CATCH is on its way, and that SPILL and ACC keep theirs after a
fault, is the model's, not the spec's, which calls these values undefined (R21, D22, U20): log entry 31, read from
R206. -/
def Obligations.CatchEndsOrWaits : Prop :=
  ∀ s : State, WorkerLive s → s.fs.phase = .idle →
    ∃ t more, exec .catchOp s = .next t ∧ CatchRests t ∧ FsOnly s t ∧
      t.src.stream = s.src.stream ++ more ∧ CatchStands s more t ∧
      (t.fs.stuck = true → t.fs.phase = .poll ∨ t.fs.phase = .read) ∧
      (s.src.avails = [] → t = s.setFs { s.fs with acc := s.fs.spill, phase := .poll })

/-- CATCH whole (R125, R104): passes of any number of answers 0, one answer not 0 and one chunk, the last pass the
first after whose read a marker is in ACC; the frame and the spillover are cut there, the answers used are used up.
Stated for FRAME_OUT taken (R126), for every ACC_CAP that is not passed (log entry 14), on answers on hand (log entries
3, 5). What ACC and the scratch registers hold once CATCH has ended is the model's: log entry 31. -/
def Obligations.CatchOnPasses : Prop :=
  ∀ (s : State) (ps : List Pass) (p : Pass) (i : Nat) (ra : List AvailReply) (rr : List ReadReply),
    WorkerLive s → s.fs.phase = .idle → s.fs.frameOut = none →
    Fits s (s.fs.spill ++ passBytes (ps ++ [p])).length →
    s.src.avails = passAvails (ps ++ [p]) ++ ra → s.src.reads = passReads (ps ++ [p]) ++ rr →
    (∀ q ∈ ps ++ [p], q.bytes.length ≤ 512) →
    (∀ k, 0 < k → k ≤ ps.length →
      findFirst (s.fs.spill ++ passBytes (ps.take k)) [0x03#8, 0x03#8, 0x03#8, 0x03#8] = none) →
    findFirst (s.fs.spill ++ passBytes (ps ++ [p])) [0x03#8, 0x03#8, 0x03#8, 0x03#8] = some i →
    exec .catchOp s = .next
      ((s.setSrc { avails := ra, reads := rr, stream := s.src.stream ++ passBytes (ps ++ [p]) }).setFs
        { s.fs with
          avail := p.count + 1
          chunk := p.bytes
          acc := s.fs.spill ++ passBytes (ps ++ [p])
          found := some i
          frameOut := some ((s.fs.spill ++ passBytes (ps ++ [p])).take i)
          spill := (s.fs.spill ++ passBytes (ps ++ [p])).drop (i + 4)
          phase := .idle })

/-- CATCH that does not end (R125, R129, R137, R201, R205, R209): after passes none of whose reads completes a marker,
and any number of answers 0 more, `available()` or `read` fails, or the chunk would pass a finite ACC_CAP, or the
source never answers. The fault is recorded (R206) or FS is stuck, and FRAME_OUT is as it was. That ACC then holds SPILL
and every byte of the passes, and SPILL what it held, is the model's, not the spec's, which calls these values undefined
and the bytes lost to the system (R21, R206, R249, D22, U20): log entry 31. (Answers on hand: log entries 3, 5; stuck:
log entry 34; the chunk at an overflow: log entry 25.) -/
def Obligations.CatchFaultsOrSticks : Prop :=
  ∀ (s : State) (ps : List Pass) (z k : Nat) (c : Bytes) (la ra : List AvailReply) (lr rr : List ReadReply),
    WorkerLive s → s.fs.phase = .idle → Fits s (s.fs.spill ++ passBytes ps).length →
    s.src.avails = passAvails ps ++ (List.replicate z (.count 0) ++ la) → s.src.reads = passReads ps ++ lr →
    (∀ q ∈ ps, q.bytes.length ≤ 512) →
    (∀ n, 0 < n → n ≤ ps.length →
      findFirst (s.fs.spill ++ passBytes (ps.take n)) [0x03#8, 0x03#8, 0x03#8, 0x03#8] = none) →
    let stops (more : Bytes) (reads : List ReadReply) (fault : FaultCode) (phase : FsPhase) (stuck : Bool) : Prop :=
      ∃ t a b m, exec .catchOp s = .next t ∧
        t = (s.setSrc { avails := ra, reads := reads, stream := s.src.stream ++ (passBytes ps ++ more) }).setFs
          { s.fs with avail := a, chunk := b, found := m, acc := s.fs.spill ++ passBytes ps, fault := fault,
                      phase := phase, stuck := stuck }
    (la = .linkError :: ra → stops [] lr .linkError .fault false) ∧
    (la = .silent :: ra → stops [] lr s.fs.fault .poll true) ∧
    (la = .count (k + 1) :: ra → lr = .linkError :: rr → stops [] rr .linkError .fault false) ∧
    (la = .count (k + 1) :: ra → lr = .silent :: rr → stops [] rr s.fs.fault .read true) ∧
    (la = .count (k + 1) :: ra → lr = .chunk c :: rr → c.length ≤ 512 →
      ¬ Fits s (s.fs.spill ++ passBytes ps ++ c).length → stops c rr .bufferOverflow .fault false)

/-- The frame does not depend on the chunking (R134 (2), R135, R133 (c), (d)): whatever passes deliver a clean
payload, its marker and `rest` behind the carried spillover, the last pass being the one that completes the marker
(or the first of all), CATCH gives the payload and the spillover `rest` (every ACC_CAP that is not passed: log entry
14; answers on hand: log entries 3, 5). -/
def Obligations.CatchIgnoresChunking : Prop :=
  ∀ (s : State) (ps : List Pass) (p : Pass) (payload rest : Bytes) (ra : List AvailReply) (rr : List ReadReply),
    WorkerLive s → s.fs.phase = .idle → s.fs.frameOut = none →
    Fits s (s.fs.spill ++ passBytes (ps ++ [p])).length →
    s.src.avails = passAvails (ps ++ [p]) ++ ra → s.src.reads = passReads (ps ++ [p]) ++ rr →
    (∀ q ∈ ps ++ [p], q.bytes.length ≤ 512) →
    FrameClean payload →
    s.fs.spill ++ passBytes (ps ++ [p]) = payload ++ ([0x03#8, 0x03#8, 0x03#8, 0x03#8] ++ rest) →
    (ps = [] ∨ (s.fs.spill ++ passBytes ps).length < payload.length + 4) →
    ∃ t, exec .catchOp s = .next t ∧ t.fs.phase = .idle ∧ t.fs.fault = s.fs.fault ∧
      t.fs.frameOut = some payload ∧ t.fs.spill = rest ∧ t.src.avails = ra ∧ t.src.reads = rr

/-- A stream has one cutting into clean frames (R135): of two, the shorter is the beginning of the longer. -/
def Obligations.StreamDeterminesFrames : Prop :=
  ∀ (fs gs : List Bytes) (r r' : Bytes),
    (∀ f ∈ fs, FrameClean f) → (∀ g ∈ gs, FrameClean g) → fs.length ≤ gs.length →
    joinFrames fs ++ r = joinFrames gs ++ r' → fs <+: gs

/-- Every instruction of the worker accounts for the stream and the frames (R41, R61, R73 (c), (d), R186): if the
frames emitted so far and what FS holds are the stream, they are so after it, and the frames it emits are in flight
behind the ones that were: nothing lost, repeated or reordered. -/
def Obligations.FramesAccountForStream : Prop :=
  ∀ (i : Instr) (s t : State) (frames : List Bytes), agentOf i = .worker → i.wf = true →
    FsSound s → AccountsFor frames s → exec i s = .next t →
    ∃ new, AccountsFor (frames ++ new) t ∧ inFlight t = inFlight s ++ new

/-! ### Unit PD -/

/-- PD.START (R151), on the frame in the consumer's hand (log entry 21); in any other phase, and without a frame,
it has no step. -/
def Obligations.PdStartTakesFrame : Prop :=
  (∀ (s : State) (f : Bytes), ConsumerLive s → s.pd.phase = .idle → s.pipe.taken = some f →
    exec .pdStart s =
      .next ((s.setPipe { s.pipe with taken := none }).setPd { s.pd with frm := some f, phase := .check })) ∧
  (∀ s : State, s.pd.phase ≠ .idle →
    (∃ w, exec .pdStart s = .refused (.noStep w)) ∧ ∃ w, exec .decodeOp s = .refused (.noStep w)) ∧
  (∀ s : State, ConsumerLive s → s.pd.phase = .idle → s.pipe.taken = none →
    exec .pdStart s = .refused (.noStep .noFrame) ∧ exec .decodeOp s = .refused (.noStep .noFrame))

/-- PD.CHECK (R152): the length alone decides; a malformed frame changes nothing but the fault, the phase and
FRM. -/
def Obligations.PdCheckByLength : Prop :=
  ∀ (s : State) (f : Bytes), ConsumerLive s → s.pd.phase = .check → s.pd.frm = some f →
    exec .pdCheck s = .next (s.setPd
      (if f.length % 4 ≠ 0 ∨ f.length / 4 < 14336 then
        { s.pd with fault := .malformedFrame, phase := .fault, frm := none }
       else { s.pd with cursor := 0, dumped := 0, perrCnt := 0, perr := false, phase := .run })) ∧
    (¬ (f.length % 4 ≠ 0 ∨ f.length / 4 < 14336) ↔ 57344 ≤ f.length ∧ f.length % 4 = 0)

/-- PD.SAMPLE (R156): one byte of PIX, the one DUMPED selects, becomes 85 times the slot CURSOR selects. -/
def Obligations.PdSampleWritesByte : Prop :=
  ∀ (s : State) (f : Bytes) (w : Word), ConsumerLive s → s.pd.phase = .run → s.pd.frm = some f →
    s.pd.cursor % 32 / 2 < 15 → frameWord s.params.byteOrder f (s.pd.cursor / 32) = some w →
    s.pd.dumped < 215040 →
    ∃ t, exec .pdSample s = .next t ∧
      t.pd = { s.pd with dumped := s.pd.dumped + 1, cursor := s.pd.cursor + 2 } ∧ t.pipe = s.pipe ∧ PdOnly s t ∧
      ∀ a, t.pix.read a =
        if a = (s.pd.dumped / 3 / 320 * 320 + (s.pd.dumped / 3 - s.pd.dumped / 3 / 320 * 320)) * 4 + s.pd.dumped % 3
        then some (BitVec.ofNat 8 (w.toNat / 2 ^ (30 - s.pd.cursor % 32) % 4 * 85))
        else s.pix.read a

/-- PD.PARITY (R157), with PD.DONE inside the last one (R158). -/
def Obligations.PdParityCounts : Prop :=
  ∀ (s : State) (f : Bytes) (w : Word), ConsumerLive s → s.pd.phase = .run → s.pd.frm = some f →
    s.pd.cursor % 32 / 2 = 15 → frameWord s.params.byteOrder f (s.pd.cursor / 32) = some w →
    exec .pdParity s = .next (s.setPd { s.pd with
      perrCnt := if w.toNat % 4 = 0 then s.pd.perrCnt else s.pd.perrCnt + 1
      perr := if w.toNat % 4 = 0 then s.pd.perr else true
      cursor := s.pd.cursor + 2
      frm := if s.pd.dumped = 215040 then none else s.pd.frm
      phase := if s.pd.dumped = 215040 then .idle else .run })

/-- The slots by their value (the rows' effect is the model's: log entry 11). LVL0 to LVL3 (R97): a sample slot holding
the value writes 00, 55, AA, FF where DUMPED points, and is what PD.SAMPLE does when CURSOR stands at such a slot.
PAR.OK and PAR.NZ1 to PAR.NZ3 (R157, R204): a parity slot holding the value; only "not zero" counts. -/
def Obligations.SlotValues : Prop :=
  (∀ (s : State) (i : Instr) (v : Slot) (b : Byte),
    (i, v, b) ∈ [(Instr.lvl0, 0#2, 0x00#8), (.lvl1, 1#2, 0x55#8), (.lvl2, 2#2, 0xAA#8), (.lvl3, 3#2, 0xFF#8)] →
    ConsumerLive s → s.pd.phase = .run → s.pd.cursor % 32 / 2 < 15 → s.pd.dumped < 215040 →
    (∃ t, exec i s = .next t ∧
      t.pd = { s.pd with dumped := s.pd.dumped + 1, cursor := s.pd.cursor + 2 } ∧ t.pipe = s.pipe ∧ PdOnly s t ∧
      ∀ a, t.pix.read a = if a = 4 * (s.pd.dumped / 3) + s.pd.dumped % 3 then some b else s.pix.read a) ∧
    (∀ w, currentWord s = some w → slot w (s.pd.cursor % 32 / 2) = v → s.pd.cursor % 2 = 0 →
      exec i s = exec .pdSample s)) ∧
  (∀ (s : State) (i : Instr), i ∈ [Instr.parOk, .parNz1, .parNz2, .parNz3] →
    ConsumerLive s → s.pd.phase = .run → s.pd.cursor % 32 / 2 = 15 →
    exec i s = .next (s.setPd { s.pd with
      perrCnt := if i = .parOk then s.pd.perrCnt else s.pd.perrCnt + 1
      perr := if i = .parOk then s.pd.perr else true
      cursor := s.pd.cursor + 2
      frm := if s.pd.dumped = 215040 then none else s.pd.frm
      phase := if s.pd.dumped = 215040 then .idle else .run }))

/-- PD.DONE (R158) as a step of its own, where its condition holds and the unit is still in RUN (log entry 30). -/
def Obligations.PdDoneDiscardsFrame : Prop :=
  ∀ s : State, ConsumerLive s → s.pd.phase = .run → s.pd.dumped = 215040 → s.pd.cursor = 458752 →
    exec .pdDone s = .next (s.setPd { s.pd with frm := none, phase := .idle })

/-- PD.WORD and PWORD (R159): the fifteen lanes of word number `n`, every other byte as before; then the parity
slot. -/
def Obligations.PdWordLanes : Prop :=
  ∀ (s : State) (i : Instr) (n : Nat) (x : Word),
    (i = .pdWord ∧ currentWord s = some x ∨ i = .pword x) →
    ConsumerLive s → s.pd.phase = .run → n ≤ 14335 → s.pd.cursor = 32 * n → s.pd.dumped = 15 * n →
    ∃ t, exec i s = .next t ∧
      (∀ q c, q < 5 → c < 3 → t.pix.read (20 * n + 4 * q + c) = some (scale (slot x (3 * q + c)))) ∧
      (∀ a, (∀ q c, q < 5 → c < 3 → a ≠ 20 * n + 4 * q + c) → t.pix.read a = s.pix.read a) ∧
      t.pd = { s.pd with
        cursor := 32 * (n + 1)
        dumped := 15 * (n + 1)
        perrCnt := if paritySlot x = 0#2 then s.pd.perrCnt else s.pd.perrCnt + 1
        perr := if paritySlot x = 0#2 then s.pd.perr else true
        frm := if n = 14335 then none else s.pd.frm
        phase := if n = 14335 then .idle else .run } ∧
      t.pipe = s.pipe ∧ PdOnly s t

/-- DECODE of an admitted frame (R150, R162): every colour byte of the picture, no other byte of PIX, the counters
at their ends, the parity diagnostic, the frame (in the consumer's hand: log entry 21) discarded. -/
def Obligations.DecodeGivesPicture : Prop :=
  ∀ (s : State) (f : Bytes), ConsumerLive s → s.pd.phase = .idle → s.pipe.taken = some f →
    f.length % 4 = 0 → 14336 ≤ f.length / 4 →
    ∃ t, exec .decodeOp s = .next t ∧
      (∀ n c, n < 71680 → c < 3 → ∃ w, frameWord s.params.byteOrder f ((3 * n + c) / 15) = some w ∧
        t.pix.read (4 * n + c) = some (scale (slot w ((3 * n + c) % 15)))) ∧
      (∀ a, (a % 4 = 3 ∨ 286720 ≤ a) → t.pix.read a = s.pix.read a) ∧
      t.pd.phase = .idle ∧ t.pd.frm = none ∧ t.pd.cursor = 458752 ∧ t.pd.dumped = 215040 ∧
      t.pd.fault = s.pd.fault ∧ t.pd.perrCnt = parityWords s.params.byteOrder f 14336 ∧
      (t.pd.perr = true ↔ t.pd.perrCnt ≠ 0) ∧ t.pipe.taken = none ∧ PdOnly s t

/-- DECODE of a malformed frame (R203, R206, R152): the fault, and nothing else but the frame (in the consumer's
hand: log entry 21). -/
def Obligations.DecodeMalformed : Prop :=
  ∀ (s : State) (f : Bytes), ConsumerLive s → s.pd.phase = .idle → s.pipe.taken = some f →
    (f.length % 4 ≠ 0 ∨ f.length / 4 < 14336) →
    exec .decodeOp s = .next ((s.setPipe { s.pipe with taken := none }).setPd
      { s.pd with fault := .malformedFrame, phase := .fault, frm := none })

/-- R162 (4): a frame of 14336 words with every sample equal and every parity slot 0 gives a picture of one
level; the fourth bytes keep their values and the diagnostic is 0 (frame in hand: log entry 21). -/
def Obligations.DecodeUniformFrame : Prop :=
  ∀ (s : State) (f : Bytes) (x : Word) (b : Byte),
    (x, b) ∈ [(0x00000000#32, 0x00#8), (0x55555554#32, 0x55#8), (0xAAAAAAA8#32, 0xAA#8), (0xFFFFFFFC#32, 0xFF#8)] →
    ConsumerLive s → s.pd.phase = .idle → s.pipe.taken = some f → f.length = 57344 →
    (∀ k, k < 14336 → frameWord s.params.byteOrder f k = some x) →
    ∃ t, exec .decodeOp s = .next t ∧
      (∀ n c, n < 71680 → c < 3 → t.pix.read (4 * n + c) = some b) ∧
      (∀ n, n < 71680 → t.pix.read (4 * n + 3) = s.pix.read (4 * n + 3)) ∧
      t.pd.perrCnt = 0 ∧ t.pd.perr = false ∧ t.pd.phase = .idle ∧ t.pd.fault = s.pd.fault

/-- R204: words that differ in the parity slot alone, taken as PWORD (log entry 11), write the same picture and leave the same phase, fault and
counters. -/
def Obligations.ParityChangesNoPixel : Prop :=
  ∀ (s t u : State) (x y : Word), x >>> 2 = y >>> 2 →
    exec (.pword x) s = .next t → exec (.pword y) s = .next u →
    t.pix = u.pix ∧ t.pd.phase = u.pd.phase ∧ t.pd.fault = u.pd.fault ∧ t.pd.cursor = u.pd.cursor ∧
      t.pd.dumped = u.pd.dumped ∧ t.pd.frm = u.pd.frm

/-- The host's writing of PIX at boot (R14 (4), R60 "the owner at boot", R236, R237), whenever no DECODE is in progress,
whether or not a unit has faulted or is stopped. One byte, the write width of R12: the step on it writes the byte at the
offset the host names, and every other byte of PIX and everything else but the script is as before. PIXEL (R96): the
four bytes of the pixel the host names, lowest offset first, every other byte of PIX and everything else as before; and
the machine's step writes that pixel for the head of the script (the host's list, and no write during a DECODE: log
entries 1, 10; a stop of R207 that falls before the write: log entry 15). -/
def Obligations.HostWritesPix : Prop :=
  (∀ (s u : State) (off : Fin Config.PIX_BYTES) (v : Byte) (rest : List Act), GoesOn s u →
    s.env.script = .byte off v :: rest → s.pd.phase ≠ .check → s.pd.phase ≠ .run →
    ∃ m, step s = .next ((u.setEnv { u.env with script := rest }).setPix m) ∧
      m.read off = some v ∧ ∀ k, k ≠ off.val → m.read k = s.pix.read k) ∧
  (∀ (s : State) (r g b a : Byte), s.pd.phase ≠ .check → s.pd.phase ≠ .run →
    let n := s.env.pixelAt.val
    ∃ m, exec (.pixel r g b a) s = .next (s.setPix m) ∧
      m.read (4 * n) = some r ∧ m.read (4 * n + 1) = some g ∧
      m.read (4 * n + 2) = some b ∧ m.read (4 * n + 3) = some a ∧
      (∀ k, k / 4 ≠ n → m.read k = s.pix.read k)) ∧
  (∀ (s u : State) (n : Fin Config.PIXELS) (r g b a : Byte) (rest : List Act), GoesOn s u →
    s.env.script = .pixel n r g b a :: rest → s.pd.phase ≠ .check → s.pd.phase ≠ .run →
    ∃ t, exec (.pixel r g b a) (u.setEnv { u.env with script := rest, pixelAt := n }) = .next t ∧ step s = .next t)

/-! ### The pipeline -/

/-- CP.PUSH (R182): count, report every 30th, append at the tail, FRAME_OUT taken. -/
def Obligations.CpPushQueues : Prop :=
  ∀ (s : State) (f : Bytes), WorkerLive s → s.fs.frameOut = some f →
    ∃ t, exec .cpPush s = .next t ∧ t.pipe.fcount = s.pipe.fcount + 1 ∧ t.pipe.q = s.pipe.q ++ [f] ∧
      t.fs = { s.fs with frameOut := none } ∧ t.src = s.src ∧ t.pipe.t0 = s.pipe.t0 ∧
      t.pipe.running = s.pipe.running ∧ WorkerOnly s t ∧
      ((s.pipe.fcount + 1) % 30 ≠ 0 → t.pipe.report = s.pipe.report ∧ t.env = s.env) ∧
      ((s.pipe.fcount + 1) % 30 = 0 →
        (nowAnswer s ≠ s.pipe.t0 →
          t.pipe.report = some (.rate (s.pipe.fcount + 1) ((nowAnswer s : Int) - (s.pipe.t0 : Int)))) ∧
        (nowAnswer s = s.pipe.t0 → ∃ c, t.pipe.report = some (.unstated (s.pipe.fcount + 1) c)))

/-- CP.REPORT (R184), where its condition holds: FCOUNT has come to a multiple of 30 and the report made there has not
gone out. Total frames over the time since the worker's start goes out; nothing in the block changes. That the report is
kept as an output record is the model's (log entry 20), and so is a step of its own for it (log entry 35). -/
def Obligations.CpReportRate : Prop :=
  ∀ s : State, WorkerLive s → s.pipe.fcount ≠ 0 → s.pipe.fcount % 30 = 0 →
    s.pipe.report.map Report.frames ≠ some s.pipe.fcount →
    ∃ t, exec .cpReport s = .next t ∧
      (nowAnswer s ≠ s.pipe.t0 →
        t.pipe.report = some (.rate s.pipe.fcount ((nowAnswer s : Int) - (s.pipe.t0 : Int)))) ∧
      (nowAnswer s = s.pipe.t0 → ∃ c, t.pipe.report = some (.unstated s.pipe.fcount c)) ∧
      t.pipe = { s.pipe with report := t.pipe.report } ∧ t.fs = s.fs ∧ t.src = s.src ∧ WorkerOnly s t

/-- CP.POLL (R183): the head of Q into the consumer's hand, or none; never waits. CP.TICK (R185): a poll; without a
frame nothing more; with one, DECODE of it. Presentation is outside (R5, log entry 24); the hand is the model's (log entry
21). -/
def Obligations.CpPollAndTick : Prop :=
  (∀ s : State, ConsumerLive s → s.pipe.q = [] →
    exec .cpPoll s = .next (s.setPipe { s.pipe with taken := none })) ∧
  (∀ (s : State) (f : Bytes) (fs : List Bytes), ConsumerLive s → s.pipe.q = f :: fs →
    exec .cpPoll s = .next (s.setPipe { s.pipe with taken := some f, q := fs })) ∧
  (∀ s : State, ConsumerLive s → s.pd.phase = .idle → s.pipe.q = [] →
    exec .cpTick s = .next (s.setPipe { s.pipe with taken := none })) ∧
  (∀ (s : State) (f : Bytes) (fs : List Bytes), ConsumerLive s → s.pd.phase = .idle → s.pipe.q = f :: fs →
    exec .cpTick s = exec .decodeOp (s.setPipe { s.pipe with taken := some f, q := fs }) ∧
    ∃ t, exec .cpTick s = .next t)

/-- RUN (R181). First T0 is stamped, FCOUNT is 0 and the loop has begun; its steps follow one by one, and another
agent's may come between (R14; log entry 5). Where the worker is alone (nothing scripted, PD idle) the loop with
FRAME_OUT taken makes a whole CATCH: wherever that CATCH ends, faults, sticks or waits (CatchEndsOrWaits, CatchOnPasses,
CatchFaultsOrSticks say where), the machine's steps come there; and where it has ended with a frame, the next step is
CP.PUSH of it: Q has gained exactly that frame, at its tail, FCOUNT one, FRAME_OUT is none, and the loop stands where
it stood. The last clause, that a frame left in FRAME_OUT is pushed before the next CATCH, is the model's (log entry
27). -/
def Obligations.RunLoops : Prop :=
  (∀ s : State, WorkerLive s → s.fs.phase = .idle → s.pipe.running = false →
    exec .runOp s = .next
      ((s.setEnv { s.env with clock := s.env.clock.tail, draws := s.env.draws + 1 }).setPipe
        { s.pipe with t0 := nowAnswer s, fcount := 0, running := true })) ∧
  (∀ s : State, WorkerLive s → s.fs.phase = .idle → s.pipe.running = true → s.fs.frameOut = none →
    s.env.script = [] → s.pd.phase = .idle →
    ∃ t n, exec .catchOp s = .next t ∧ steps n s = .next t ∧ t.pipe = s.pipe ∧
      (t.fs.phase = .idle → ∃ f u, t.fs.frameOut = some f ∧ steps (n + 1) s = .next u ∧ step t = .next u ∧
        u.pipe.q = s.pipe.q ++ [f] ∧ u.pipe.fcount = s.pipe.fcount + 1 ∧ u.pipe.t0 = s.pipe.t0 ∧
        u.fs = { t.fs with frameOut := none } ∧ u.src = t.src ∧ u.pix = s.pix ∧
        WorkerLive u ∧ u.pipe.running = true ∧ u.env.script = [] ∧ u.pd = s.pd)) ∧
  (∀ (s : State) (f : Bytes), WorkerLive s → s.fs.phase = .idle → s.pipe.running = true → s.fs.frameOut = some f →
    s.env.script = [] → s.pd.phase = .idle → step s = exec .cpPush s)

/-- R73 (c), R183, R186: a step other than RESET only appends to Q or takes its head. -/
def Obligations.QueueIsFifo : Prop :=
  ∀ s t : State, step s = .next t → (∀ rest, s.env.script ≠ .label 0xFF#8 :: rest) →
    (∃ new, t.pipe.q = s.pipe.q ++ new) ∨ ∃ f, s.pipe.q = f :: t.pipe.q

/-! ### Ownership, faults and refusals -/

/-- R14, R20, R60, R212: no instruction of the worker touches what the consumer owns, and none of the consumer what
the worker owns; of Q the consumer takes at most the head. -/
def Obligations.AgentsKeepApart : Prop :=
  (∀ (i : Instr) (s t : State), agentOf i = .worker → exec i s = .next t →
    t.pd = s.pd ∧ t.pix = s.pix ∧ t.pipe.taken = s.pipe.taken ∧ t.params = s.params) ∧
  (∀ (i : Instr) (s t : State), agentOf i = .consumer → exec i s = .next t →
    t.fs = s.fs ∧ t.src = s.src ∧ t.pipe.fcount = s.pipe.fcount ∧ t.pipe.t0 = s.pipe.t0 ∧ t.params = s.params ∧
      (t.pipe.q = s.pipe.q ∨ ∃ f, s.pipe.q = f :: t.pipe.q))

/-- R63, R237: no step of the machine but the host's own write of a pixel, or of a fourth byte itself, writes a fourth
byte (the host's list: log entries 1, 10). -/
def Obligations.AlphaNeverWritten : Prop :=
  ∀ s t : State, (∀ n r g b a rest, s.env.script ≠ .pixel n r g b a :: rest) →
    (∀ off v rest, s.env.script = .byte off v :: rest → off.val % 4 ≠ 3) → step s = .next t → AlphaKept s t

/-- R209, R206, R34: a faulted unit stays as it is under every step but RESET; FS takes nothing more from the
source, and PD writes nothing more to PIX (the host still may: log entry 10). A stuck FS stays as it is as well (R137;
log entry 34). That all of FS stays, FRAME_OUT included, rests on the reading that the worker's pipeline steps stop
with it (log entry 22); that SPILL, ACC and the scratch registers are among what stays, on log entry 31. -/
def Obligations.FaultIsSticky : Prop :=
  ∀ s t : State, step s = .next t → (∀ rest, s.env.script ≠ .label 0xFF#8 :: rest) →
    (s.fs.phase = .fault ∨ s.fs.stuck = true → t.fs = s.fs ∧ t.src = s.src) ∧
    (s.pd.phase = .fault → t.pd = s.pd ∧ (¬ HostWrites s → t.pix = s.pix))

/-- R206, R209: in phase FAULT no operation or step of the unit's agent has a step (that the pipeline's steps stop
with the unit: log entry 22), and a worker stuck inside a transaction has none (R137; log entry 34). -/
def Obligations.FaultedUnitRefuses : Prop :=
  ∀ (i : Instr) (s : State),
    (agentOf i = .worker → s.fs.phase = .fault → exec i s = .refused (.noStep .faulted)) ∧
    (agentOf i = .worker → s.fs.phase ≠ .fault → s.fs.stuck = true → exec i s = .refused (.noStep .unanswered)) ∧
    (agentOf i = .consumer → s.pd.phase = .fault → exec i s = .refused (.noStep .faulted))

/-- R207: what a fault in one unit does to the other under each HALT_POLICY. Under `any`, at every step boundary at which
the other unit could go on, idle or not and whatever the script holds, a free value decides whether it stops for good;
else the machine moves (`move`: StepRunsLabel, StepRunsSelected say what it does), and nothing but RESET ends a stop. The
stop is recorded in a flag of the model's (log entries 15, 33); apart from that only a stuck FS has no step (log entry
34). -/
def Obligations.HaltPolicyDecides : Prop :=
  (∀ (i : Instr) (s : State), s.params.haltPolicy = .haltAll →
    (agentOf i = .consumer → s.fs.phase = .fault → ∃ w, exec i s = .refused (.noStep w)) ∧
    (agentOf i = .worker → s.pd.phase = .fault → ∃ w, exec i s = .refused (.noStep w))) ∧
  (∀ s : State, s.params.haltPolicy = .independent →
    (WorkerLive s ↔ s.fs.phase ≠ .fault ∧ s.fs.stuck = false) ∧ (ConsumerLive s ↔ s.pd.phase ≠ .fault)) ∧
  (∀ s : State, s.params.haltPolicy = .any → s.fs.phase = .fault →
    (ConsumerLive s ↔ s.pd.phase ≠ .fault ∧ s.pd.stopped = false)) ∧
  (∀ s : State, s.params.haltPolicy = .any → s.pd.phase = .fault →
    (WorkerLive s ↔ s.fs.phase ≠ .fault ∧ s.fs.stuck = false ∧ s.fs.stopped = false)) ∧
  (∀ s : State, s.pd.phase ≠ .fault → (WorkerLive s ↔ s.fs.phase ≠ .fault ∧ s.fs.stuck = false)) ∧
  (∀ s : State, s.fs.phase ≠ .fault → (ConsumerLive s ↔ s.pd.phase ≠ .fault)) ∧
  (∀ s : State, s.params.haltPolicy = .any → s.pd.phase = .fault → WorkerLive s →
    step s =
      if Config.freeStop s.env.draws then
        .next ((s.setEnv { s.env with draws := s.env.draws + 1 }).setFs { s.fs with stopped := true })
      else move (s.setEnv { s.env with draws := s.env.draws + 1 })) ∧
  (∀ s : State, s.params.haltPolicy = .any → s.fs.phase = .fault → ConsumerLive s →
    step s =
      if Config.freeStop s.env.draws then
        .next ((s.setEnv { s.env with draws := s.env.draws + 1 }).setPd { s.pd with stopped := true })
      else move (s.setEnv { s.env with draws := s.env.draws + 1 })) ∧
  (∀ s : State, ¬ MayStop s → step s = move s) ∧
  (∀ s t : State, step s = .next t → (∀ rest, s.env.script ≠ .label 0xFF#8 :: rest) →
    (s.fs.stopped = true → t.fs.stopped = true) ∧ (s.pd.stopped = true → t.pd.stopped = true))

/-- R207, R104: while a unit may stop, an operation of several steps gives way to its steps, so that the stop may fall
between any two of them: CATCH to the steps of its loop as far as the answers on hand reach, DECODE to PD.START, PD.CHECK
and its words, CP.TICK with a frame queued to CP.POLL and those, PD.WORD to its fifteen samples and its parity slot
(R150, R159, R185). Those steps one after another are the operation. That an operation is else one step is the model's
(R132, R163; log entries 5, 26), and so is this giving way (log entry 15); the frame in hand: log entry 21. -/
def Obligations.WholeOperationsUnfold : Prop :=
  (∀ (i : Instr) (s : State), unfolding i s ≠ none →
    MayStop s ∧ i ∈ [Instr.catchOp, .decodeOp, .cpTick, .pdWord]) ∧
  (∀ s : State, MayStop s → WorkerLive s → s.fs.phase = .idle →
    ∃ ls, unfolding .catchOp s = some (0x11#8 :: ls) ∧ (∀ b ∈ ls, b ∈ [0x12#8, 0x13#8, 0x14#8, 0x15#8]) ∧
      runLabels (0x11#8 :: ls) s = exec .catchOp s) ∧
  (∀ (s : State) (f : Bytes), MayStop s → ConsumerLive s → s.pd.phase = .idle → s.pipe.taken = some f →
    ∃ ls, ls = (if f.length % 4 = 0 ∧ 14336 ≤ f.length / 4 then List.replicate 14336 0x26#8 else []) ∧
      unfolding .decodeOp s = some (0x21#8 :: 0x22#8 :: ls) ∧
      runLabels (0x21#8 :: 0x22#8 :: ls) s = exec .decodeOp s) ∧
  (∀ (s : State) (f : Bytes) (fs : List Bytes), MayStop s → ConsumerLive s → s.pd.phase = .idle → s.pipe.q = f :: fs →
    ∃ ls, ls = (if f.length % 4 = 0 ∧ 14336 ≤ f.length / 4 then List.replicate 14336 0x26#8 else []) ∧
      unfolding .cpTick s = some (0x32#8 :: 0x21#8 :: 0x22#8 :: ls) ∧
      runLabels (0x32#8 :: 0x21#8 :: 0x22#8 :: ls) s = exec .cpTick s) ∧
  (∀ (s : State) (n : Nat) (w : Word), MayStop s → ConsumerLive s → s.pd.phase = .run → currentWord s = some w →
    n ≤ 14335 → s.pd.cursor = 32 * n → s.pd.dumped = 15 * n →
    unfolding .pdWord s = some (List.replicate 15 0x23#8 ++ [0x24#8]) ∧
      runLabels (List.replicate 15 0x23#8 ++ [0x24#8]) s = exec .pdWord s)

/-- R126: CATCH begins only in phase IDLE, and FS.EMIT waits for FRAME_OUT to be taken; a request that has no step
is not queued and no error: the machine's step drops it (log entry 7; a stop of R207 that falls before it: log entry
15). -/
def Obligations.CatchAdmission : Prop :=
  (∀ s : State, s.fs.phase ≠ .idle →
    (∃ w, exec .catchOp s = .refused (.noStep w)) ∧ ∃ w, exec .fsStart s = .refused (.noStep w)) ∧
  (∀ (s u : State) (rest : List Act), GoesOn s u → s.fs.phase ≠ .idle → s.env.script = .label 0x10#8 :: rest →
    step s = .next (u.setEnv { u.env with script := rest })) ∧
  (∀ (s : State) (f : Bytes), WorkerLive s → s.fs.phase = .emit → s.fs.frameOut = some f →
    exec .fsEmit s = .refused (.noStep .frameNotTaken))

/-! ### The machine's step -/

/-- A step runs the label at the head of the script: its instruction, from the state without the label; a request
without a step leaves that state; a byte that is no label is refused by name. A pixel of the host's at the head is
written by PIXEL, and it and a byte of the host's are gone while a DECODE is in progress (log entries 1, 7, 10; the
byte's write is HostWritesPix). This is so unless a unit stops at the step's boundary (R207; HaltPolicyDecides), and
while one may, an operation of several steps gives way to them (WholeOperationsUnfold; log entry 15). -/
def Obligations.StepRunsLabel : Prop :=
  (∀ s u : State, GoesOn s u → step s = move u) ∧
  (∀ (s : State) (b : Byte) (rest : List Act) (i : Instr), s.env.script = .label b :: rest →
    decode .le .opc8 [b] = .ok (i, []) →
    (unfolding i s = none →
      (∀ t, exec i (s.setEnv { s.env with script := rest }) = .next t → move s = .next t) ∧
      (∀ r, exec i (s.setEnv { s.env with script := rest }) = .fault r → move s = .fault r) ∧
      (∀ w, exec i (s.setEnv { s.env with script := rest }) = .refused (.noStep w) →
        move s = .next (s.setEnv { s.env with script := rest }))) ∧
    (∀ ls, unfolding i s = some ls → move s = .next (s.setEnv { s.env with script := ls.map Act.label ++ rest }))) ∧
  (∀ (s : State) (b : Byte) (rest : List Act) (e : DecodeError), s.env.script = .label b :: rest →
    decode .le .opc8 [b] = .error e → move s = .refused (.unknownCode b)) ∧
  (∀ (s : State) (n : Fin Config.PIXELS) (r g b a : Byte) (rest : List Act), s.env.script = .pixel n r g b a :: rest →
    (s.pd.phase = .check ∨ s.pd.phase = .run → move s = .next (s.setEnv { s.env with script := rest })) ∧
    ∀ t, exec (.pixel r g b a) (s.setEnv { s.env with script := rest, pixelAt := n }) = .next t → move s = .next t) ∧
  (∀ (s : State) (off : Fin Config.PIX_BYTES) (v : Byte) (rest : List Act), s.env.script = .byte off v :: rest →
    s.pd.phase = .check ∨ s.pd.phase = .run → move s = .next (s.setEnv { s.env with script := rest }))

/-- With the script empty a step runs the instruction that the one agent with a step has; of two the scheduler's free
value picks one; with none the machine rests (R14, R215; log entries 2, 28). This is so unless a unit stops at the step's
boundary (R207; HaltPolicyDecides; log entry 15). -/
def Obligations.StepRunsSelected : Prop :=
  ∀ s u : State, GoesOn s u → s.env.script = [] →
    (workerInstr s = none → consumerInstr s = none → step s = .next u) ∧
    (∀ i, workerInstr s = some i → consumerInstr s = none → step s = exec i u) ∧
    (∀ j, workerInstr s = none → consumerInstr s = some j → step s = exec j u) ∧
    (∀ i j, workerInstr s = some i → consumerInstr s = some j →
      step s = if Config.freeTurn s.env.draws then exec i s.draw else exec j s.draw)

/-- What each sequencing state selects (R30, R31, R32, R126, R181): nothing for an agent that may not move; for the
worker, its loop's next step in IDLE, and by phase else, MARKER being FS.SCAN where it matches (log entry 11); for the
consumer the check, and in RUN the data CURSOR stands at: the whole word at a word's start (log entry 26), but inside a
word, and wherever PD may stop (R207; log entry 15), the sample or the parity slot by its value. A frame left in FRAME_OUT is pushed first: log entry 27. -/
def Obligations.SequencingSelects : Prop :=
  (∀ s : State, ¬ WorkerLive s → workerInstr s = none) ∧
  (∀ s : State, WorkerLive s →
    (s.fs.phase = .idle → workerInstr s =
      if s.pipe.running then (if s.fs.frameOut = none then some .fsStart else some .cpPush) else none) ∧
    (s.fs.phase = .poll → workerInstr s = some .fsPoll) ∧
    (s.fs.phase = .read → workerInstr s = some .fsRead) ∧
    (s.fs.phase = .scan → workerInstr s =
      if findFirst s.fs.acc [0x03#8, 0x03#8, 0x03#8, 0x03#8] = none then some .fsScan else some .marker) ∧
    (s.fs.phase = .emit → workerInstr s =
      if s.fs.frameOut = none then some .fsEmit else if s.pipe.running then some .cpPush else none)) ∧
  (∀ s : State, ¬ ConsumerLive s → consumerInstr s = none) ∧
  (∀ s : State, ConsumerLive s →
    (s.pd.phase = .idle → consumerInstr s = none) ∧
    (s.pd.phase = .check → consumerInstr s = some .pdCheck) ∧
    (∀ w, s.pd.phase = .run → currentWord s = some w →
      (s.pd.cursor % 32 = 0 → ¬ MayStop s → consumerInstr s = some (.pword w)) ∧
      (∀ i v, (i, v) ∈ [(Instr.lvl0, 0#2), (.lvl1, 1#2), (.lvl2, 2#2), (.lvl3, 3#2)] →
        (s.pd.cursor % 32 ≠ 0 ∨ MayStop s) → s.pd.cursor % 2 = 0 → s.pd.cursor % 32 / 2 < 15 →
        slot w (s.pd.cursor % 32 / 2) = v → consumerInstr s = some i) ∧
      (∀ i v, (i, v) ∈ [(Instr.parOk, 0#2), (.parNz1, 1#2), (.parNz2, 2#2), (.parNz3, 3#2)] →
        s.pd.cursor % 32 / 2 = 15 → slot w 15 = v → consumerInstr s = some i)))

/-- R231: after reset, and whenever nothing is asked, the machine does nothing (log entry 28). -/
def Obligations.RestsUntilAsked : Prop :=
  step State.reset = .next State.reset ∧
  ∀ s : State, s.env.script = [] → s.fs.phase = .idle → s.pipe.running = false → s.pd.phase = .idle →
    step s = .next s

/-- R9, R35, R65: no step changes a parameter: they are fixed when the machine is built. -/
def Obligations.ParametersNeverChange : Prop :=
  ∀ s t : State, step s = .next t → t.params = s.params

/-- R35: the fields of STATUS, from the codes of R31, R32 and R200. -/
def Obligations.StatusView : Prop :=
  (∀ s : State, (status s).extractLsb' 0 3 = fsPhaseCode s.fs.phase ∧
    (status s).extractLsb' 3 3 = pdPhaseCode s.pd.phase ∧ (status s).extractLsb' 6 3 = faultNumber s.fs.fault ∧
    (status s).extractLsb' 9 3 = faultNumber s.pd.fault ∧ ((status s)[12] = s.pd.perr) ∧
    ((status s)[13] = s.fs.frameOut.isSome) ∧ (status s).extractLsb' 14 2 = 0#2) ∧
  (fsPhaseCode .idle = 0#3 ∧ fsPhaseCode .poll = 2#3 ∧ fsPhaseCode .read = 3#3 ∧ fsPhaseCode .scan = 4#3 ∧
    fsPhaseCode .emit = 5#3 ∧ fsPhaseCode .fault = 7#3) ∧
  (pdPhaseCode .idle = 0#3 ∧ pdPhaseCode .check = 1#3 ∧ pdPhaseCode .run = 2#3 ∧ pdPhaseCode .fault = 7#3) ∧
  (faultNumber .none = 0#3 ∧ faultNumber .linkError = 1#3 ∧ faultNumber .malformedFrame = 2#3 ∧
    faultNumber .bufferOverflow = 4#3)

/-! ### Invariants of every step -/

/-- R41, R34, R24, R31: every step keeps the registers of FS sound and the stream accounted for. -/
def Obligations.StepKeepsSynchronizer : Prop :=
  ∀ s t : State, FsSound s → Reconstructs s → step s = .next t → FsSound t ∧ Reconstructs t

/-- R25, R26, R27, R33, R34, R156, R162: every step keeps the registers of PD sound and the picture so far right. -/
def Obligations.StepKeepsDecoder : Prop :=
  ∀ s t : State, PdSound s → PictureSound s → step s = .next t → PdSound t ∧ PictureSound t

/-- R63: every step keeps PIX in its canonical form inside its 286720 offsets. -/
def Obligations.StepKeepsPixelMemory : Prop :=
  ∀ s t : State, PixSound s → step s = .next t → PixSound t

/-- R184: every step keeps it so that at each multiple of 30 the report of that count has gone out, inside its CP.PUSH;
and there CP.REPORT has no step of its own, as that label is part of CP.PUSH (log entries 20, 35). -/
def Obligations.StepKeepsReport : Prop :=
  (∀ s t : State, ReportSound s → step s = .next t → ReportSound t) ∧
  ∀ s : State, ReportSound s → ∃ w, exec .cpReport s = .refused (.noStep w)

/-- From a sound state every step answers a next state, unless the script's head is a byte that is no label: none ends
in a fault of the model (R156 "there is no out-of-range case to trap"; log entry 23), and what the sequencing state
selects is never refused (R30, R31, R32). -/
def Obligations.SoundStatesMove : Prop :=
  ∀ s : State, Sound s →
    (∃ t, step s = .next t) ∨
      ∃ b rest, s.env.script = .label b :: rest ∧ decode .le .opc8 [b] = .error (.unknownOpc b) ∧
        step s = .refused (.unknownCode b)

end
end

