-- ==== Sys2Proof/Laws/State.lean ====
section
/-! SUPPORT. One lemma per field per update of the state, so that no proof unfolds an update. -/

namespace Sys2Proof
namespace Machine

@[simp] theorem State.setFs_params (s : State) (x : FsUnit) : (s.setFs x).params = s.params := rfl
@[simp] theorem State.setFs_fs (s : State) (x : FsUnit) : (s.setFs x).fs = x := rfl
@[simp] theorem State.setFs_pd (s : State) (x : FsUnit) : (s.setFs x).pd = s.pd := rfl
@[simp] theorem State.setFs_pipe (s : State) (x : FsUnit) : (s.setFs x).pipe = s.pipe := rfl
@[simp] theorem State.setFs_pix (s : State) (x : FsUnit) : (s.setFs x).pix = s.pix := rfl
@[simp] theorem State.setFs_src (s : State) (x : FsUnit) : (s.setFs x).src = s.src := rfl
@[simp] theorem State.setFs_env (s : State) (x : FsUnit) : (s.setFs x).env = s.env := rfl

@[simp] theorem State.setPd_params (s : State) (x : PdUnit) : (s.setPd x).params = s.params := rfl
@[simp] theorem State.setPd_fs (s : State) (x : PdUnit) : (s.setPd x).fs = s.fs := rfl
@[simp] theorem State.setPd_pd (s : State) (x : PdUnit) : (s.setPd x).pd = x := rfl
@[simp] theorem State.setPd_pipe (s : State) (x : PdUnit) : (s.setPd x).pipe = s.pipe := rfl
@[simp] theorem State.setPd_pix (s : State) (x : PdUnit) : (s.setPd x).pix = s.pix := rfl
@[simp] theorem State.setPd_src (s : State) (x : PdUnit) : (s.setPd x).src = s.src := rfl
@[simp] theorem State.setPd_env (s : State) (x : PdUnit) : (s.setPd x).env = s.env := rfl

@[simp] theorem State.setPipe_params (s : State) (x : Pipeline) : (s.setPipe x).params = s.params := rfl
@[simp] theorem State.setPipe_fs (s : State) (x : Pipeline) : (s.setPipe x).fs = s.fs := rfl
@[simp] theorem State.setPipe_pd (s : State) (x : Pipeline) : (s.setPipe x).pd = s.pd := rfl
@[simp] theorem State.setPipe_pipe (s : State) (x : Pipeline) : (s.setPipe x).pipe = x := rfl
@[simp] theorem State.setPipe_pix (s : State) (x : Pipeline) : (s.setPipe x).pix = s.pix := rfl
@[simp] theorem State.setPipe_src (s : State) (x : Pipeline) : (s.setPipe x).src = s.src := rfl
@[simp] theorem State.setPipe_env (s : State) (x : Pipeline) : (s.setPipe x).env = s.env := rfl

@[simp] theorem State.setPix_params (s : State) (x : Memory) : (s.setPix x).params = s.params := rfl
@[simp] theorem State.setPix_fs (s : State) (x : Memory) : (s.setPix x).fs = s.fs := rfl
@[simp] theorem State.setPix_pd (s : State) (x : Memory) : (s.setPix x).pd = s.pd := rfl
@[simp] theorem State.setPix_pipe (s : State) (x : Memory) : (s.setPix x).pipe = s.pipe := rfl
@[simp] theorem State.setPix_pix (s : State) (x : Memory) : (s.setPix x).pix = x := rfl
@[simp] theorem State.setPix_src (s : State) (x : Memory) : (s.setPix x).src = s.src := rfl
@[simp] theorem State.setPix_env (s : State) (x : Memory) : (s.setPix x).env = s.env := rfl

@[simp] theorem State.setSrc_params (s : State) (x : Source) : (s.setSrc x).params = s.params := rfl
@[simp] theorem State.setSrc_fs (s : State) (x : Source) : (s.setSrc x).fs = s.fs := rfl
@[simp] theorem State.setSrc_pd (s : State) (x : Source) : (s.setSrc x).pd = s.pd := rfl
@[simp] theorem State.setSrc_pipe (s : State) (x : Source) : (s.setSrc x).pipe = s.pipe := rfl
@[simp] theorem State.setSrc_pix (s : State) (x : Source) : (s.setSrc x).pix = s.pix := rfl
@[simp] theorem State.setSrc_src (s : State) (x : Source) : (s.setSrc x).src = x := rfl
@[simp] theorem State.setSrc_env (s : State) (x : Source) : (s.setSrc x).env = s.env := rfl

@[simp] theorem State.setEnv_params (s : State) (x : Env) : (s.setEnv x).params = s.params := rfl
@[simp] theorem State.setEnv_fs (s : State) (x : Env) : (s.setEnv x).fs = s.fs := rfl
@[simp] theorem State.setEnv_pd (s : State) (x : Env) : (s.setEnv x).pd = s.pd := rfl
@[simp] theorem State.setEnv_pipe (s : State) (x : Env) : (s.setEnv x).pipe = s.pipe := rfl
@[simp] theorem State.setEnv_pix (s : State) (x : Env) : (s.setEnv x).pix = s.pix := rfl
@[simp] theorem State.setEnv_src (s : State) (x : Env) : (s.setEnv x).src = s.src := rfl
@[simp] theorem State.setEnv_env (s : State) (x : Env) : (s.setEnv x).env = x := rfl

@[simp] theorem State.draw_params (s : State) : s.draw.params = s.params := rfl
@[simp] theorem State.draw_fs (s : State) : s.draw.fs = s.fs := rfl
@[simp] theorem State.draw_pd (s : State) : s.draw.pd = s.pd := rfl
@[simp] theorem State.draw_pipe (s : State) : s.draw.pipe = s.pipe := rfl
@[simp] theorem State.draw_pix (s : State) : s.draw.pix = s.pix := rfl
@[simp] theorem State.draw_src (s : State) : s.draw.src = s.src := rfl
@[simp] theorem State.draw_env (s : State) : s.draw.env = { s.env with draws := s.env.draws + 1 } := rfl

@[simp] theorem raiseFs_params (c : FaultCode) (s : State) : (raiseFs c s).params = s.params := rfl
@[simp] theorem raiseFs_fs (c : FaultCode) (s : State) : (raiseFs c s).fs = { s.fs with fault := c, phase := .fault } := rfl
@[simp] theorem raiseFs_pd (c : FaultCode) (s : State) : (raiseFs c s).pd = s.pd := rfl
@[simp] theorem raiseFs_pipe (c : FaultCode) (s : State) : (raiseFs c s).pipe = s.pipe := rfl
@[simp] theorem raiseFs_pix (c : FaultCode) (s : State) : (raiseFs c s).pix = s.pix := rfl
@[simp] theorem raiseFs_src (c : FaultCode) (s : State) : (raiseFs c s).src = s.src := rfl
@[simp] theorem raiseFs_env (c : FaultCode) (s : State) : (raiseFs c s).env = s.env := rfl
@[simp] theorem leftWaiting_params (s : State) : (leftWaiting s).params = s.params := rfl
@[simp] theorem leftWaiting_fs (s : State) : (leftWaiting s).fs = { s.fs with stuck := true } := rfl
@[simp] theorem leftWaiting_pd (s : State) : (leftWaiting s).pd = s.pd := rfl
@[simp] theorem leftWaiting_pipe (s : State) : (leftWaiting s).pipe = s.pipe := rfl
@[simp] theorem leftWaiting_pix (s : State) : (leftWaiting s).pix = s.pix := rfl
@[simp] theorem leftWaiting_src (s : State) : (leftWaiting s).src = s.src := rfl
@[simp] theorem leftWaiting_env (s : State) : (leftWaiting s).env = s.env := rfl
@[simp] theorem raisePd_params (c : FaultCode) (s : State) : (raisePd c s).params = s.params := rfl
@[simp] theorem raisePd_fs (c : FaultCode) (s : State) : (raisePd c s).fs = s.fs := rfl
@[simp] theorem raisePd_pd (c : FaultCode) (s : State) : (raisePd c s).pd = { s.pd with fault := c, phase := .fault, frm := none } := rfl
@[simp] theorem raisePd_pipe (c : FaultCode) (s : State) : (raisePd c s).pipe = s.pipe := rfl
@[simp] theorem raisePd_pix (c : FaultCode) (s : State) : (raisePd c s).pix = s.pix := rfl
@[simp] theorem raisePd_src (c : FaultCode) (s : State) : (raisePd c s).src = s.src := rfl
@[simp] theorem raisePd_env (c : FaultCode) (s : State) : (raisePd c s).env = s.env := rfl

end Machine
end Sys2Proof
end

