-- ==== Sys2Proof/Laws/Control.lean ====
section
/-! SUPPORT. What sequencing, enabling conditions and the source transactions can do, said once each. -/

namespace Sys2Proof
namespace Machine

@[simp] theorem andThen_next (s : State) (k : State → Out) : andThen (.next s) k = k s := rfl
@[simp] theorem andThen_fault (r : Fault) (k : State → Out) : andThen (.fault r) k = .fault r := rfl
@[simp] theorem andThen_refused (r : Refusal) (k : State → Out) : andThen (.refused r) k = .refused r := rfl

theorem andThen_eq_next {o : Out} {k : State → Out} {t : State} :
    andThen o k = .next t ↔ ∃ u, o = .next u ∧ k u = .next t := by
  cases o <;> simp

theorem andThen_eq_fault {o : Out} {k : State → Out} {r : Fault} :
    andThen o k = .fault r ↔ o = .fault r ∨ ∃ u, o = .next u ∧ k u = .fault r := by
  cases o <;> simp

@[simp] theorem gate_none (o : Out) : gate none o = o := rfl
@[simp] theorem gate_some (w : NoStep) (o : Out) : gate (some w) o = .refused (.noStep w) := rfl

theorem gate_eq_next {w : Option NoStep} {o : Out} {t : State} :
    gate w o = .next t ↔ w = none ∧ o = .next t := by
  cases w <;> simp

theorem gate_eq_fault {w : Option NoStep} {o : Out} {r : Fault} :
    gate w o = .fault r ↔ w = none ∧ o = .fault r := by
  cases w <;> simp

theorem workerStop_eq_none {s : State} : workerStop s = none ↔ WorkerLive s := by
  unfold workerStop WorkerLive
  split <;> rename_i h
  · simp [h]
  · cases s.fs.stuck <;> cases fsHalted s <;> simp [h]

theorem consumerStop_eq_none {s : State} : consumerStop s = none ↔ ConsumerLive s := by
  unfold consumerStop ConsumerLive
  split <;> rename_i h
  · simp [h]
  · cases pdHalted s <;> simp [h]

theorem fsStop_eq_none {p : FsPhase} {s : State} : fsStop p s = none ↔ WorkerLive s ∧ s.fs.phase = p := by
  unfold fsStop
  cases h : workerStop s with
  | none => simp [workerStop_eq_none.mp h]
  | some w =>
    have : ¬ WorkerLive s := fun hl => by rw [workerStop_eq_none.mpr hl] at h; cases h
    simp [this]

theorem pdStop_eq_none {p : PdPhase} {c : Bool} {s : State} :
    pdStop p c s = none ↔ ConsumerLive s ∧ s.pd.phase = p ∧ c = true := by
  unfold pdStop
  cases h : consumerStop s with
  | none => simp [consumerStop_eq_none.mp h]
  | some w =>
    have : ¬ ConsumerLive s := fun hl => by rw [consumerStop_eq_none.mpr hl] at h; cases h
    simp [this]

theorem emitStop_eq_none {s : State} :
    emitStop s = none ↔ WorkerLive s ∧ s.fs.phase = .emit ∧ s.fs.frameOut = none := by
  unfold emitStop
  cases h : fsStop .emit s with
  | none => simp [fsStop_eq_none.mp h]
  | some w =>
    have : ¬ (WorkerLive s ∧ s.fs.phase = .emit) := fun hl => by rw [fsStop_eq_none.mpr hl] at h; cases h
    simp only [reduceCtorEq, false_iff]
    tauto

theorem markerStop_eq_none {s : State} :
    markerStop s = none ↔
      WorkerLive s ∧ s.fs.phase = .scan ∧ (findFirst s.fs.acc Config.MARKER).isSome = true := by
  unfold markerStop
  cases h : fsStop .scan s with
  | none =>
    have := fsStop_eq_none.mp h
    cases hf : findFirst s.fs.acc Config.MARKER <;> simp [this]
  | some w =>
    have : ¬ (WorkerLive s ∧ s.fs.phase = .scan) := fun hl => by rw [fsStop_eq_none.mpr hl] at h; cases h
    simp only [reduceCtorEq, false_iff]
    tauto

theorem reportStop_eq_none {s : State} : reportStop s = none ↔ WorkerLive s ∧ reportDue s = true := by
  unfold reportStop
  cases h : workerStop s with
  | none => cases hd : reportDue s <;> simp [workerStop_eq_none.mp h]
  | some w =>
    have : ¬ WorkerLive s := fun hl => by rw [workerStop_eq_none.mpr hl] at h; cases h
    simp [this]

theorem reportDue_eq_true {s : State} : reportDue s = true ↔
    s.pipe.fcount ≠ 0 ∧ s.pipe.fcount % Config.REPORT_PERIOD = 0 ∧
      s.pipe.report.map Report.frames ≠ some s.pipe.fcount := by
  simp [reportDue, and_assoc]

theorem hostStop_eq_none {s : State} : hostStop s = none ↔ s.pd.phase ≠ .check ∧ s.pd.phase ≠ .run := by
  unfold hostStop
  cases s.pd.phase <;> simp

theorem runStop_eq_none {s : State} :
    runStop s = none ↔ WorkerLive s ∧ s.fs.phase = .idle ∧ s.pipe.running = false := by
  unfold runStop
  cases h : fsStop .idle s with
  | none =>
    have := fsStop_eq_none.mp h
    cases hr : s.pipe.running <;> simp [this]
  | some w =>
    have : ¬ (WorkerLive s ∧ s.fs.phase = .idle) := fun hl => by rw [fsStop_eq_none.mpr hl] at h; cases h
    simp only [reduceCtorEq, false_iff]
    tauto

theorem settle_eq_next {t u : State} {o : Out} (h : settle t o = .next u) : o = .next u ∨ u = t := by
  cases o with
  | next s => left; simpa [settle] using h
  | fault r => simp [settle] at h
  | refused r =>
    simp only [settle] at h
    split at h
    · right; simpa using h.symm
    · cases h

theorem settle_eq_fault {t : State} {o : Out} {r : Fault} (h : settle t o = .fault r) : o = .fault r := by
  cases o with
  | next s => simp [settle] at h
  | fault r => simpa [settle] using h
  | refused r => simp only [settle] at h; split at h <;> cases h

/-! ### The source -/

/-- Only the source's answers and the counter of free values change. -/
structure OnlySource (s t : State) : Prop where
  fs : t.fs = s.fs
  pd : t.pd = s.pd
  pipe : t.pipe = s.pipe
  pix : t.pix = s.pix
  params : t.params = s.params
  script : t.env.script = s.env.script
  clock : t.env.clock = s.env.clock
  pixelAt : t.env.pixelAt = s.env.pixelAt

theorem afterAvail_onlySource (s : State) : OnlySource s (afterAvail s) := by
  unfold afterAvail; split <;> constructor <;> rfl

@[simp] theorem afterAvail_stream (s : State) : (afterAvail s).src.stream = s.src.stream := by
  unfold afterAvail; split <;> rfl

theorem afterRead_onlySource (m : Nat) (s : State) : OnlySource s (afterRead m s) := by
  unfold afterRead; dsimp only; split <;> split <;> constructor <;> rfl

/-- The bytes a successful read returns are the next of the stream. -/
theorem afterRead_stream {m : Nat} {s : State} {c : Bytes} (h : readAnswer m s = .chunk c) :
    (afterRead m s).src.stream = s.src.stream ++ c := by
  unfold afterRead; simp only [h]; split <;> rfl

/-- A failed read returns no bytes. -/
theorem afterRead_stream_fail {m : Nat} {s : State} (h : readAnswer m s = .linkError) :
    (afterRead m s).src.stream = s.src.stream := by
  unfold afterRead; simp only [h]; split <;> rfl

/-- A read without an answer returns no bytes. -/
theorem afterRead_stream_silent {m : Nat} {s : State} (h : readAnswer m s = .silent) :
    (afterRead m s).src.stream = s.src.stream := by
  unfold afterRead; simp only [h]; split <;> rfl

theorem upTo_bound {m : Nat} {r : ReadReply} {c : Bytes} (h : ReadReply.upTo m r = .chunk c) : c.length ≤ m := by
  cases r with
  | linkError => simp [ReadReply.upTo] at h
  | silent => simp [ReadReply.upTo] at h
  | chunk bs => simp only [ReadReply.upTo, ReadReply.chunk.injEq] at h; subst h; simp

/-- A read returns at most the bytes asked for (R123). -/
theorem readAnswer_bound {m : Nat} {s : State} {c : Bytes} (h : readAnswer m s = .chunk c) : c.length ≤ m := by
  unfold readAnswer at h; split at h <;> exact upTo_bound h

end Machine
end Sys2Proof
end

