-- ==== Sys2Proof/Laws/Match.lean ====
section
/-! SUPPORT. The first match (R11, R130): what `findFirst` answers, and that bytes after a match do not move
it. -/

namespace Sys2Proof
namespace Machine

/-- `m` stands in `s` at index `i` (R11). -/
abbrev MatchAt (s m : Bytes) (i : Nat) : Prop := (s.drop i).take m.length = m ∧ i ≤ s.length

theorem findFirst_eq_some {s m : Bytes} {i : Nat} :
    findFirst s m = some i ↔ MatchAt s m i ∧ ∀ j, j < i → ¬ MatchAt s m j := by
  induction s generalizing i with
  | nil =>
    unfold findFirst MatchAt
    by_cases hm : m = []
    · subst hm
      simp only [if_true, Option.some.injEq]
      constructor
      · intro h; subst h; simp
      · rintro ⟨⟨-, h⟩, -⟩; simp at h; exact h.symm
    · simp [hm, eq_comm]
  | cons b s ih =>
    unfold findFirst
    split
    · rename_i h
      constructor
      · intro e; cases e; exact ⟨⟨by simpa using h, by simp⟩, by simp⟩
      · rintro ⟨-, hl⟩
        cases i with
        | zero => rfl
        | succ i => exact absurd ⟨by simpa using h, by simp⟩ (hl 0 (by omega))
    · rename_i h
      cases i with
      | zero =>
        simp only [Option.map_eq_some_iff]
        constructor
        · rintro ⟨_, _, h'⟩; omega
        · rintro ⟨⟨h', -⟩, -⟩; exact absurd (by simpa using h') h
      | succ i =>
        simp only [Option.map_eq_some_iff, Nat.add_right_cancel_iff, exists_eq_right, ih]
        constructor
        · rintro ⟨⟨h1, h2⟩, h3⟩
          refine ⟨⟨by simpa using h1, by simpa using h2⟩, ?_⟩
          intro j hj
          cases j with
          | zero => rintro ⟨h', -⟩; exact h (by simpa using h')
          | succ j => rintro ⟨h4, h5⟩; exact h3 j (by omega) ⟨by simpa using h4, by simpa using h5⟩
        · rintro ⟨⟨h1, h2⟩, h3⟩
          refine ⟨⟨by simpa using h1, by simpa using h2⟩, ?_⟩
          rintro j hj ⟨h4, h5⟩
          exact h3 (j + 1) (by omega) ⟨by simpa using h4, by simpa using h5⟩

theorem findFirst_eq_none {s m : Bytes} : findFirst s m = none ↔ ∀ j, ¬ MatchAt s m j := by
  constructor
  · intro h j hj
    -- a match somewhere gives a least one
    classical
    have : ∃ j, MatchAt s m j := ⟨j, hj⟩
    have := findFirst_eq_some.mpr ⟨Nat.find_spec this, fun k hk => Nat.find_min this hk⟩
    rw [h] at this; cases this
  · intro h
    cases e : findFirst s m with
    | none => rfl
    | some i => exact absurd (findFirst_eq_some.mp e).1 (h i)

theorem MatchAt.bound {s m : Bytes} {i : Nat} (h : MatchAt s m i) : i + m.length ≤ s.length := by
  have := congrArg List.length h.1
  have h2 := h.2
  simp only [List.length_take, List.length_drop] at this
  omega

theorem MatchAt.append {s m : Bytes} {i : Nat} (h : MatchAt s m i) (t : Bytes) : MatchAt (s ++ t) m i := by
  have hb := h.bound
  refine ⟨?_, by simp; omega⟩
  have h1 := h.1
  rw [List.drop_append_of_le_length h.2, List.take_append_of_le_length (by simp; omega)]
  exact h1

theorem MatchAt.of_append {s m t : Bytes} {i : Nat} (h : MatchAt (s ++ t) m i) (hb : i + m.length ≤ s.length) :
    MatchAt s m i := by
  refine ⟨?_, by omega⟩
  have h1 := h.1
  rwa [List.drop_append_of_le_length (by omega), List.take_append_of_le_length (by simp; omega)] at h1

/-- Bytes appended after a match do not move it. -/
theorem findFirst_append {s m : Bytes} {i : Nat} (t : Bytes) (h : findFirst s m = some i) :
    findFirst (s ++ t) m = some i := by
  obtain ⟨h1, h2⟩ := findFirst_eq_some.mp h
  refine findFirst_eq_some.mpr ⟨h1.append t, fun j hj hm => h2 j hj (hm.of_append ?_)⟩
  have := h1.bound; omega

/-- A match's place, its window and the rest (R98 (e)). -/
theorem findFirst_split {s m : Bytes} {i : Nat} (h : findFirst s m = some i) :
    s = s.take i ++ (m ++ s.drop (i + m.length)) ∧ i + m.length ≤ s.length := by
  obtain ⟨h1, -⟩ := findFirst_eq_some.mp h
  refine ⟨?_, h1.bound⟩
  conv_lhs => rw [← List.take_append_drop i s, ← List.take_append_drop m.length (s.drop i), h1.1, List.drop_drop]

/-- The bytes before a first match are a clean frame (R41 (c)). -/
theorem frameClean_take {s : Bytes} {i : Nat} (h : findFirst s Config.MARKER = some i) :
    FrameClean (s.take i) := by
  obtain ⟨hs, hb⟩ := findFirst_split h
  obtain ⟨h1, h2⟩ := findFirst_eq_some.mp h
  have hl : (s.take i).length = i := by simp; omega
  have hs' : s = (s.take i ++ Config.MARKER) ++ s.drop (i + Config.MARKER.length) := by simpa using hs
  unfold FrameClean
  rw [hl]
  refine findFirst_eq_some.mpr ⟨?_, ?_⟩
  · rw [hs'] at h1
    exact h1.of_append (by simp [Config.MARKER]; omega)
  · intro j hj hm
    apply h2 j hj
    rw [hs']
    exact hm.append _

end Machine
end Sys2Proof
end

