-- ==== Sys2Proof/Laws/FrameSync.lean ====
section
/-! SUPPORT. Unit FS: what each step leaves alone, that each keeps the unit's invariants (R34, R41), and one
induction for the loop of CATCH. -/

namespace Sys2Proof
namespace Machine

theorem FsOnly.refl (s : State) : FsOnly s s := by constructor <;> rfl

theorem FsOnly.trans {s t u : State} (h : FsOnly s t) (k : FsOnly t u) : FsOnly s u :=
  ⟨k.pd.trans h.pd, k.pipe.trans h.pipe, k.pix.trans h.pix, k.params.trans h.params, k.script.trans h.script,
    k.clock.trans h.clock, k.pixelAt.trans h.pixelAt, k.stopped.trans h.stopped⟩

theorem OnlySource.setFs {s t : State} (h : OnlySource s t) (x : FsUnit) (hx : x.stopped = s.fs.stopped) :
    FsOnly s (t.setFs x) :=
  ⟨h.pd, h.pipe, h.pix, h.params, h.script, h.clock, h.pixelAt, hx⟩

theorem fsStarted_only (s : State) : FsOnly s (fsStarted s) := by constructor <;> rfl

theorem fsPolled_only (s : State) : FsOnly s (fsPolled s) := by
  have h := afterAvail_onlySource s
  unfold fsPolled
  split
  · exact h.setFs _ (by simp [h.fs])
  · exact h.setFs _ (by simp [h.fs])
  · exact h.setFs _ rfl

theorem fsReadDone_only (m : Nat) (s : State) : FsOnly s (fsReadDone m s) := by
  have h := afterRead_onlySource m s
  unfold fsReadDone
  split
  · exact h.setFs _ (by simp [h.fs])
  · exact h.setFs _ (by simp [h.fs])
  · split
    · exact h.setFs _ rfl
    · exact h.setFs _ rfl

theorem fsScanned_only (s : State) : FsOnly s (fsScanned s) := by constructor <;> rfl

theorem fsEmitted_eq_next {s t : State} (h : fsEmitted s = .next t) :
    ∃ i, s.fs.found = some i ∧ t = s.setFs { s.fs with
      frameOut := some (s.fs.acc.take i), spill := s.fs.acc.drop (i + Config.MARKER_LEN), phase := .idle } := by
  unfold fsEmitted at h
  split at h
  · rename_i i hi
    exact ⟨i, hi, by simpa using h.symm⟩
  · cases h

theorem fsEmitted_only {s t : State} (h : fsEmitted s = .next t) : FsOnly s t := by
  obtain ⟨i, -, rfl⟩ := fsEmitted_eq_next h
  constructor <;> rfl

/-- The phase of FS after FS.POLL: POLL, stuck or not, or READ, or FAULT (R31). -/
theorem fsPolled_phase {s : State} (h : s.fs.phase = .poll) :
    (fsPolled s).fs.phase = .poll ∨ (fsPolled s).fs.phase = .read ∨ (fsPolled s).fs.phase = .fault := by
  unfold fsPolled
  split
  · simp
  · simp [(afterAvail_onlySource s).fs, h]
  · rename_i n _; by_cases h : n = 0 <;> simp [h]

/-- The phase of FS after FS.READ: READ, stuck, or SCAN, or FAULT (R31). -/
theorem fsReadDone_phase (m : Nat) {s : State} (h : s.fs.phase = .read) :
    ((fsReadDone m s).fs.phase = .read ∧ (fsReadDone m s).fs.stuck = true) ∨ (fsReadDone m s).fs.phase = .scan ∨
      (fsReadDone m s).fs.phase = .fault := by
  unfold fsReadDone
  split
  · simp
  · simp [(afterRead_onlySource m s).fs, h]
  · split <;> simp

theorem fsScanned_phase (s : State) :
    (fsScanned s).fs.phase = .poll ∨
      (fsScanned s).fs.phase = .emit ∧ (findFirst s.fs.acc Config.MARKER).isSome = true := by
  unfold fsScanned
  cases findFirst s.fs.acc Config.MARKER <;> simp

/-! ### The loop of CATCH -/

/-- What every step of FS keeps, the loop of CATCH keeps. -/
theorem catchLoop_induct {P : State → Prop}
    (poll : ∀ s, P s → s.fs.phase = .poll → s.fs.stuck = false → P (fsPolled s))
    (read : ∀ s, P s → s.fs.phase = .read → s.fs.stuck = false → P (fsReadDone Config.CHUNK_MAX s))
    (scan : ∀ s, P s → s.fs.phase = .scan → P (fsScanned s))
    (emit : ∀ s t, P s → s.fs.phase = .emit → s.fs.frameOut = none → fsEmitted s = .next t → P t)
    (n : Nat) {s t : State} (hs : P s) (h : catchLoop n s = .next t) : P t := by
  induction n generalizing s with
  | zero => simp only [catchLoop, Host.Outcome.next.injEq] at h; exact h ▸ hs
  | succ n ih =>
    unfold catchLoop at h
    split at h
    · cases h; exact hs
    rename_i hk
    have hk : s.fs.stuck = false := by simpa using hk
    split at h
    · split at h
      · cases h; exact hs
      · exact ih (poll s hs ‹_› hk) h
    · split at h
      · cases h; exact hs
      · exact ih (read s hs ‹_› hk) h
    · exact ih (scan s hs ‹_›) h
    · split at h
      · cases h; exact hs
      · rename_i hp hn; exact emit s t hs hp (by simpa using hn) h
    · cases h; exact hs
    · cases h; exact hs

theorem catchLoop_only (n : Nat) {s t : State} (h : catchLoop n s = .next t) : FsOnly s t :=
  catchLoop_induct (P := fun u => FsOnly s u)
    (fun u hu _ _ => hu.trans (fsPolled_only u)) (fun u hu _ _ => hu.trans (fsReadDone_only _ u))
    (fun u hu _ => hu.trans (fsScanned_only u)) (fun _ _ hu _ _ he => hu.trans (fsEmitted_only he))
    n (FsOnly.refl s) h

/-! ### The invariants of FS -/

theorem FsSound.fault_none {s : State} (h : FsSound s) (hp : s.fs.phase ≠ .fault) : s.fs.fault = .none := by
  by_contra hf; exact hp (h.1.mpr hf)

theorem fsStarted_sound {s : State} (h : FsSound s) (hp : s.fs.phase = .idle) : FsSound (fsStarted s) := by
  have hf := FsSound.fault_none h (by rw [hp]; simp)
  exact ⟨by simp [fsStarted, hf], by simp [fsStarted, hf], by simp [fsStarted], by simpa [fsStarted] using h.2.2.2.1,
    by simp [fsStarted]⟩

theorem fsPolled_sound {s : State} (h : FsSound s) (hp : s.fs.phase = .poll) (hk : s.fs.stuck = false) :
    FsSound (fsPolled s) := by
  have hf := FsSound.fault_none h (by rw [hp]; simp)
  have ha := (afterAvail_onlySource s).fs
  unfold fsPolled
  split
  · exact ⟨by simp, by simp, by simp, by simpa [ha] using h.2.2.2.1, by simp [ha, hk]⟩
  · exact ⟨by simp [ha, hf, hp], by simp [ha, hf], by simp [ha, hp], by simpa [ha] using h.2.2.2.1, by simp [ha, hp]⟩
  · rename_i n _
    refine ⟨?_, by simp [hf], ?_, by simpa using h.2.2.2.1, by simp [hk]⟩ <;> by_cases hn : n = 0 <;> simp [hn, hf]

theorem fsReadDone_sound {m : Nat} (hm : m ≤ Config.CHUNK_MAX) {s : State} (h : FsSound s)
    (hp : s.fs.phase = .read) (hk : s.fs.stuck = false) : FsSound (fsReadDone m s) := by
  have hf := FsSound.fault_none h (by rw [hp]; simp)
  have ha := (afterRead_onlySource m s).fs
  unfold fsReadDone
  split
  · exact ⟨by simp, by simp, by simp, by simpa [ha] using h.2.2.2.1, by simp [ha, hk]⟩
  · exact ⟨by simp [ha, hf, hp], by simp [ha, hf], by simp [ha, hp], by simpa [ha] using h.2.2.2.1, by simp [ha, hp]⟩
  · rename_i c hc
    have := readAnswer_bound hc
    split
    · exact ⟨by simp, by simp, by simp, by simp; omega, by simp [hk]⟩
    · exact ⟨by simp [hf], by simp [hf], by simp, by simp; omega, by simp [hk]⟩

/-- FS is not stuck where it does not wait for the source (R209). -/
theorem FsSound.unstuck {s : State} (h : FsSound s) (h1 : s.fs.phase ≠ .poll) (h2 : s.fs.phase ≠ .read) :
    s.fs.stuck = false := by
  by_contra hk
  rcases h.2.2.2.2 (by simpa using hk) with e | e
  · exact h1 e
  · exact h2 e

theorem fsScanned_sound {s : State} (h : FsSound s) (hp : s.fs.phase = .scan) : FsSound (fsScanned s) := by
  have hf := FsSound.fault_none h (by rw [hp]; simp)
  have hk := h.unstuck (by simp [hp]) (by simp [hp])
  unfold fsScanned
  refine ⟨?_, by simp [hf], ?_, by simpa using h.2.2.2.1, by simp [hk]⟩ <;>
    cases hm : findFirst s.fs.acc Config.MARKER <;> simp [hf, hm]

theorem fsEmitted_sound {s t : State} (h : FsSound s) (hp : s.fs.phase = .emit) (he : fsEmitted s = .next t) :
    FsSound t := by
  have hf := FsSound.fault_none h (by rw [hp]; simp)
  have hk := h.unstuck (by simp [hp]) (by simp [hp])
  obtain ⟨i, -, rfl⟩ := fsEmitted_eq_next he
  exact ⟨by simp [hf], by simp [hf], by simp, by simpa using h.2.2.2.1, by simp [hk]⟩

/-! ### The reconstruction invariant (R41) -/

theorem joinFrames_append (a : List Bytes) (f : Bytes) :
    joinFrames (a ++ [f]) = joinFrames a ++ (f ++ Config.MARKER) := by
  induction a with
  | nil => simp [joinFrames]
  | cons g a ih => simp [joinFrames, ih]

theorem fsStarted_reconstructs {s : State} (h : Reconstructs s) (hp : s.fs.phase = .idle) :
    Reconstructs (fsStarted s) := by
  intro _
  obtain ⟨fs, hc, hs⟩ := h (by simp [hp])
  exact ⟨fs, hc, by simpa [fsStarted, heldBytes, hp] using hs⟩

theorem fsPolled_reconstructs {s : State} (h : Reconstructs s) (hp : s.fs.phase = .poll) :
    Reconstructs (fsPolled s) := by
  obtain ⟨fs, hc, hs⟩ := h (by simp [hp])
  unfold fsPolled
  split
  · intro hf; simp at hf
  · intro _
    exact ⟨fs, hc, by simpa [heldBytes, hp, (afterAvail_onlySource s).fs] using hs⟩
  · rename_i n _
    intro _
    refine ⟨fs, hc, ?_⟩
    by_cases hn : n = 0 <;> simpa [heldBytes, hp, hn] using hs

theorem fsReadDone_reconstructs (m : Nat) {s : State} (h : Reconstructs s) (hp : s.fs.phase = .read) :
    Reconstructs (fsReadDone m s) := by
  obtain ⟨fs, hc, hs⟩ := h (by simp [hp])
  unfold fsReadDone
  split
  · intro hf; simp at hf
  · rename_i hr
    intro _
    exact ⟨fs, hc, by simpa [heldBytes, hp, (afterRead_onlySource m s).fs, afterRead_stream_silent hr] using hs⟩
  · rename_i c hr
    split
    · intro hf; simp at hf
    · intro _
      refine ⟨fs, hc, ?_⟩
      simp only [heldBytes, hp, reduceCtorEq, if_false] at hs
      simp [heldBytes, afterRead_stream hr, hs]

theorem fsScanned_reconstructs {s : State} (h : Reconstructs s) (hp : s.fs.phase = .scan) :
    Reconstructs (fsScanned s) := by
  obtain ⟨fs, hc, hs⟩ := h (by simp [hp])
  intro _
  refine ⟨fs, hc, ?_⟩
  simp only [heldBytes, hp, reduceCtorEq, if_false] at hs
  unfold fsScanned
  cases findFirst s.fs.acc Config.MARKER <;> simpa [heldBytes] using hs

theorem fsEmitted_reconstructs {s t : State} (hf : FsSound s) (h : Reconstructs s) (hp : s.fs.phase = .emit)
    (he : fsEmitted s = .next t) : Reconstructs t := by
  obtain ⟨fs, hc, hs⟩ := h (by simp [hp])
  obtain ⟨i, hi, rfl⟩ := fsEmitted_eq_next he
  have hm : findFirst s.fs.acc Config.MARKER = some i := by rw [← (hf.2.2.1 hp).2, hi]
  intro _
  refine ⟨fs ++ [s.fs.acc.take i], ?_, ?_⟩
  · intro f hf'
    rcases List.mem_append.mp hf' with h1 | h1
    · exact hc f h1
    · rw [List.mem_singleton.mp h1]; exact frameClean_take hm
  · simp only [heldBytes, hp, reduceCtorEq, if_false] at hs
    have hsplit := (findFirst_split hm).1
    simp only [heldBytes, State.setFs_src, State.setFs_fs, if_true, joinFrames_append, hs]
    conv_lhs => rw [hsplit]
    simp [Config.MARKER, Config.MARKER_LEN]

/-- FS's two invariants together. -/
def FsKept (s : State) : Prop := FsSound s ∧ Reconstructs s

theorem catchLoop_kept (n : Nat) {s t : State} (hs : FsKept s) (h : catchLoop n s = .next t) : FsKept t :=
  catchLoop_induct (P := FsKept)
    (fun _ hu hp hk => ⟨fsPolled_sound hu.1 hp hk, fsPolled_reconstructs hu.2 hp⟩)
    (fun _ hu hp hk => ⟨fsReadDone_sound (Nat.le_refl _) hu.1 hp hk, fsReadDone_reconstructs _ hu.2 hp⟩)
    (fun _ hu hp => ⟨fsScanned_sound hu.1 hp, fsScanned_reconstructs hu.2 hp⟩)
    (fun _ _ hu hp _ he => ⟨fsEmitted_sound hu.1 hp he, fsEmitted_reconstructs hu.1 hu.2 hp he⟩) n hs h

end Machine
end Sys2Proof
end

