-- ==== Sys2Proof/Laws/Pipeline.lean ====
section
/-! SUPPORT. The pipeline's steps: what they change, and that the report of every multiple of 30 has gone out (R184). -/

namespace Sys2Proof
namespace Machine

theorem pushed_fs (f : Bytes) (s : State) : (pushed f s).fs = { s.fs with frameOut := none } := by
  unfold pushed reported; dsimp only; split <;> rfl
theorem pushed_pd (f : Bytes) (s : State) : (pushed f s).pd = s.pd := by
  unfold pushed reported; dsimp only; split <;> rfl
theorem pushed_pix (f : Bytes) (s : State) : (pushed f s).pix = s.pix := by
  unfold pushed reported; dsimp only; split <;> rfl
theorem pushed_params (f : Bytes) (s : State) : (pushed f s).params = s.params := by
  unfold pushed reported; dsimp only; split <;> rfl
theorem pushed_src (f : Bytes) (s : State) : (pushed f s).src = s.src := by
  unfold pushed reported; dsimp only; split <;> rfl
theorem pushed_q (f : Bytes) (s : State) : (pushed f s).pipe.q = s.pipe.q ++ [f] := by
  unfold pushed reported; dsimp only; split <;> rfl
theorem pushed_fcount (f : Bytes) (s : State) : (pushed f s).pipe.fcount = s.pipe.fcount + 1 := by
  unfold pushed reported; dsimp only; split <;> rfl
theorem pushed_t0 (f : Bytes) (s : State) : (pushed f s).pipe.t0 = s.pipe.t0 := by
  unfold pushed reported; dsimp only; split <;> rfl
theorem pushed_running (f : Bytes) (s : State) : (pushed f s).pipe.running = s.pipe.running := by
  unfold pushed reported; dsimp only; split <;> rfl
theorem pushed_taken (f : Bytes) (s : State) : (pushed f s).pipe.taken = s.pipe.taken := by
  unfold pushed reported; dsimp only; split <;> rfl
theorem pushed_script (f : Bytes) (s : State) : (pushed f s).env.script = s.env.script := by
  unfold pushed reported; dsimp only; split <;> rfl
theorem pushed_pixelAt (f : Bytes) (s : State) : (pushed f s).env.pixelAt = s.env.pixelAt := by
  unfold pushed reported; dsimp only; split <;> rfl

theorem WorkerOnly.refl (s : State) : WorkerOnly s s := by constructor <;> rfl

theorem WorkerOnly.trans {s t u : State} (h : WorkerOnly s t) (k : WorkerOnly t u) : WorkerOnly s u :=
  ⟨k.pd.trans h.pd, k.pix.trans h.pix, k.taken.trans h.taken, k.params.trans h.params, k.script.trans h.script,
    k.pixelAt.trans h.pixelAt, k.stopped.trans h.stopped⟩

theorem FsOnly.worker {s t : State} (h : FsOnly s t) : WorkerOnly s t :=
  ⟨h.pd, h.pix, by rw [h.pipe], h.params, h.script, h.pixelAt, h.stopped⟩

theorem pushed_worker (f : Bytes) (s : State) : WorkerOnly s (pushed f s) :=
  ⟨pushed_pd f s, pushed_pix f s, pushed_taken f s, pushed_params f s, pushed_script f s, pushed_pixelAt f s,
    by rw [pushed_fs]⟩

theorem reported_worker (s : State) : WorkerOnly s (reported s) := by constructor <;> rfl

theorem workerStarted_worker (s : State) : WorkerOnly s (workerStarted s) := by constructor <;> rfl

/-! ### FS's invariants -/

theorem FsKept.of_eq {s t : State} (h : FsKept s) (hs : t.src.stream = s.src.stream)
    (hf : t.fs = { s.fs with frameOut := t.fs.frameOut }) : FsKept t := by
  obtain ⟨h1, h2⟩ := h
  refine ⟨?_, ?_⟩
  · unfold FsSound at h1 ⊢; rw [hf]; exact h1
  · intro hp
    obtain ⟨fs, hc, he⟩ := h2 (by rw [hf] at hp; exact hp)
    refine ⟨fs, hc, ?_⟩
    unfold heldBytes at he ⊢
    rw [hs, he, hf]

theorem pushed_kept (f : Bytes) {s : State} (h : FsKept s) : FsKept (pushed f s) :=
  h.of_eq (by rw [pushed_src]) (by rw [pushed_fs])

/-! ### The report -/

theorem throughput_frames (n now t0 d : Nat) : (throughput n now t0 d).frames = n := by
  unfold throughput; split <;> rfl

theorem reported_frames (s : State) : (reported s).pipe.report.map Report.frames = some s.pipe.fcount := by
  simp [reported, throughput_frames]

theorem pushed_report_sound (f : Bytes) (s : State) : ReportSound (pushed f s) := by
  intro _ h
  rw [pushed_fcount] at h ⊢
  unfold pushed
  dsimp only
  split
  · exact reported_frames _
  · rename_i hn; exact absurd h hn

theorem reported_sound (s : State) : ReportSound (reported s) := fun _ _ => reported_frames s

theorem workerStarted_report_sound (s : State) : ReportSound (workerStarted s) := fun h _ => absurd rfl h

/-- Where the reports are sound none is due outside CP.PUSH (R184). -/
theorem ReportSound.not_due {s : State} (h : ReportSound s) : reportDue s = false := by
  rw [← Bool.not_eq_true, reportDue_eq_true]
  rintro ⟨h1, h2, h3⟩
  exact h3 (h h1 h2)

theorem ReportSound.of_eq {s t : State} (h : ReportSound s) (h1 : t.pipe.fcount = s.pipe.fcount)
    (h2 : t.pipe.report = s.pipe.report) : ReportSound t := by
  unfold ReportSound at h ⊢; rw [h1, h2]; exact h

end Machine
end Sys2Proof
end

