-- ==== Sys2Proof/Laws/Progress.lean ====
section
/-! SUPPORT. The loop of CATCH answers a next state and uses up the replies on hand: a measure that every step
lowers; and what CATCH has done where it rests (R125, R131, R137). -/

namespace Sys2Proof
namespace Machine

/-- In phase EMIT there is a match to cut at (R31). -/
def EmitReady (s : State) : Prop := s.fs.phase = .emit → s.fs.found.isSome = true

theorem fsPolled_ready {s : State} (hp : s.fs.phase = .poll) : EmitReady (fsPolled s) := by
  intro h; rcases fsPolled_phase hp with e | e | e <;> rw [e] at h <;> cases h

theorem fsReadDone_ready (m : Nat) {s : State} (hp : s.fs.phase = .read) : EmitReady (fsReadDone m s) := by
  intro h; rcases fsReadDone_phase m hp with ⟨e, -⟩ | e | e <;> rw [e] at h <;> cases h

theorem fsScanned_ready (s : State) : EmitReady (fsScanned s) := by
  intro h
  rcases fsScanned_phase s with e | ⟨_, e⟩
  · rw [e] at h; cases h
  · exact e

theorem fsStarted_ready (s : State) : EmitReady (fsStarted s) := by intro h; cases h

theorem fsEmitted_completes {s : State} (h : EmitReady s) (hp : s.fs.phase = .emit) :
    ∃ t, fsEmitted s = .next t := by
  obtain ⟨i, hi⟩ := Option.isSome_iff_exists.mp (h hp)
  exact ⟨_, by simp only [fsEmitted, hi]; rfl⟩

theorem fsEmitted_phase {s t : State} (h : fsEmitted s = .next t) :
    t.fs.phase = .idle ∧ t.fs.frameOut.isSome = true ∧ t.src = s.src := by
  obtain ⟨i, -, rfl⟩ := fsEmitted_eq_next h
  exact ⟨rfl, rfl, rfl⟩

/-- The answers still on hand after one `available()`. -/
theorem afterAvail_onHand {s : State} (h : s.src.avails ≠ []) :
    answersOnHand (afterAvail s) + 1 = answersOnHand s := by
  unfold afterAvail answersOnHand
  split
  · simp_all
    omega
  · simp_all

theorem cost_left {m : Nat} (hm : 0 < m) (r : ReadReply) :
    ((ReadReply.left m r).map ReadReply.cost).sum < ReadReply.cost r := by
  cases r with
  | linkError => simp [ReadReply.left, ReadReply.cost]
  | silent => simp [ReadReply.left, ReadReply.cost]
  | chunk bs =>
    unfold ReadReply.left
    dsimp only
    split
    · simp [ReadReply.cost]
    · simp [ReadReply.cost]; omega

/-- The answers still on hand after one `read`. -/
theorem afterRead_onHand {m : Nat} (hm : 0 < m) {s : State} (h : s.src.reads ≠ []) :
    answersOnHand (afterRead m s) < answersOnHand s := by
  unfold afterRead
  cases hr : s.src.reads with
  | nil => exact absurd hr h
  | cons r rs =>
    have := cost_left hm r
    dsimp only
    split <;> simp [answersOnHand, hr, List.sum_append] <;> omega

theorem fsPolled_src (s : State) : (fsPolled s).src = (afterAvail s).src := by
  unfold fsPolled; split <;> rfl

theorem fsReadDone_src (m : Nat) (s : State) : (fsReadDone m s).src = (afterRead m s).src := by
  unfold fsReadDone; split
  · rfl
  · rfl
  · split <;> rfl

theorem answersOnHand_src {s t : State} (h : t.src = s.src) : answersOnHand t = answersOnHand s := by
  unfold answersOnHand; rw [h]

/-- How far a phase is from rest, for CATCH. -/
def catchRank : FsPhase → Nat
  | .scan => 2
  | .emit => 1
  | _ => 0

/-- What CATCH still has to do. -/
def catchWork (s : State) : Nat := 3 * answersOnHand s + catchRank s.fs.phase

theorem catchLoop_completes (n : Nat) {s : State} (hr : EmitReady s) (hn : catchWork s < n) :
    ∃ t, catchLoop n s = .next t ∧ CatchRests t := by
  induction n generalizing s with
  | zero => omega
  | succ n ih =>
    unfold catchLoop
    split
    · rename_i hk; exact ⟨s, rfl, Or.inr (Or.inr (Or.inl hk))⟩
    cases hp : s.fs.phase with
    | idle => exact ⟨s, rfl, Or.inl hp⟩
    | fault => exact ⟨s, rfl, Or.inr (Or.inl hp)⟩
    | poll =>
      dsimp only
      by_cases ha : s.src.avails = []
      · exact ⟨s, by simp [ha], Or.inr (Or.inr (Or.inr (Or.inl ⟨hp, ha⟩)))⟩
      · rw [if_neg (by simpa using ha)]
        refine ih (fsPolled_ready hp) ?_
        have := afterAvail_onHand ha
        have e := answersOnHand_src (fsPolled_src s)
        unfold catchWork at hn ⊢
        rcases fsPolled_phase hp with h | h | h <;> simp [h, catchRank, hp] at hn ⊢ <;> omega
    | read =>
      dsimp only
      by_cases ha : s.src.reads = []
      · exact ⟨s, by simp [ha], Or.inr (Or.inr (Or.inr (Or.inr (Or.inl ⟨hp, ha⟩))))⟩
      · rw [if_neg (by simpa using ha)]
        refine ih (fsReadDone_ready _ hp) ?_
        have := afterRead_onHand (m := Config.CHUNK_MAX) (by decide) ha
        have e := answersOnHand_src (fsReadDone_src Config.CHUNK_MAX s)
        unfold catchWork at hn ⊢
        rcases fsReadDone_phase Config.CHUNK_MAX hp with ⟨h, -⟩ | h | h <;>
          simp [h, catchRank, hp] at hn ⊢ <;> omega
    | scan =>
      dsimp only
      refine ih (fsScanned_ready s) ?_
      have e : answersOnHand (fsScanned s) = answersOnHand s := answersOnHand_src rfl
      unfold catchWork at hn ⊢
      rcases fsScanned_phase s with h | ⟨h, -⟩ <;> simp [h, catchRank, hp] at hn ⊢ <;> omega
    | emit =>
      dsimp only
      split
      · rename_i hf
        exact ⟨s, rfl, Or.inr (Or.inr (Or.inr (Or.inr (Or.inr ⟨hp, by rintro e; simp [e] at hf⟩))))⟩
      · obtain ⟨t, ht⟩ := fsEmitted_completes hr hp
        exact ⟨t, ht, Or.inl (fsEmitted_phase ht).1⟩

theorem catchFuel_enough (s : State) : catchWork (fsStarted s) < catchFuel s := by
  have e : answersOnHand (fsStarted s) = answersOnHand s := answersOnHand_src rfl
  show 3 * answersOnHand (fsStarted s) + 0 < 3 * answersOnHand s + 3
  omega

end Machine
end Sys2Proof
end

