-- ==== Sys2Proof/Laws/Catch.lean ====
section
/-! SUPPORT. What the loop of CATCH does on replies on hand: any number of polls answered 0, then a read, then a
scan of the whole of ACC, pass after pass, until the first scan that matches, a failure, an overflow, or a
transaction that is never answered (R125, R129, R133, R137); and where it stands in every case. -/

namespace Sys2Proof
namespace Machine

/-- A poll answered by an answer on hand. -/
theorem fsPolled_onHand {s : State} {n : Nat} {rs : List AvailReply} (h : s.src.avails = .count n :: rs) :
    fsPolled s = (s.setSrc { s.src with avails := rs }).setFs
      { s.fs with avail := n, phase := if n = 0 then .poll else .read } := by
  simp [fsPolled, availAnswer, afterAvail, h]

theorem overflows_eq_false {s : State} {n : Nat} : overflows s n = false ↔ Fits s (s.fs.acc.length + n) := by
  unfold overflows Fits
  cases s.params.accCap <;> simp

/-- A read answered by a chunk on hand that one read and ACC can hold. -/
theorem fsReadDone_onHand {s : State} {c : Bytes} {rs : List ReadReply} (h : s.src.reads = .chunk c :: rs)
    (hc : c.length ≤ Config.CHUNK_MAX) (hcap : Fits s (s.fs.acc.length + c.length)) :
    fsReadDone Config.CHUNK_MAX s =
      (s.setSrc { s.src with reads := rs, stream := s.src.stream ++ c }).setFs
        { s.fs with chunk := c, acc := s.fs.acc ++ c, phase := .scan } := by
  have ht : c.take Config.CHUNK_MAX = c := List.take_of_length_le hc
  simp [fsReadDone, readAnswer, afterRead, h, ReadReply.upTo, ReadReply.left, ht, hc, overflows_eq_false.mpr hcap]
  rfl

/-- A read answered by a chunk on hand that ACC cannot hold (R205). -/
theorem fsReadDone_overflow {s : State} {c : Bytes} {rs : List ReadReply} (h : s.src.reads = .chunk c :: rs)
    (hc : c.length ≤ Config.CHUNK_MAX) (hcap : ¬ Fits s (s.fs.acc.length + c.length)) :
    fsReadDone Config.CHUNK_MAX s =
      (s.setSrc { s.src with reads := rs, stream := s.src.stream ++ c }).setFs
        { s.fs with chunk := c, fault := .bufferOverflow, phase := .fault } := by
  have ht : c.take Config.CHUNK_MAX = c := List.take_of_length_le hc
  have ho : overflows s c.length = true := by
    rw [← Bool.not_eq_false]; exact fun e => hcap (overflows_eq_false.mp e)
  simp [fsReadDone, readAnswer, afterRead, h, ReadReply.upTo, ReadReply.left, ht, hc, ho, raiseFs]
  rfl

/-! ### Where CATCH stands -/

/-- What the loop of CATCH keeps: where it stands, and in phase EMIT the match that FS.EMIT cuts at. -/
def CatchAt (s u : State) : Prop :=
  (∃ more, u.src.stream = s.src.stream ++ more ∧ CatchStands s more u) ∧ u.params = s.params ∧
    (u.fs.phase = .emit → (findFirst u.fs.acc Config.MARKER).isSome = true ∧
      u.fs.found = findFirst u.fs.acc Config.MARKER)

theorem fsStarted_at (s : State) : CatchAt s (fsStarted s) :=
  ⟨⟨[], by simp [fsStarted], by simp [CatchStands, fsStarted]⟩, rfl, by simp [fsStarted]⟩

theorem fsPolled_at {s u : State} (h : CatchAt s u) (hp : u.fs.phase = .poll) : CatchAt s (fsPolled u) := by
  obtain ⟨⟨more, h1, h2⟩, h3, -⟩ := h
  simp only [CatchStands, hp] at h2
  refine ⟨⟨more, by rw [fsPolled_src, afterAvail_stream, h1], ?_⟩, by rw [(fsPolled_only u).params, h3], ?_⟩
  · have ha := (afterAvail_onlySource u).fs
    unfold fsPolled
    split
    · simp [CatchStands, ha, h2]
    · simp [CatchStands, ha, hp, h2]
    · rename_i n _; by_cases hn : n = 0 <;> simp [CatchStands, hn, h2]
  · intro e; rcases fsPolled_phase hp with h | h | h <;> rw [h] at e <;> cases e

theorem fsReadDone_at (m : Nat) {s u : State} (h : CatchAt s u) (hp : u.fs.phase = .read) :
    CatchAt s (fsReadDone m u) := by
  obtain ⟨⟨more, h1, h2⟩, h3, -⟩ := h
  simp only [CatchStands, hp] at h2
  obtain ⟨h2a, h2b, h2c, h2d⟩ := h2
  have ha := (afterRead_onlySource m u).fs
  refine ⟨?_, by rw [(fsReadDone_only m u).params, h3], ?_⟩
  · cases hr : readAnswer m u with
    | linkError =>
      exact ⟨more, by rw [fsReadDone_src, afterRead_stream_fail hr, h1],
        by simp [CatchStands, fsReadDone, hr, ha, h2a, h2b, h2d]⟩
    | silent =>
      exact ⟨more, by rw [fsReadDone_src, afterRead_stream_silent hr, h1],
        by simp [CatchStands, fsReadDone, hr, ha, hp, h2a, h2b, h2c, h2d]⟩
    | chunk c =>
      refine ⟨more ++ c, by rw [fsReadDone_src, afterRead_stream hr, h1, List.append_assoc], ?_⟩
      unfold fsReadDone
      simp only [hr]
      split
      · rename_i ho
        have hn : ¬ Fits s (s.fs.spill ++ (more ++ c)).length := by
          intro hf
          have : overflows u c.length = false := overflows_eq_false.mpr (by
            intro cap hc
            rw [h3] at hc
            have := hf cap hc
            simpa [h2d, Nat.add_assoc] using this)
          rw [this] at ho; cases ho
        simp only [CatchStands, raiseFs_fs, State.setFs_fs, h2a, h2b, h2d, List.append_assoc, true_and]
        exact Or.inr hn
      · simp [CatchStands, h2a, h2b, h2c, h2d]
  · intro e; rcases fsReadDone_phase m hp with ⟨h, -⟩ | h | h <;> rw [h] at e <;> cases e

theorem fsScanned_at {s u : State} (h : CatchAt s u) (hp : u.fs.phase = .scan) : CatchAt s (fsScanned u) := by
  obtain ⟨⟨more, h1, h2⟩, h3, -⟩ := h
  simp only [CatchStands, hp] at h2
  refine ⟨⟨more, h1, ?_⟩, h3, ?_⟩
  · unfold fsScanned
    cases findFirst u.fs.acc Config.MARKER <;> simp [CatchStands, h2]
  · intro e
    rcases fsScanned_phase u with h | ⟨-, h⟩
    · rw [h] at e; cases e
    · exact ⟨h, rfl⟩

theorem fsEmitted_at {s u t : State} (h : CatchAt s u) (hp : u.fs.phase = .emit) (hn : u.fs.frameOut = none)
    (he : fsEmitted u = .next t) : CatchAt s t := by
  obtain ⟨⟨more, h1, h2⟩, h3, h4⟩ := h
  simp only [CatchStands, hp] at h2
  obtain ⟨h2a, h2b, -, h2d⟩ := h2
  obtain ⟨i, hi, rfl⟩ := fsEmitted_eq_next he
  have hm : findFirst u.fs.acc Config.MARKER = some i := by rw [← (h4 hp).2, hi]
  refine ⟨⟨more, h1, ?_⟩, h3, by simp⟩
  simp only [CatchStands, State.setFs_fs]
  refine ⟨by rw [← h2b, hn], _, rfl, frameClean_take hm, ?_⟩
  rw [← h2d]
  exact (findFirst_split hm).1

theorem catchLoop_at (n : Nat) {s u t : State} (hs : CatchAt s u) (h : catchLoop n u = .next t) : CatchAt s t :=
  catchLoop_induct (P := CatchAt s) (fun _ hu hp _ => fsPolled_at hu hp) (fun _ hu hp _ => fsReadDone_at _ hu hp)
    (fun _ hu hp => fsScanned_at hu hp) (fun _ _ hu hp hn he => fsEmitted_at hu hp hn he) n hs h

/-- FS is stuck only inside a transaction. -/
theorem catchLoop_stuck (n : Nat) {s t : State} (hs : s.fs.stuck = true → s.fs.phase = .poll ∨ s.fs.phase = .read)
    (h : catchLoop n s = .next t) : t.fs.stuck = true → t.fs.phase = .poll ∨ t.fs.phase = .read := by
  refine catchLoop_induct (P := fun u => u.fs.stuck = true → u.fs.phase = .poll ∨ u.fs.phase = .read)
    (fun u _ hp hk => ?_) (fun u _ hp hk => ?_) (fun u hu hp hk => ?_) (fun u v hu hp _ he hk => ?_) n hs h
  · have ha := (afterAvail_onlySource u).fs
    unfold fsPolled
    split <;> simp [hp, hk, ha]
  · have ha := (afterRead_onlySource Config.CHUNK_MAX u).fs
    unfold fsReadDone
    split
    · simp [hk, ha]
    · simp [hp, ha]
    · split <;> simp [hk]
  · have := hu hk; simp [hp] at this
  · obtain ⟨i, -, rfl⟩ := fsEmitted_eq_next he
    have := hu hk; simp [hp] at this

/-! ### Pass by pass -/

theorem catchLoop_poll {n : Nat} {s : State} (hp : s.fs.phase = .poll) (hk : s.fs.stuck = false)
    (ha : s.src.avails ≠ []) : catchLoop (n + 1) s = catchLoop n (fsPolled s) := by
  rw [catchLoop, if_neg (by simp [hk]), hp]
  exact if_neg (by simpa using ha)

theorem catchLoop_read {n : Nat} {s : State} (hp : s.fs.phase = .read) (hk : s.fs.stuck = false)
    (ha : s.src.reads ≠ []) : catchLoop (n + 1) s = catchLoop n (fsReadDone Config.CHUNK_MAX s) := by
  rw [catchLoop, if_neg (by simp [hk]), hp]
  exact if_neg (by simpa using ha)

theorem catchLoop_scan {n : Nat} {s : State} (hp : s.fs.phase = .scan) (hk : s.fs.stuck = false) :
    catchLoop (n + 1) s = catchLoop n (fsScanned s) := by
  rw [catchLoop, if_neg (by simp [hk]), hp]

theorem catchLoop_emit {n : Nat} {s : State} (hp : s.fs.phase = .emit) (hk : s.fs.stuck = false)
    (hf : s.fs.frameOut = none) : catchLoop (n + 1) s = fsEmitted s := by
  rw [catchLoop, if_neg (by simp [hk]), hp]
  exact if_neg (by simp [hf])

/-- Where FS has faulted or is stuck the loop stops. -/
theorem catchLoop_stop {n : Nat} {s : State} (h : s.fs.phase = .fault ∨ s.fs.stuck = true) :
    catchLoop n s = .next s := by
  cases n with
  | zero => rfl
  | succ n =>
    rw [catchLoop]
    split
    · rfl
    · rename_i hk
      rcases h with h | h
      · rw [h]
      · exact absurd h hk

/-- The fields of the state that the loop of CATCH has written after passes without a match, everything else as in
`s`; the scratch registers hold something. -/
def afterPasses (s : State) (ps : List Pass) (a : Nat) (c : Bytes) (m : Option Nat) (ra : List AvailReply)
    (rr : List ReadReply) : State :=
  (s.setSrc { avails := ra, reads := rr, stream := s.src.stream ++ passBytes ps }).setFs
    { s.fs with avail := a, chunk := c, found := m, acc := s.fs.acc ++ passBytes ps }

/-- The same up to the scan of the pass `p`. -/
def readPass (s : State) (p : Pass) (ra : List AvailReply) (rr : List ReadReply) : State :=
  (s.setSrc { s.src with avails := ra, reads := rr, stream := s.src.stream ++ p.bytes }).setFs
    { s.fs with avail := p.count + 1, chunk := p.bytes, acc := s.fs.acc ++ p.bytes, phase := .scan }

theorem catchLoop_zeros (z : Nat) {n : Nat} {s : State} {rest : List AvailReply} (hn : z ≤ n)
    (hp : s.fs.phase = .poll) (hk : s.fs.stuck = false)
    (ha : s.src.avails = List.replicate z (.count 0) ++ rest) :
    ∃ a, catchLoop n s = catchLoop (n - z) ((s.setSrc { s.src with avails := rest }).setFs { s.fs with avail := a }) := by
  induction z generalizing n s with
  | zero =>
    refine ⟨s.fs.avail, ?_⟩
    simp only [List.replicate_zero, List.nil_append] at ha
    rw [← ha]; rfl
  | succ z ih =>
    obtain ⟨n, rfl⟩ : ∃ m, n = m + 1 := ⟨n - 1, by omega⟩
    have ha' : s.src.avails = .count 0 :: (List.replicate z (.count 0) ++ rest) := by
      rw [ha, List.replicate_succ]; rfl
    have he := fsPolled_onHand ha'
    obtain ⟨a, h⟩ := ih (n := n) (s := fsPolled s) (by omega) (by rw [he]; rfl) (by rw [he]; exact hk)
      (by rw [he]; rfl)
    refine ⟨a, ?_⟩
    rw [catchLoop_poll hp hk (by rw [ha']; simp), h, he, Nat.succ_sub_succ]
    simp [State.setFs, State.setSrc, hp]

/-- The polls of one pass: FS has an answer that is not 0 and reads next. -/
theorem catchLoop_polled {z k n : Nat} {s : State} {ra : List AvailReply} (hn : z + 1 ≤ n)
    (hp : s.fs.phase = .poll) (hk : s.fs.stuck = false)
    (ha : s.src.avails = List.replicate z (.count 0) ++ (.count (k + 1) :: ra)) :
    catchLoop n s = catchLoop (n - (z + 1)) ((s.setSrc { s.src with avails := ra }).setFs
      { s.fs with avail := k + 1, phase := .read }) := by
  obtain ⟨a, h⟩ := catchLoop_zeros z (n := n) (by omega) hp hk ha
  obtain ⟨m, hm⟩ : ∃ m, n - z = m + 1 := ⟨n - z - 1, by omega⟩
  rw [h, hm, show n - (z + 1) = m by omega]
  refine (catchLoop_poll (by exact hp) (by exact hk) (by simp)).trans ?_
  rw [fsPolled_onHand rfl]
  rfl

/-- One pass, up to its scan. -/
theorem catchLoop_pass (p : Pass) {n : Nat} {s : State} {ra : List AvailReply} {rr : List ReadReply}
    (hn : p.zeros + 3 ≤ n) (hp : s.fs.phase = .poll) (hk : s.fs.stuck = false)
    (hcap : Fits s (s.fs.acc.length + p.bytes.length))
    (ha : s.src.avails = List.replicate p.zeros (.count 0) ++ (.count (p.count + 1) :: ra))
    (hr : s.src.reads = .chunk p.bytes :: rr) (hlen : p.bytes.length ≤ Config.CHUNK_MAX) :
    catchLoop n s = catchLoop (n - (p.zeros + 3)) (fsScanned (readPass s p ra rr)) := by
  obtain ⟨m, hm⟩ : ∃ m, n - (p.zeros + 1) = m + 2 := ⟨n - p.zeros - 3, by omega⟩
  rw [catchLoop_polled (by omega) hp hk ha, hm, show n - (p.zeros + 3) = m by omega]
  refine (catchLoop_read rfl (by exact hk) (by simp [hr])).trans ?_
  refine (congrArg (catchLoop (m + 1))
    (fsReadDone_onHand (c := p.bytes) (rs := rr) (by exact hr) hlen (by exact hcap))).trans ?_
  exact catchLoop_scan rfl (by exact hk)

/-- Passes after none of whose reads ACC holds a marker. -/
theorem catchLoop_unmatched (ps : List Pass) {n : Nat} {s : State} {ra : List AvailReply} {rr : List ReadReply}
    (hn : (ps.map (fun q => q.zeros + 3)).sum ≤ n) (hp : s.fs.phase = .poll) (hk : s.fs.stuck = false)
    (hcap : Fits s (s.fs.acc.length + (passBytes ps).length))
    (ha : s.src.avails = passAvails ps ++ ra) (hr : s.src.reads = passReads ps ++ rr)
    (hlen : ∀ q ∈ ps, q.bytes.length ≤ Config.CHUNK_MAX)
    (hno : ∀ k, 0 < k → k ≤ ps.length → findFirst (s.fs.acc ++ passBytes (ps.take k)) Config.MARKER = none) :
    ∃ a c m, catchLoop n s =
      catchLoop (n - (ps.map (fun q => q.zeros + 3)).sum) (afterPasses s ps a c m ra rr) := by
  induction ps generalizing n s with
  | nil =>
    refine ⟨s.fs.avail, s.fs.chunk, s.fs.found, ?_⟩
    simp only [passAvails, passReads, List.map_nil, List.nil_append] at ha hr
    simp [afterPasses, passBytes, ← ha, ← hr, State.setFs, State.setSrc]
  | cons q ps ih =>
    simp only [List.map_cons, List.sum_cons, passAvails, passReads, passBytes, List.append_assoc, List.cons_append,
      List.forall_mem_cons, List.length_cons, List.length_append] at *
    rw [catchLoop_pass q (by omega) hp hk (fun cap hc => by have := hcap cap hc; omega) ha hr hlen.1]
    have hnone : findFirst (s.fs.acc ++ q.bytes) Config.MARKER = none := by
      simpa [passBytes] using hno 1 (by omega) (by omega)
    have hacc : (fsScanned (readPass s q (passAvails ps ++ ra) (passReads ps ++ rr))).fs.acc
        = s.fs.acc ++ q.bytes := rfl
    obtain ⟨a, c, m, key⟩ := ih (n := n - (q.zeros + 3))
      (s := fsScanned (readPass s q (passAvails ps ++ ra) (passReads ps ++ rr)))
      (by omega) (by simp [fsScanned, readPass, hnone]) hk
      (by rw [hacc]; intro cap hc; have := hcap cap hc; simp; omega) rfl rfl hlen.2
      (fun k hk hk' => by
        rw [hacc, List.append_assoc]
        simpa [passBytes] using hno (k + 1) (by omega) (by omega))
    refine ⟨a, c, m, ?_⟩
    unfold passReads at key
    rw [key, Nat.sub_sub]
    congr 1
    simp [afterPasses, fsScanned, readPass, passBytes, hnone, State.setFs, State.setSrc, hp]

/-- The fields of the state that a CATCH that ends has written, everything else as in `s`. -/
def caught (s : State) (avail : Nat) (chunk acc : Bytes) (i : Nat) (avails : List AvailReply)
    (reads : List ReadReply) (stream : Bytes) : State :=
  (s.setSrc { s.src with avails := avails, reads := reads, stream := stream }).setFs
    { s.fs with avail := avail, chunk := chunk, acc := acc, found := some i, frameOut := some (acc.take i),
                spill := acc.drop (i + Config.MARKER_LEN), phase := .idle }

theorem passAvails_append (a b : List Pass) : passAvails (a ++ b) = passAvails a ++ passAvails b := by
  induction a with
  | nil => rfl
  | cons p a ih => simp [passAvails, ih]

theorem passReads_append (a b : List Pass) : passReads (a ++ b) = passReads a ++ passReads b := by simp [passReads]

theorem passBytes_append (a b : List Pass) : passBytes (a ++ b) = passBytes a ++ passBytes b := by
  induction a with
  | nil => rfl
  | cons p a ih => simp [passBytes, ih]

/-- R125 on answers on hand. -/
theorem catchLoop_passes (ps : List Pass) {p : Pass} {n i : Nat} {s : State} {ra : List AvailReply}
    {rr : List ReadReply} (hn : ((ps ++ [p]).map (fun q => q.zeros + 3)).sum + 1 ≤ n)
    (hp : s.fs.phase = .poll) (hk : s.fs.stuck = false) (hf : s.fs.frameOut = none)
    (hcap : Fits s (s.fs.acc ++ passBytes (ps ++ [p])).length)
    (ha : s.src.avails = passAvails (ps ++ [p]) ++ ra) (hr : s.src.reads = passReads (ps ++ [p]) ++ rr)
    (hlen : ∀ q ∈ ps ++ [p], q.bytes.length ≤ Config.CHUNK_MAX)
    (hno : ∀ k, 0 < k → k ≤ ps.length → findFirst (s.fs.acc ++ passBytes (ps.take k)) Config.MARKER = none)
    (hyes : findFirst (s.fs.acc ++ passBytes (ps ++ [p])) Config.MARKER = some i) :
    catchLoop n s = .next (caught s (p.count + 1) p.bytes (s.fs.acc ++ passBytes (ps ++ [p])) i ra rr
      (s.src.stream ++ passBytes (ps ++ [p]))) := by
  rw [passAvails_append, List.append_assoc] at ha
  rw [passReads_append, List.append_assoc] at hr
  rw [passBytes_append] at hcap hyes ⊢
  simp only [List.map_append, List.map_cons, List.map_nil, List.sum_append, List.sum_cons, List.sum_nil,
    List.length_append, passBytes, List.append_nil] at hn hcap hyes ⊢
  obtain ⟨a, c, m, h⟩ := catchLoop_unmatched ps (n := n) (by omega) hp hk
    (fun cap hc => by have := hcap cap hc; omega) ha hr (fun q hq => hlen q (by simp [hq])) hno
  obtain ⟨k, hk'⟩ : ∃ k, n - (ps.map (fun q => q.zeros + 3)).sum - (p.zeros + 3) = k + 1 :=
    ⟨n - (ps.map (fun q => q.zeros + 3)).sum - (p.zeros + 3) - 1, by omega⟩
  have key := catchLoop_pass p (n := n - (ps.map (fun q => q.zeros + 3)).sum)
    (s := afterPasses s ps a c m (passAvails [p] ++ ra) (passReads [p] ++ rr)) (ra := ra) (rr := rr) (by omega) hp hk
    (fun cap hc => by have := hcap cap hc; simp [afterPasses]; omega)
    (by simp [afterPasses, passAvails]) (by simp [afterPasses, passReads]) (hlen p (by simp))
  have hyes' := hyes
  rw [← List.append_assoc] at hyes'
  rw [h, key, hk']
  refine (catchLoop_emit (by simp [fsScanned, readPass, afterPasses, hyes]) (by exact hk) (by exact hf)).trans ?_
  simp only [fsEmitted, fsScanned, readPass, afterPasses, State.setFs_fs, hyes']
  simp [caught, State.setFs, State.setSrc]

/-- Steps enough for passes and one transaction more. -/
theorem catchFuel_passes (ps : List Pass) (z : Nat) {s : State} {la : List AvailReply} {rr : List ReadReply}
    (ha : s.src.avails = passAvails ps ++ (List.replicate z (.count 0) ++ la)) (hr : s.src.reads = passReads ps ++ rr) :
    (ps.map (fun q => q.zeros + 3)).sum + 3 * z + 3 * la.length + 3 * (rr.map ReadReply.cost).sum + 3 ≤
      catchFuel s := by
  have key : (ps.map (fun q => q.zeros + 3)).sum ≤
      3 * ((passAvails ps).length + ((passReads ps).map ReadReply.cost).sum) := by
    clear ha hr
    induction ps with
    | nil => simp
    | cons p ps ih =>
      simp [passAvails, passReads, ReadReply.cost] at ih ⊢
      omega
  unfold catchFuel answersOnHand
  rw [ha, hr]
  simp only [List.length_append, List.length_replicate, List.map_append, List.sum_append] at key ⊢
  omega

end Machine
end Sys2Proof
end

