-- ==== Sys2Proof/Laws/Decode.lean ====
section
/-! SUPPORT. Words and their bytes (R64), and the bytes of every row. -/

namespace Sys2Proof

/-- The bytes of a word give the word back in the same order (R64). -/
theorem wordOfBytes_bytesOfWord (o : ByteOrder) (w : Word) :
    ∃ b0 b1 b2 b3, bytesOfWord o w = [b0, b1, b2, b3] ∧ wordOfBytes o b0 b1 b2 b3 = w := by
  cases o
  · refine ⟨_, _, _, _, rfl, ?_⟩
    simp only [wordOfBytes]
    ext i hi
    simp only [BitVec.getElem_append, BitVec.getElem_extractLsb']
    split <;> (try split) <;> (try split) <;> (rw [BitVec.getElem_eq_testBit_toNat]; congr 1; omega)
  · refine ⟨_, _, _, _, rfl, ?_⟩
    simp only [wordOfBytes]
    ext i hi
    simp only [BitVec.getElem_append, BitVec.getElem_extractLsb']
    split <;> (try split) <;> (try split) <;> (rw [BitVec.getElem_eq_testBit_toNat]; congr 1; omega)

/-- The word of four bytes gives the bytes back in the same order (R64). -/
theorem bytesOfWord_wordOfBytes (o : ByteOrder) (b0 b1 b2 b3 : Byte) :
    bytesOfWord o (wordOfBytes o b0 b1 b2 b3) = [b0, b1, b2, b3] := by
  cases o <;> simp only [wordOfBytes, bytesOfWord, List.cons.injEq, and_true] <;>
    refine ⟨?_, ?_, ?_, ?_⟩ <;>
    (ext i hi
     simp only [BitVec.getElem_extractLsb', BitVec.getLsbD_append]
     interval_cases i <;> simp)

/-- A word's bytes are four. -/
theorem bytesOfWord_length (o : ByteOrder) (w : Word) : (bytesOfWord o w).length = 4 := by cases o <;> rfl

/-- What a label of the table names, row by row (R100). -/
theorem decodeOpc_mem {b : Byte} {i : Instr} (h : decodeOpc b = some i) : (b, i) ∈ opcTable := by
  unfold decodeOpc at h
  obtain ⟨row, hr, rfl⟩ := Option.map_eq_some_iff.mp h
  have hm := List.mem_of_find?_eq_some hr
  have hb : row.1 = b := by simpa using List.find?_some hr
  rw [← hb]; exact hm

end Sys2Proof
end

