-- ==== Sys2Proof/Laws/Memory.lean ====
section
/-! SUPPORT. The pixel memory: a read after a write, and the canonical form kept by every write. -/

namespace Sys2Proof
namespace Machine

@[simp] theorem Memory.read_nil (a : Nat) : Memory.read [] a = none := rfl

theorem Memory.read_write_same (m : Memory) (a : Nat) (v : Byte) : (m.write a v).read a = some v := by
  induction m with
  | nil => simp [Memory.write, Memory.read]
  | cons c m ih =>
    obtain ⟨b, w⟩ := c
    unfold Memory.write
    split
    · simp [Memory.read]
    · split
      · simp [Memory.read]
      · simp [Memory.read, *]

theorem Memory.read_write_other (m : Memory) {a b : Nat} (v : Byte) (h : b ≠ a) :
    (m.write a v).read b = m.read b := by
  induction m with
  | nil => simp [Memory.write, Memory.read, h]
  | cons c m ih =>
    obtain ⟨d, w⟩ := c
    unfold Memory.write
    split
    · simp [Memory.read, h]
    · split
      · subst a; simp [Memory.read, h]
      · simp only [Memory.read, ih]

/-- A read after a write, in one equation. -/
theorem Memory.read_write (m : Memory) (a b : Nat) (v : Byte) :
    (m.write a v).read b = if b = a then some v else m.read b := by
  split
  · subst b; exact m.read_write_same a v
  · exact m.read_write_other v ‹_›

theorem Memory.rising_write (m : Memory) (a : Nat) (v : Byte) (lo : Option Nat)
    (hlo : ∀ l, lo = some l → l < a) (h : Memory.rising lo m = true) :
    Memory.rising lo (m.write a v) = true := by
  induction m generalizing lo with
  | nil => cases lo <;> simp_all [Memory.write, Memory.rising]
  | cons c m ih =>
    obtain ⟨b, w⟩ := c
    have hb : ∀ l, lo = some l → l < b := by
      intro l hl; subst hl; simp [Memory.rising] at h; exact h.1
    have hm : Memory.rising (some b) m = true := by
      cases lo <;> simp_all [Memory.rising]
    unfold Memory.write
    split
    · cases lo <;> simp_all [Memory.rising]
    · split
      · subst a; cases lo <;> simp_all [Memory.rising]
      · have := ih (some b) (by intro l hl; injection hl; omega) hm
        cases lo <;> simp_all [Memory.rising]

theorem Memory.all_write (m : Memory) (a : Nat) (v : Byte) (p : Nat → Bool) (ha : p a = true)
    (h : m.all (fun c => p c.1) = true) : (m.write a v).all (fun c => p c.1) = true := by
  induction m with
  | nil => simp [Memory.write, ha]
  | cons c m ih =>
    obtain ⟨b, w⟩ := c
    simp only [List.all_cons, Bool.and_eq_true] at h
    unfold Memory.write
    split
    · simp only [List.all_cons, Bool.and_eq_true]
      exact ⟨ha, h⟩
    · split
      · simp only [List.all_cons, Bool.and_eq_true]
        exact ⟨ha, h.2⟩
      · simp only [List.all_cons, Bool.and_eq_true]
        exact ⟨h.1, ih h.2⟩

/-- Every write inside PIX keeps the canonical form (R63). -/
theorem Memory.wf_write (m : Memory) (a : Nat) (v : Byte) (ha : a < Config.PIX_BYTES) (h : m.wf = true) :
    (m.write a v).wf = true := by
  simp only [Memory.wf, Bool.and_eq_true] at h ⊢
  exact ⟨Memory.rising_write m a v none (by simp) h.1,
    Memory.all_write m a v (fun n => decide (n < Config.PIX_BYTES)) (by simpa using ha) h.2⟩

/-- The memory after reset has the canonical form. -/
theorem Memory.wf_reset : State.reset.pix.wf = true := by decide

theorem read_writePixel (n : Nat) (r g b a : Byte) (m : Memory) (k : Nat) :
    (writePixel n r g b a m).read k =
      if k = 4 * n + 3 then some a else if k = 4 * n + 2 then some b
      else if k = 4 * n + 1 then some g else if k = 4 * n then some r else m.read k := by
  simp [writePixel, Memory.read_write]

theorem wf_writePixel (n : Nat) (r g b a : Byte) (m : Memory) (hn : n < Config.PIXELS) (h : m.wf = true) :
    (writePixel n r g b a m).wf = true := by
  simp only [Config.PIXELS] at hn
  have e (k : Nat) (hk : k ≤ 3) : 4 * n + k < Config.PIX_BYTES := by simp only [Config.PIX_BYTES]; omega
  exact Memory.wf_write _ _ _ (e 3 (by omega)) (Memory.wf_write _ _ _ (e 2 (by omega))
    (Memory.wf_write _ _ _ (e 1 (by omega)) (Memory.wf_write _ _ _ (e 0 (by omega)) h)))

end Machine
end Sys2Proof
end

