-- ==== Sys2Proof/Laws/PixelDecoder.lean ====
section
/-! SUPPORT. Unit PD: the destination of a sample (R28), what one sample, one word and a whole DECODE do (R156,
R159, R162), what they leave alone, and that each step keeps the unit's invariants. -/

namespace Sys2Proof
namespace Machine

/-! ### Arithmetic of places -/

/-- R28: `off = 4 * (DUMPED / 3) + DUMPED mod 3`. -/
theorem pixelOffset_eq (d : Nat) : pixelOffset d = 4 * (d / 3) + d % 3 := by
  simp only [pixelOffset, Config.WIDTH]; omega

theorem pixelOffset_lt {d : Nat} (h : d < Config.TARGET) : pixelOffset d < Config.PIX_BYTES := by
  simp only [Config.TARGET] at h
  simp only [pixelOffset_eq, Config.PIX_BYTES]; omega

theorem pixelOffset_inj {a b : Nat} (h : pixelOffset a = pixelOffset b) : a = b := by
  simp only [pixelOffset_eq] at h; omega

/-- PD never writes an alpha byte (R63). -/
theorem pixelOffset_alpha (d : Nat) : pixelOffset d % 4 ≠ 3 := by
  simp only [pixelOffset_eq]; omega

@[simp] theorem samplesOf_length (w : Word) : (samplesOf w).length = 15 := rfl

theorem samplesOf_get (w : Word) {j : Nat} (h : j < 15) : (samplesOf w)[j]? = some (slot w j) := by
  unfold samplesOf
  interval_cases j <;> rfl

/-- A frame that is long enough has the word. -/
theorem frameWord_isSome {o : ByteOrder} {f : Bytes} {k : Nat} (h : 4 * k + 4 ≤ f.length) :
    ∃ w, frameWord o f k = some w := by
  unfold frameWord
  have : 4 ≤ (f.drop (4 * k)).length := by simp; omega
  match hd : f.drop (4 * k), this with
  | b0 :: b1 :: b2 :: b3 :: _, _ => exact ⟨_, rfl⟩

theorem wellFormedFrame_iff {f : Bytes} :
    wellFormedFrame f = true ↔ f.length % 4 = 0 ∧ 57344 ≤ f.length := by
  unfold wellFormedFrame
  rw [Bool.and_eq_true, beq_iff_eq, decide_eq_true_eq]
  simp only [Config.WORDS_PER_FRAME]
  omega

theorem wellFormedFrame_word {o : ByteOrder} {f : Bytes} {k : Nat} (h : wellFormedFrame f = true)
    (hk : k < 14336) : ∃ w, frameWord o f k = some w := by
  have := wellFormedFrame_iff.mp h
  exact frameWord_isSome (by omega)

/-! ### What PD leaves alone -/

theorem PdOnly.refl (s : State) : PdOnly s s := by constructor <;> rfl

theorem PdOnly.trans {s t u : State} (h : PdOnly s t) (k : PdOnly t u) : PdOnly s u :=
  ⟨k.fs.trans h.fs, k.src.trans h.src, k.params.trans h.params, k.q.trans h.q, k.fcount.trans h.fcount,
    k.t0.trans h.t0, k.running.trans h.running, k.report.trans h.report, k.env.trans h.env,
    k.stopped.trans h.stopped⟩

@[simp] theorem notePar_frm (p : Slot) (x : PdUnit) : (notePar p x).frm = x.frm := by unfold notePar; split <;> rfl
@[simp] theorem notePar_cursor (p : Slot) (x : PdUnit) : (notePar p x).cursor = x.cursor := by
  unfold notePar; split <;> rfl
@[simp] theorem notePar_dumped (p : Slot) (x : PdUnit) : (notePar p x).dumped = x.dumped := by
  unfold notePar; split <;> rfl
@[simp] theorem notePar_phase (p : Slot) (x : PdUnit) : (notePar p x).phase = x.phase := by
  unfold notePar; split <;> rfl
@[simp] theorem notePar_fault (p : Slot) (x : PdUnit) : (notePar p x).fault = x.fault := by
  unfold notePar; split <;> rfl
@[simp] theorem notePar_stopped (p : Slot) (x : PdUnit) : (notePar p x).stopped = x.stopped := by
  unfold notePar; split <;> rfl
theorem notePar_perrCnt (p : Slot) (x : PdUnit) :
    (notePar p x).perrCnt = x.perrCnt + (if p = 0#2 then 0 else 1) := by unfold notePar; split <;> rfl
theorem notePar_perr (p : Slot) (x : PdUnit) :
    (notePar p x).perr = (x.perr || decide (p ≠ 0#2)) := by unfold notePar; split <;> simp_all

theorem takeParity_only (p : Slot) (s : State) : PdOnly s (takeParity p s) := by
  constructor <;> try rfl
  unfold takeParity; dsimp only; split <;> simp [pdFinished]

@[simp] theorem takeParity_pix (p : Slot) (s : State) : (takeParity p s).pix = s.pix := rfl
@[simp] theorem takeParity_pipe (p : Slot) (s : State) : (takeParity p s).pipe = s.pipe := rfl

theorem pdStarted_only (f : Bytes) (s : State) : PdOnly s (pdStarted f s) := by constructor <;> rfl

theorem pdChecked_only (f : Bytes) (s : State) : PdOnly s (pdChecked f s) := by
  unfold pdChecked; split <;> constructor <;> rfl

@[simp] theorem pdStarted_pix (f : Bytes) (s : State) : (pdStarted f s).pix = s.pix := rfl
@[simp] theorem pdChecked_pix (f : Bytes) (s : State) : (pdChecked f s).pix = s.pix := by
  unfold pdChecked; split <;> rfl
@[simp] theorem pdChecked_pipe (f : Bytes) (s : State) : (pdChecked f s).pipe = s.pipe := by
  unfold pdChecked; split <;> rfl

theorem putSample_eq_next {v : Slot} {s t : State} (h : putSample v s = .next t) :
    pixelOffset s.pd.dumped < Config.PIX_BYTES ∧
    t = (s.setPix (s.pix.write (pixelOffset s.pd.dumped) (scale v))).setPd
      { s.pd with dumped := s.pd.dumped + 1, cursor := s.pd.cursor + 2 } := by
  unfold putSample at h
  split at h
  · exact ⟨‹_›, by simpa using h.symm⟩
  · cases h

theorem putSample_next {v : Slot} {s : State} (h : s.pd.dumped < Config.TARGET) :
    putSample v s = .next ((s.setPix (s.pix.write (pixelOffset s.pd.dumped) (scale v))).setPd
      { s.pd with dumped := s.pd.dumped + 1, cursor := s.pd.cursor + 2 }) := by
  simp [putSample, pixelOffset_lt h]

/-! ### One word -/

/-- What one step over one sample keeps, a run of samples keeps. -/
theorem putSamples_induct {P : State → Prop} (step : ∀ v s t, P s → putSample v s = .next t → P t)
    (vs : List Slot) {s t : State} (hs : P s) (h : putSamples vs s = .next t) : P t := by
  induction vs generalizing s with
  | nil => simp only [putSamples, Host.Outcome.next.injEq] at h; exact h ▸ hs
  | cons v vs ih =>
    obtain ⟨u, hu, h⟩ := andThen_eq_next.mp h
    exact ih (step v s u hs hu) h

/-- What a run of samples does (R156, R159): the counters, the bytes written, every other byte as before. -/
theorem putSamples_spec (vs : List Slot) (s : State) (h : s.pd.dumped + vs.length ≤ Config.TARGET) :
    ∃ m, putSamples vs s = .next ((s.setPix m).setPd
        { s.pd with dumped := s.pd.dumped + vs.length, cursor := s.pd.cursor + 2 * vs.length }) ∧
      (∀ k v, vs[k]? = some v → m.read (pixelOffset (s.pd.dumped + k)) = some (scale v)) ∧
      (∀ a, (∀ k, k < vs.length → a ≠ pixelOffset (s.pd.dumped + k)) → m.read a = s.pix.read a) ∧
      (s.pix.wf = true → m.wf = true) := by
  induction vs generalizing s with
  | nil => exact ⟨s.pix, by simp [putSamples]; rfl, by simp, by simp, id⟩
  | cons v vs ih =>
    simp only [List.length_cons] at h
    have hd : s.pd.dumped < Config.TARGET := by omega
    obtain ⟨m, h1, h2, h3, h4⟩ := ih _ (show (((s.setPix (s.pix.write (pixelOffset s.pd.dumped) (scale v))).setPd
      { s.pd with dumped := s.pd.dumped + 1, cursor := s.pd.cursor + 2 }).pd.dumped + vs.length ≤ Config.TARGET) by
        simp; omega)
    simp only [State.setPd_pd, State.setPd_pix, State.setPix_pix] at h1 h2 h3 h4
    refine ⟨m, ?_, ?_, ?_, ?_⟩
    · rw [putSamples, putSample_next hd, andThen_next, h1]
      simp only [State.setPix, State.setPd, List.length_cons]
      congr 3 <;> omega
    · intro k w hk
      cases k with
      | zero =>
        simp only [List.getElem?_cons_zero, Option.some.injEq] at hk
        subst hk
        rw [Nat.add_zero, h3, Memory.read_write_same]
        intro k hk e
        have := pixelOffset_inj e; omega
      | succ k =>
        simp only [List.getElem?_cons_succ] at hk
        have := h2 k w hk
        rwa [show s.pd.dumped + (k + 1) = s.pd.dumped + 1 + k by omega]
    · intro a ha
      rw [h3, Memory.read_write_other]
      · simpa using ha 0 (by simp)
      · intro k hk
        have := ha (k + 1) (by simp; omega)
        rwa [show s.pd.dumped + (k + 1) = s.pd.dumped + 1 + k by omega] at this
    · intro hw
      exact h4 (Memory.wf_write _ _ _ (pixelOffset_lt hd) hw)

/-- What a whole word does (R159). -/
theorem putWord_spec (w : Word) (s : State) (h : s.pd.dumped + 15 ≤ Config.TARGET) :
    ∃ m, putWord w s = .next (takeParity (paritySlot w) ((s.setPix m).setPd
        { s.pd with dumped := s.pd.dumped + 15, cursor := s.pd.cursor + 30 })) ∧
      (∀ j, j < 15 → m.read (pixelOffset (s.pd.dumped + j)) = some (scale (slot w j))) ∧
      (∀ a, (∀ j, j < 15 → a ≠ pixelOffset (s.pd.dumped + j)) → m.read a = s.pix.read a) ∧
      (s.pix.wf = true → m.wf = true) := by
  obtain ⟨m, h1, h2, h3, h4⟩ := putSamples_spec (samplesOf w) s (by simpa using h)
  refine ⟨m, ?_, fun j hj => h2 j _ (samplesOf_get w hj), fun a ha => h3 a (by simpa using ha), h4⟩
  simp only [putWord, h1, andThen_next, samplesOf_length]

theorem putSample_only {v : Slot} {s t : State} (h : putSample v s = .next t) : PdOnly s t := by
  obtain ⟨-, rfl⟩ := putSample_eq_next h
  constructor <;> rfl

theorem putWord_only {w : Word} {s t : State} (h : putWord w s = .next t) : PdOnly s t := by
  obtain ⟨u, hu, h⟩ := andThen_eq_next.mp h
  have h1 : PdOnly s u := putSamples_induct (P := fun u => PdOnly s u)
    (fun v a b ha hb => ha.trans (putSample_only hb)) _ (PdOnly.refl s) hu
  simp only [Host.Outcome.next.injEq] at h
  exact h ▸ h1.trans (takeParity_only _ u)

theorem withWord_eq_next {s t : State} {k : Word → Out} (h : withWord s k = .next t) :
    ∃ w, currentWord s = some w ∧ k w = .next t := by
  unfold withWord at h
  split at h
  · exact ⟨_, ‹_›, h⟩
  · cases h

/-! ### The loop of DECODE -/

/-- What every word keeps, the loop of DECODE keeps. -/
theorem pdWords_induct {P : State → Prop}
    (word : ∀ s t w, P s → s.pd.phase = .run → currentWord s = some w → putWord w s = .next t → P t)
    (n : Nat) {s t : State} (hs : P s) (h : pdWords n s = .next t) : P t := by
  induction n generalizing s with
  | zero => simp only [pdWords, Host.Outcome.next.injEq] at h; exact h ▸ hs
  | succ n ih =>
    unfold pdWords at h
    split at h
    · obtain ⟨u, hu, h⟩ := andThen_eq_next.mp h
      obtain ⟨w, hw, hu⟩ := withWord_eq_next hu
      exact ih (word s u w hs ‹_› hw hu) h
    · simp only [Host.Outcome.next.injEq] at h; exact h ▸ hs

theorem pdWords_only (n : Nat) {s t : State} (h : pdWords n s = .next t) : PdOnly s t :=
  pdWords_induct (P := fun u => PdOnly s u) (fun _ _ _ ha _ _ hb => ha.trans (putWord_only hb)) n (PdOnly.refl s) h

theorem decodeFrame_only {f : Bytes} {s t : State} (h : decodeFrame f s = .next t) : PdOnly s t :=
  ((pdStarted_only f s).trans (pdChecked_only f _)).trans (pdWords_only _ h)

/-- The state of a DECODE after `w` whole words (R150, R162): counters, diagnostic, the picture so far, every
other byte as in `s0`. -/
structure Decoding (s0 : State) (f : Bytes) (w : Nat) (s : State) : Prop where
  only : PdOnly s0 s
  taken : s.pipe.taken = none
  fault : s.pd.fault = s0.pd.fault
  cursor : s.pd.cursor = 32 * w
  dumped : s.pd.dumped = 15 * w
  count : s.pd.perrCnt = parityWords s0.params.byteOrder f w
  perr : s.pd.perr = decide (s.pd.perrCnt ≠ 0)
  running : w < 14336 → s.pd.phase = .run ∧ s.pd.frm = some f
  done : w = 14336 → s.pd.phase = .idle ∧ s.pd.frm = none
  picture : ∀ k, k < 15 * w → s.pix.read (pixelOffset k) = (sampleOf s0.params.byteOrder f k).map scale
  others : ∀ a, (∀ k, k < 15 * w → a ≠ pixelOffset k) → s.pix.read a = s0.pix.read a

theorem Decoding.start {f : Bytes} {s : State} (hf : wellFormedFrame f = true) :
    Decoding s f 0 (pdChecked f (pdStarted f s)) where
  only := (pdStarted_only f s).trans (pdChecked_only f _)
  taken := by simp [pdStarted]
  fault := by simp [pdChecked, hf, pdStarted]
  cursor := by simp [pdChecked, hf]
  dumped := by simp [pdChecked, hf]
  count := by simp [pdChecked, hf, parityWords]
  perr := by simp [pdChecked, hf]
  running := fun _ => by simp [pdChecked, hf, pdStarted]
  done := fun h => by omega
  picture := fun k h => by omega
  others := fun a _ => by simp

theorem Decoding.next {s0 s : State} {f : Bytes} {n : Nat} (hf : wellFormedFrame f = true) (hn : n < 14336)
    (h : Decoding s0 f n s) :
    ∃ t, withWord s (fun w => putWord w s) = .next t ∧ Decoding s0 f (n + 1) t := by
  obtain ⟨w, hw⟩ := wellFormedFrame_word (o := s0.params.byteOrder) hf hn
  have hr := h.running hn
  have hcur : currentWord s = some w := by
    simp only [currentWord, hr.2, h.only.params, h.cursor]
    rw [show 32 * n / 32 = n by omega, hw]
  obtain ⟨m, h1, h2, h3, -⟩ := putWord_spec w s (by rw [h.dumped]; simp only [Config.TARGET]; omega)
  refine ⟨_, by rw [withWord, hcur]; exact h1, ?_⟩
  have hsam (j : Nat) (hj : j < 15) : sampleOf s0.params.byteOrder f (15 * n + j) = some (slot w j) := by
    simp only [sampleOf]
    rw [show (15 * n + j) / 15 = n by omega, show (15 * n + j) % 15 = j by omega, hw]
  have hlast : s.pd.dumped + 15 = Config.TARGET ↔ n + 1 = 14336 := by
    rw [h.dumped]; simp only [Config.TARGET]; omega
  constructor
  · exact h.only.trans (putWord_only h1)
  · simpa using h.taken
  · simp only [takeParity]; split <;> simp [pdFinished, h.fault]
  · simp only [takeParity]; split <;> simp [pdFinished, h.cursor] <;> omega
  · simp only [takeParity]; split <;> simp [pdFinished, h.dumped] <;> omega
  · simp only [takeParity, parityWords, hw]
    split <;> simp [pdFinished, notePar_perrCnt, h.count]
  · simp only [takeParity]
    split <;> simp [pdFinished, notePar_perrCnt, notePar_perr, h.perr]
  · intro hn'
    have : ¬ (s.pd.dumped + 15 = Config.TARGET) := by rw [hlast]; omega
    simp [takeParity, this, hr.1, hr.2]
  · intro hn'
    have : s.pd.dumped + 15 = Config.TARGET := hlast.mpr hn'
    simp [takeParity, this, pdFinished]
  · intro k hk
    simp only [takeParity_pix, State.setPd_pix, State.setPix_pix]
    by_cases hk' : k < 15 * n
    · rw [h3, h.picture k hk']
      intro j hj e
      have := pixelOffset_inj e
      rw [h.dumped] at this; omega
    · obtain ⟨j, rfl⟩ : ∃ j, k = 15 * n + j := ⟨k - 15 * n, by omega⟩
      have := h2 j (by omega)
      rw [h.dumped] at this
      rw [this, hsam j (by omega)]; rfl
  · intro a ha
    simp only [takeParity_pix, State.setPd_pix, State.setPix_pix]
    rw [h3, h.others]
    · intro k hk; exact ha k (by omega)
    · intro j hj e
      exact ha (15 * n + j) (by omega) (by rw [e, h.dumped])

theorem Decoding.finish {s0 s : State} {f : Bytes} (hf : wellFormedFrame f = true) (k n : Nat)
    (hn : n + k = 14336) (h : Decoding s0 f n s) :
    ∃ t, pdWords k s = .next t ∧ Decoding s0 f 14336 t := by
  induction k generalizing n s with
  | zero => exact ⟨s, rfl, by rwa [show n = 14336 by omega] at h⟩
  | succ k ih =>
    obtain ⟨u, hu, hd⟩ := h.next hf (by omega)
    obtain ⟨t, ht, hd'⟩ := ih (n + 1) (by omega) hd
    refine ⟨t, ?_, hd'⟩
    rw [pdWords, if_pos (h.running (by omega)).1, hu, andThen_next, ht]

/-- What a whole DECODE of an admitted frame does (R150, R162). -/
theorem decodeFrame_spec {s : State} {f : Bytes} (hf : wellFormedFrame f = true) :
    ∃ t, decodeFrame f s = .next t ∧ Decoding s f 14336 t :=
  (Decoding.start hf).finish hf 14336 0 (by omega)

/-- What DECODE of a malformed frame does (R152, R203). -/
theorem decodeFrame_malformed {s : State} {f : Bytes} (hf : wellFormedFrame f = false) :
    decodeFrame f s = .next (raisePd .malformedFrame (pdStarted f s)) := by
  simp only [decodeFrame, pdChecked, hf, Config.WORDS_PER_FRAME]
  rw [if_neg (by simp), pdWords, if_neg (by simp)]

end Machine
end Sys2Proof
end

