-- ==== Sys2Proof/Laws/PixelInvariant.lean ====
section
/-! SUPPORT. Each step of PD keeps the unit's registers sound (R26, R27, R32 to R34) and the picture right
(R162), and answers a next state from a sound one. -/

namespace Sys2Proof
namespace Machine

/-- PD's invariants together. -/
def PdKept (s : State) : Prop := PdSound s ∧ PictureSound s

theorem PdSound.fault_none {s : State} (h : PdSound s) (hp : s.pd.phase ≠ .fault) : s.pd.fault = .none := by
  by_contra hf; exact hp (h.1.mpr hf)

/-- What RUN says of the frame and the counters (R26, R152). -/
theorem PdSound.running {s : State} (h : PdSound s) (hp : s.pd.phase = .run) :
    ∃ f, s.pd.frm = some f ∧ wellFormedFrame f = true ∧ s.pd.cursor < 458752 := by
  have := h.2.2.2.2.2
  unfold FrameHeld at this
  rw [hp] at this
  exact this

theorem PdSound.counters {s : State} (h : PdSound s) :
    s.pd.cursor % 2 = 0 ∧ s.pd.cursor ≤ 458752 ∧
      s.pd.dumped = 15 * (s.pd.cursor / 32) + min (s.pd.cursor % 32 / 2) 15 := h.2.2.1

/-- In RUN the word at CURSOR is there (R156: "always holds here"). -/
theorem PdSound.word {s : State} (h : PdSound s) (hp : s.pd.phase = .run) :
    ∃ w f, currentWord s = some w ∧ s.pd.frm = some f ∧
      frameWord s.params.byteOrder f (s.pd.cursor / 32) = some w := by
  obtain ⟨f, hf, hw, hc⟩ := h.running hp
  obtain ⟨w, hw⟩ := wellFormedFrame_word (o := s.params.byteOrder) (k := s.pd.cursor / 32) hw (by omega)
  exact ⟨w, f, by simp [currentWord, hf, hw], hf, hw⟩

theorem pdStarted_kept {s : State} (f : Bytes) (h : PdSound s) (hp : s.pd.phase = .idle) :
    PdKept (pdStarted f s) := by
  have hf := h.fault_none (by simp [hp])
  refine ⟨⟨by simp [pdStarted, hf], by simp [pdStarted, hf], h.2.2.1, h.2.2.2.1, h.2.2.2.2.1, ?_⟩, ?_⟩
  · simp [pdStarted, FrameHeld]
  · intro hr; simp [pdStarted] at hr

theorem pdChecked_kept {s : State} {f : Bytes} (h : PdSound s) (hp : s.pd.phase = .check)
    (hf : s.pd.frm = some f) : PdKept (pdChecked f s) := by
  have hn := h.fault_none (by simp [hp])
  unfold pdChecked
  split
  · refine ⟨⟨by simp [hn], by simp [hn], ⟨by simp, by simp [Config.FRAME_BITS], by simp⟩, by simp, by simp, ?_⟩, ?_⟩
    · simp [FrameHeld, hf, Config.FRAME_BITS]; assumption
    · intro _ g _ k hk; simp at hk
  · refine ⟨⟨by simp, by simp, h.2.2.1, h.2.2.2.1, h.2.2.2.2.1, by simp [FrameHeld]⟩, ?_⟩
    intro hr; simp at hr

theorem putSample_sound {v : Slot} {s t : State} (h : PdSound s) (hp : s.pd.phase = .run)
    (hs : slotIndex s.pd.cursor < 15) (he : putSample v s = .next t) : PdSound t := by
  obtain ⟨-, rfl⟩ := putSample_eq_next he
  have hn := h.fault_none (by simp [hp])
  obtain ⟨c1, c2, c3⟩ := h.counters
  obtain ⟨f, hf, hw, hc⟩ := h.running hp
  have h5 := h.2.2.2.2.1
  simp only [slotIndex] at hs
  refine ⟨by simp [hn, hp], by simp [hn], ⟨?_, ?_, ?_⟩, h.2.2.2.1, ?_, ?_⟩
  · simp only [State.setPd_pd]; omega
  · simp only [State.setPd_pd, Config.FRAME_BITS]; omega
  · simp only [State.setPd_pd]; omega
  · simp only [State.setPd_pd]; omega
  · simp only [State.setPd_pd, FrameHeld, hp]
    exact ⟨f, hf, hw, by simp only [Config.FRAME_BITS]; omega⟩

/-- The slot at CURSOR is sample number DUMPED (R27, R156). -/
theorem sampleOf_cursor {s : State} {w : Word} {f : Bytes} (h : PdSound s) (hs : slotIndex s.pd.cursor < 15)
    (hw : frameWord s.params.byteOrder f (s.pd.cursor / 32) = some w) :
    sampleOf s.params.byteOrder f s.pd.dumped = some (bitsAt w (s.pd.cursor % 32)) := by
  obtain ⟨c1, c2, c3⟩ := h.counters
  simp only [slotIndex] at hs
  simp only [sampleOf, slot]
  rw [show s.pd.dumped / 15 = s.pd.cursor / 32 by omega, hw]
  simp only
  rw [show 2 * (s.pd.dumped % 15) = s.pd.cursor % 32 by omega]

theorem putSample_picture {v : Slot} {s t : State} (h : PdKept s)
    (hv : ∀ f, s.pd.frm = some f → sampleOf s.params.byteOrder f s.pd.dumped = some v)
    (hp : s.pd.phase = .run) (he : putSample v s = .next t) : PictureSound t := by
  obtain ⟨-, rfl⟩ := putSample_eq_next he
  intro _ f hf k hk
  simp only [State.setPd_pd, State.setPd_pix, State.setPix_pix, State.setPd_params, State.setPix_params] at hf hk ⊢
  by_cases hk' : k = s.pd.dumped
  · subst hk'; rw [Memory.read_write_same, hv f hf]; rfl
  · rw [Memory.read_write_other]
    · exact h.2 hp f hf k (by omega)
    · intro e; exact hk' (pixelOffset_inj e)

theorem takeParity_sound {p : Slot} {s : State} (h : PdSound s) (hp : s.pd.phase = .run)
    (hs : slotIndex s.pd.cursor = 15) : PdSound (takeParity p s) := by
  have hn := h.fault_none (by simp [hp])
  obtain ⟨c1, c2, c3⟩ := h.counters
  obtain ⟨f, hf, hw, hc⟩ := h.running hp
  have h5 := h.2.2.2.2.1
  have h4 := h.2.2.2.1
  simp only [slotIndex] at hs
  have hperr : ∀ x : PdUnit, x = notePar p s.pd → (x.perr = true ↔ x.perrCnt ≠ 0) := by
    rintro _ rfl
    rw [notePar_perr, notePar_perrCnt]
    by_cases hz : p = 0#2 <;> simp [hz, h4]
  have hcnt : (notePar p s.pd).perrCnt ≤ (s.pd.cursor + 2) / 32 := by
    rw [notePar_perrCnt]; split <;> omega
  unfold takeParity
  dsimp only
  split
  · rename_i hd
    simp only [Config.TARGET] at hd
    refine ⟨by simp [pdFinished, hn], by simp [pdFinished, hn], ⟨?_, ?_, ?_⟩, ?_, ?_, by simp [pdFinished, FrameHeld]⟩
    · simp [pdFinished]; omega
    · simp [pdFinished, Config.FRAME_BITS]; omega
    · simp only [State.setPd_pd, pdFinished, notePar_dumped]; omega
    · simpa [pdFinished] using hperr _ rfl
    · simpa [pdFinished] using hcnt
  · rename_i hd
    simp only [Config.TARGET] at hd
    refine ⟨by simp [hn, hp], by simp [hn], ⟨?_, ?_, ?_⟩, ?_, ?_, ?_⟩
    · simp; omega
    · simp [Config.FRAME_BITS]; omega
    · simp only [State.setPd_pd, notePar_dumped]; omega
    · simpa using hperr _ rfl
    · simpa using hcnt
    · simp only [State.setPd_pd, FrameHeld, notePar_phase, hp]
      exact ⟨f, by simp [hf], hw, by simp only [Config.FRAME_BITS]; omega⟩

theorem takeParity_picture {p : Slot} {s : State} (h : PictureSound s) (hp : s.pd.phase = .run) :
    PictureSound (takeParity p s) := by
  intro hr f hf k hk
  unfold takeParity at hr hf hk ⊢
  dsimp only at hr hf hk ⊢
  split at hr
  · simp [pdFinished] at hr
  · rename_i hd
    rw [if_neg hd] at hf hk
    simp only [State.setPd_pd, notePar_frm, notePar_dumped] at hf hk
    simpa using h hp f hf k hk

/-- A word taken at its first slot (R159). -/
theorem putWord_kept {w : Word} {s t : State} (h : PdKept s) (hp : s.pd.phase = .run)
    (hc : s.pd.cursor % 32 = 0) (hw : currentWord s = some w) (he : putWord w s = .next t) :
    PdKept t ∧ (t.pd.phase = .run → t.pd.cursor % 32 = 0) := by
  obtain ⟨c1, c2, c3⟩ := h.1.counters
  obtain ⟨f, hf, hwf, hcb⟩ := h.1.running hp
  have hn := h.1.fault_none (by simp [hp])
  have h5 := h.1.2.2.2.2.1
  obtain ⟨m, h1, h2, h3, -⟩ := putWord_spec w s (by simp only [Config.TARGET]; omega)
  rw [he] at h1
  simp only [Host.Outcome.next.injEq] at h1
  subst h1
  have hword : frameWord s.params.byteOrder f (s.pd.cursor / 32) = some w := by
    simpa [currentWord, hf] using hw
  -- the state before the parity slot is sound and its picture right
  have hs' : PdSound ((s.setPix m).setPd
      { s.pd with dumped := s.pd.dumped + 15, cursor := s.pd.cursor + 30 }) := by
    refine ⟨by simp [hn, hp], by simp [hn], ⟨?_, ?_, ?_⟩, h.1.2.2.2.1, ?_, ?_⟩
    · simp only [State.setPd_pd]; omega
    · simp only [State.setPd_pd, Config.FRAME_BITS]; omega
    · simp only [State.setPd_pd]; omega
    · simp only [State.setPd_pd]; omega
    · simp only [State.setPd_pd, FrameHeld, hp]
      exact ⟨f, hf, hwf, by simp only [Config.FRAME_BITS]; omega⟩
  have hpic : PictureSound ((s.setPix m).setPd
      { s.pd with dumped := s.pd.dumped + 15, cursor := s.pd.cursor + 30 }) := by
    intro _ g hg k hk
    simp only [State.setPd_pd, State.setPd_pix, State.setPix_pix, State.setPd_params, State.setPix_params]
      at hg hk ⊢
    rw [hf] at hg; cases hg
    by_cases hk' : k < s.pd.dumped
    · rw [h3, h.2 hp f hf k hk']
      intro j hj e; have := pixelOffset_inj e; omega
    · obtain ⟨j, rfl⟩ : ∃ j, k = s.pd.dumped + j := ⟨k - s.pd.dumped, by omega⟩
      rw [h2 j (by omega), sampleOf]
      rw [show (s.pd.dumped + j) / 15 = s.pd.cursor / 32 by omega, hword,
        show (s.pd.dumped + j) % 15 = j by omega]
      rfl
  refine ⟨⟨takeParity_sound hs' hp ?_, takeParity_picture hpic hp⟩, ?_⟩
  · simp only [slotIndex, State.setPd_pd]; omega
  · intro _
    unfold takeParity; dsimp only
    split <;> simp [pdFinished] <;> omega

theorem pdWords_kept (n : Nat) {s t : State} (h : PdKept s) (hc : s.pd.phase = .run → s.pd.cursor % 32 = 0)
    (he : pdWords n s = .next t) : PdKept t :=
  (pdWords_induct (P := fun u => PdKept u ∧ (u.pd.phase = .run → u.pd.cursor % 32 = 0))
    (fun _ _ _ hu hr hw hp => putWord_kept hu.1 hr (hu.2 hr) hw hp) n ⟨h, hc⟩ he).1

theorem decodeFrame_kept {f : Bytes} {s t : State} (h : PdKept s) (hp : s.pd.phase = .idle)
    (he : decodeFrame f s = .next t) : PdKept t := by
  refine pdWords_kept _ (pdChecked_kept (pdStarted_kept f h.1 hp).1 rfl rfl) ?_ he
  intro _
  unfold pdChecked
  split
  · rfl
  · rename_i hr; simp_all [pdChecked]

theorem pdFinished_never {s : State} (h : PdSound s) (hp : s.pd.phase = .run)
    (hc : s.pd.cursor = Config.FRAME_BITS) : False := by
  obtain ⟨_, _, _, hb⟩ := h.running hp
  simp only [Config.FRAME_BITS] at hc; omega

/-! ### Completion from sound states -/

theorem putSample_completes {s : State} (v : Slot) (h : PdSound s) (hp : s.pd.phase = .run)
    (hs : slotIndex s.pd.cursor < 15) : ∃ t, putSample v s = .next t := by
  obtain ⟨c1, c2, c3⟩ := h.counters
  obtain ⟨_, _, _, hb⟩ := h.running hp
  simp only [slotIndex] at hs
  exact ⟨_, putSample_next (by simp only [Config.TARGET]; omega)⟩

theorem putWord_completes {s : State} (w : Word) (h : PdSound s) (hp : s.pd.phase = .run)
    (hc : s.pd.cursor % 32 = 0) : ∃ t, putWord w s = .next t := by
  obtain ⟨c1, c2, c3⟩ := h.counters
  obtain ⟨_, _, _, hb⟩ := h.running hp
  obtain ⟨m, h1, -⟩ := putWord_spec w s (by simp only [Config.TARGET]; omega)
  exact ⟨_, h1⟩

theorem decodeFrame_completes (f : Bytes) (s : State) : ∃ t, decodeFrame f s = .next t := by
  cases hf : wellFormedFrame f
  · exact ⟨_, decodeFrame_malformed hf⟩
  · obtain ⟨t, ht, -⟩ := decodeFrame_spec (s := s) hf
    exact ⟨t, ht⟩

/-! ### The canonical form of PIX -/

theorem putSample_wf {v : Slot} {s t : State} (h : s.pix.wf = true) (he : putSample v s = .next t) :
    t.pix.wf = true := by
  obtain ⟨hb, rfl⟩ := putSample_eq_next he
  exact Memory.wf_write _ _ _ hb h

theorem putWord_wf {w : Word} {s t : State} (h : s.pix.wf = true) (he : putWord w s = .next t) :
    t.pix.wf = true := by
  obtain ⟨u, hu, he⟩ := andThen_eq_next.mp he
  simp only [Host.Outcome.next.injEq] at he
  subst he
  show u.pix.wf = true
  exact putSamples_induct (P := fun u => u.pix.wf = true) (fun _ _ _ ha hb => putSample_wf ha hb) _ h hu

theorem decodeFrame_wf {f : Bytes} {s t : State} (h : s.pix.wf = true) (he : decodeFrame f s = .next t) :
    t.pix.wf = true :=
  pdWords_induct (P := fun u => u.pix.wf = true) (fun _ _ _ ha _ _ hb => putWord_wf ha hb) _ (by simpa using h) he

/-! ### The alpha bytes -/

theorem putSample_alpha {v : Slot} {s t : State} (he : putSample v s = .next t) : AlphaKept s t := by
  obtain ⟨-, rfl⟩ := putSample_eq_next he
  intro a ha
  simp only [State.setPd_pix, State.setPix_pix]
  rw [Memory.read_write_other]
  intro e; exact pixelOffset_alpha s.pd.dumped (by rw [← e]; exact ha)

theorem putWord_alpha {w : Word} {s t : State} (he : putWord w s = .next t) : AlphaKept s t := by
  obtain ⟨u, hu, he⟩ := andThen_eq_next.mp he
  simp only [Host.Outcome.next.injEq] at he
  subst he
  show AlphaKept s u
  exact putSamples_induct (P := fun u => AlphaKept s u)
    (fun _ _ _ ha hb a h3 => (putSample_alpha hb a h3).trans (ha a h3)) _ (fun _ _ => rfl) hu

theorem decodeFrame_alpha {f : Bytes} {s t : State} (he : decodeFrame f s = .next t) : AlphaKept s t :=
  pdWords_induct (P := fun u => AlphaKept s u)
    (fun _ _ _ ha _ _ hb a h3 => (putWord_alpha hb a h3).trans (ha a h3)) _ (fun _ _ => by simp) he

end Machine
end Sys2Proof
end

