-- ==== Sys2Proof/Laws/Exec.lean ====
section
/-! SUPPORT. What one instruction can do, by agent: the worker's never touch what the consumer owns, and the
other way round; the host's are RESET and the writing of PIX at boot (R14, R20, R60, R212). -/

namespace Sys2Proof
namespace Machine

theorem PdOnly.consumer {s t : State} (h : PdOnly s t) : ConsumerOnly s t :=
  ⟨h.fs, h.src, h.params, Or.inl h.q, h.fcount, h.t0, h.running, h.report, by rw [h.env], by rw [h.env],
    by rw [h.env], by rw [h.env], h.stopped⟩

theorem polled_consumer (s : State) : ConsumerOnly s (polled s) := by
  refine ⟨rfl, rfl, rfl, Or.inr rfl, rfl, rfl, rfl, rfl, rfl, rfl, rfl, rfl, rfl⟩

theorem withTaken_eq_next {s t : State} {k : Bytes → Out} (h : withTaken s k = .next t) :
    ∃ f, s.pipe.taken = some f ∧ k f = .next t := by
  unfold withTaken at h; split at h
  · exact ⟨_, ‹_›, h⟩
  · cases h

theorem withFrm_eq_next {s t : State} {k : Bytes → Out} (h : withFrm s k = .next t) :
    ∃ f, s.pd.frm = some f ∧ k f = .next t := by
  unfold withFrm at h; split at h
  · exact ⟨_, ‹_›, h⟩
  · cases h

theorem execCpTick_eq_next {s t : State} (h : execCpTick s = .next t) :
    (ConsumerLive s ∧ s.pd.phase = .idle) ∧
      ((s.pipe.q = [] ∧ t = polled s) ∨ ∃ f, s.pipe.q.head? = some f ∧ decodeFrame f (polled s) = .next t) := by
  obtain ⟨hg, h⟩ := gate_eq_next.mp h
  obtain ⟨h1, h2, -⟩ := pdStop_eq_none.mp hg
  refine ⟨⟨h1, h2⟩, ?_⟩
  have e : (polled s).pipe.taken = s.pipe.q.head? := rfl
  rw [e] at h
  cases hq : s.pipe.q.head? with
  | none =>
    rw [hq] at h
    exact Or.inl ⟨List.head?_eq_none_iff.mp hq, by simpa using h.symm⟩
  | some f =>
    rw [hq] at h
    exact Or.inr ⟨f, rfl, h⟩

theorem execPixel_eq_next {r g b a : Byte} {s t : State} (h : execPixel r g b a s = .next t) :
    (s.pd.phase ≠ .check ∧ s.pd.phase ≠ .run) ∧ t = s.setPix (writePixel s.env.pixelAt r g b a s.pix) := by
  obtain ⟨hg, h⟩ := gate_eq_next.mp h
  exact ⟨hostStop_eq_none.mp hg, by simpa using h.symm⟩

theorem hostByte_eq_next {off : Nat} {v : Byte} {s t : State} (h : hostByte off v s = .next t) :
    (s.pd.phase ≠ .check ∧ s.pd.phase ≠ .run) ∧ t = s.setPix (s.pix.write off v) := by
  obtain ⟨hg, h⟩ := gate_eq_next.mp h
  exact ⟨hostStop_eq_none.mp hg, by simpa using h.symm⟩

/-- The rows by agent: the host's are RESET and PIXEL (R14, R100). -/
theorem agentOf_cases (i : Instr) : agentOf i = .worker ∨ agentOf i = .consumer ∨ i = .resetOp ∨
    ∃ r g b a, i = .pixel r g b a := by
  cases i <;> simp [agentOf]

/-- Every instruction of the worker leaves the consumer's state alone. -/
theorem exec_worker {i : Instr} {s t : State} (hi : agentOf i = .worker) (h : exec i s = .next t) :
    WorkerOnly s t := by
  cases i <;> simp only [agentOf, reduceCtorEq] at hi <;> simp only [exec] at h <;>
    obtain ⟨-, h⟩ := gate_eq_next.mp h
  case srcAvail | fsPoll => cases h; exact (fsPolled_only s).worker
  case srcRead m _ => cases h; exact (fsReadDone_only m s).worker
  case fsRead => cases h; exact (fsReadDone_only _ s).worker
  case catchOp => exact ((fsStarted_only s).trans (catchLoop_only _ h)).worker
  case fsStart => cases h; exact (fsStarted_only s).worker
  case fsScan | marker => cases h; exact (fsScanned_only s).worker
  case fsEmit => exact (fsEmitted_only h).worker
  case runOp => cases h; exact workerStarted_worker s
  case cpPush =>
    split at h
    · cases h; exact pushed_worker _ s
    · cases h
  case cpReport => cases h; exact reported_worker s

theorem takeParity_consumer (p : Slot) (s : State) : ConsumerOnly s (takeParity p s) := (takeParity_only p s).consumer

/-- Every instruction of the consumer leaves the worker's state alone. -/
theorem exec_consumer {i : Instr} {s t : State} (hi : agentOf i = .consumer) (h : exec i s = .next t) :
    ConsumerOnly s t := by
  cases i <;> simp only [agentOf, reduceCtorEq] at hi
  case cpTick =>
    rcases (execCpTick_eq_next h).2 with ⟨-, rfl⟩ | ⟨f, -, h⟩
    · exact polled_consumer s
    · have hd := decodeFrame_only h
      exact ⟨hd.fs, hd.src, hd.params, Or.inr hd.q, hd.fcount, hd.t0, hd.running, hd.report, by rw [hd.env]; rfl,
        by rw [hd.env]; rfl, by rw [hd.env]; rfl, by rw [hd.env]; rfl, hd.stopped⟩
  all_goals
    simp only [exec] at h
    obtain ⟨-, h⟩ := gate_eq_next.mp h
  case decodeOp => obtain ⟨f, -, h⟩ := withTaken_eq_next h; exact (decodeFrame_only h).consumer
  case pdStart => obtain ⟨f, -, h⟩ := withTaken_eq_next h; cases h; exact (pdStarted_only f s).consumer
  case pdCheck => obtain ⟨f, -, h⟩ := withFrm_eq_next h; cases h; exact (pdChecked_only f s).consumer
  case pdSample => obtain ⟨w, -, h⟩ := withWord_eq_next h; exact (putSample_only h).consumer
  case pdParity => obtain ⟨w, -, h⟩ := withWord_eq_next h; cases h; exact takeParity_consumer _ s
  case pdDone => cases h; exact ⟨rfl, rfl, rfl, Or.inl rfl, rfl, rfl, rfl, rfl, rfl, rfl, rfl, rfl, rfl⟩
  case pdWord => obtain ⟨w, -, h⟩ := withWord_eq_next h; exact (putWord_only h).consumer
  case cpPoll => cases h; exact polled_consumer s
  case pword => exact (putWord_only h).consumer
  case lvl0 | lvl1 | lvl2 | lvl3 => exact (putSample_only h).consumer
  case parOk | parNz1 | parNz2 | parNz3 => cases h; exact takeParity_consumer _ s

/-- Every instruction of the worker keeps FS's invariants; a read asks for at most CHUNK_MAX bytes. -/
theorem exec_worker_kept {i : Instr} {s t : State} (hi : agentOf i = .worker) (hw : i.wf = true) (hs : FsKept s)
    (h : exec i s = .next t) : FsKept t := by
  cases i <;> simp only [agentOf, reduceCtorEq] at hi <;> simp only [exec] at h <;>
    obtain ⟨hg, h⟩ := gate_eq_next.mp h
  case srcAvail | fsPoll =>
    cases h
    obtain ⟨hl, hp⟩ := fsStop_eq_none.mp hg
    exact ⟨fsPolled_sound hs.1 hp hl.2.1, fsPolled_reconstructs hs.2 hp⟩
  case srcRead m _ =>
    cases h
    obtain ⟨hl, hp⟩ := fsStop_eq_none.mp hg
    have hm : m = Config.CHUNK_MAX := by simpa [Instr.wf] using hw
    exact ⟨fsReadDone_sound (Nat.le_of_eq hm) hs.1 hp hl.2.1, fsReadDone_reconstructs _ hs.2 hp⟩
  case fsRead =>
    cases h
    obtain ⟨hl, hp⟩ := fsStop_eq_none.mp hg
    exact ⟨fsReadDone_sound (Nat.le_refl _) hs.1 hp hl.2.1, fsReadDone_reconstructs _ hs.2 hp⟩
  case catchOp =>
    have hp := (fsStop_eq_none.mp hg).2
    exact catchLoop_kept _ ⟨fsStarted_sound hs.1 hp, fsStarted_reconstructs hs.2 hp⟩ h
  case fsStart =>
    cases h
    have hp := (fsStop_eq_none.mp hg).2
    exact ⟨fsStarted_sound hs.1 hp, fsStarted_reconstructs hs.2 hp⟩
  case fsScan =>
    cases h
    have hp := (fsStop_eq_none.mp hg).2
    exact ⟨fsScanned_sound hs.1 hp, fsScanned_reconstructs hs.2 hp⟩
  case marker =>
    cases h
    have hp := (markerStop_eq_none.mp hg).2.1
    exact ⟨fsScanned_sound hs.1 hp, fsScanned_reconstructs hs.2 hp⟩
  case fsEmit =>
    have hp := (emitStop_eq_none.mp hg).2.1
    exact ⟨fsEmitted_sound hs.1 hp h, fsEmitted_reconstructs hs.1 hs.2 hp h⟩
  case runOp => cases h; exact hs.of_eq rfl rfl
  case cpPush =>
    split at h
    · cases h; exact pushed_kept _ hs
    · cases h
  case cpReport => cases h; exact hs.of_eq rfl rfl

/-- Every instruction of the consumer keeps the canonical form of PIX. -/
theorem exec_consumer_wf {i : Instr} {s t : State} (hi : agentOf i = .consumer) (hs : PixSound s)
    (h : exec i s = .next t) : PixSound t := by
  cases i <;> simp only [agentOf, reduceCtorEq] at hi
  case cpTick =>
    rcases (execCpTick_eq_next h).2 with ⟨-, rfl⟩ | ⟨f, -, h⟩
    · exact hs
    · exact decodeFrame_wf (s := polled s) hs h
  all_goals
    simp only [exec] at h
    obtain ⟨-, h⟩ := gate_eq_next.mp h
  case decodeOp =>
    obtain ⟨f, -, h⟩ := withTaken_eq_next h
    exact decodeFrame_wf hs h
  case pdStart => obtain ⟨f, -, h⟩ := withTaken_eq_next h; cases h; exact hs
  case pdCheck =>
    obtain ⟨f, -, h⟩ := withFrm_eq_next h; cases h
    show Memory.wf _ = true; rw [pdChecked_pix]; exact hs
  case pdSample =>
    obtain ⟨w, -, h⟩ := withWord_eq_next h
    exact putSample_wf hs h
  case pdParity => obtain ⟨w, -, h⟩ := withWord_eq_next h; cases h; exact hs
  case pdDone => cases h; exact hs
  case pdWord =>
    obtain ⟨w, -, h⟩ := withWord_eq_next h
    exact putWord_wf hs h
  case cpPoll => cases h; exact hs
  case pword => exact putWord_wf hs h
  case lvl0 | lvl1 | lvl2 | lvl3 => exact putSample_wf hs h
  case parOk | parNz1 | parNz2 | parNz3 => cases h; exact hs

/-- Every instruction keeps the canonical form of PIX. -/
theorem exec_wf {i : Instr} {s t : State} (hs : PixSound s) (h : exec i s = .next t) : PixSound t := by
  rcases agentOf_cases i with hi | hi | rfl | ⟨r, g, b, a, rfl⟩
  · unfold PixSound; rw [(exec_worker hi h).pix]; exact hs
  · exact exec_consumer_wf hi hs h
  · cases h; exact hs
  · obtain ⟨-, rfl⟩ := execPixel_eq_next h
    exact wf_writePixel _ _ _ _ _ _ s.env.pixelAt.isLt hs

/-- Every instruction keeps the parameters (R9, R35). -/
theorem exec_params {i : Instr} {s t : State} (h : exec i s = .next t) : t.params = s.params := by
  rcases agentOf_cases i with hi | hi | rfl | ⟨r, g, b, a, rfl⟩
  · exact (exec_worker hi h).params
  · exact (exec_consumer hi h).params
  · cases h; rfl
  · obtain ⟨-, rfl⟩ := execPixel_eq_next h; rfl

/-- Every instruction of the worker leaves FCOUNT and the report alone, or leaves them sound (R184). -/
theorem exec_worker_report {i : Instr} {s t : State} (hi : agentOf i = .worker) (h : exec i s = .next t) :
    (t.pipe.fcount = s.pipe.fcount ∧ t.pipe.report = s.pipe.report) ∨ ReportSound t := by
  have same : t.pipe = s.pipe → (t.pipe.fcount = s.pipe.fcount ∧ t.pipe.report = s.pipe.report) ∨ ReportSound t :=
    fun e => Or.inl ⟨by rw [e], by rw [e]⟩
  cases i <;> simp only [agentOf, reduceCtorEq] at hi <;> simp only [exec] at h <;>
    obtain ⟨-, h⟩ := gate_eq_next.mp h
  case srcAvail | fsPoll => cases h; exact same (fsPolled_only s).pipe
  case srcRead m _ => cases h; exact same (fsReadDone_only m s).pipe
  case fsRead => cases h; exact same (fsReadDone_only _ s).pipe
  case catchOp => exact same ((fsStarted_only s).trans (catchLoop_only _ h)).pipe
  case fsStart => cases h; exact same rfl
  case fsScan | marker => cases h; exact same rfl
  case fsEmit => exact same (fsEmitted_only h).pipe
  case runOp => cases h; exact Or.inr (workerStarted_report_sound s)
  case cpPush =>
    split at h
    · cases h; exact Or.inr (pushed_report_sound _ s)
    · cases h
  case cpReport => cases h; exact Or.inr (reported_sound s)

/-- Every instruction keeps the reports sound (R184). -/
theorem exec_report {i : Instr} {s t : State} (hs : ReportSound s) (h : exec i s = .next t) : ReportSound t := by
  rcases agentOf_cases i with hi | hi | rfl | ⟨r, g, b, a, rfl⟩
  · rcases exec_worker_report hi h with e | e
    · exact hs.of_eq e.1 e.2
    · exact e
  · have e := exec_consumer hi h; exact hs.of_eq e.fcount e.report
  · cases h; exact fun hn => absurd rfl hn
  · obtain ⟨-, rfl⟩ := execPixel_eq_next h; exact hs

end Machine
end Sys2Proof
end

