-- ==== Sys2Proof/Laws/Step.lean ====
section
/-! SUPPORT. What one step of the machine can be, said once: a label of the script, a host's write, an agent's own
instruction, a stop under HALT_POLICY, or nothing; and what every step keeps. -/

namespace Sys2Proof
namespace Machine

theorem Fetched.refl (s : State) : Fetched s s := by constructor <;> rfl

theorem Fetched.trans {s t u : State} (h : Fetched s t) (k : Fetched t u) : Fetched s u :=
  ⟨k.params.trans h.params, k.fs.trans h.fs, k.pd.trans h.pd, k.pipe.trans h.pipe, k.pix.trans h.pix,
    k.src.trans h.src, k.clock.trans h.clock⟩

theorem fetched_draw (s : State) : Fetched s s.draw := by constructor <;> rfl
theorem fetched_act (rest : List Act) (s : State) : Fetched s (afterAct rest s) := by constructor <;> rfl
theorem fetched_pixel (n : Fin Config.PIXELS) (s : State) : Fetched s (atPixel n s) := by constructor <;> rfl

theorem fetched_unfolding (ls : List Byte) (rest : List Act) (s : State) : Fetched s (afterUnfolding ls rest s) := by
  constructor <;> rfl

/-! ### The stop of R207 -/

theorem exposedFs_iff {s : State} :
    exposedFs s = true ↔ s.params.haltPolicy = .any ∧ s.pd.phase = .fault ∧ WorkerLive s := by
  unfold exposedFs WorkerLive fsHalted
  cases s.params.haltPolicy <;> simp
  rintro h
  simp [h]

theorem exposedPd_iff {s : State} :
    exposedPd s = true ↔ s.params.haltPolicy = .any ∧ s.fs.phase = .fault ∧ ConsumerLive s := by
  unfold exposedPd ConsumerLive pdHalted
  cases s.params.haltPolicy <;> simp
  rintro h
  simp [h]

/-- At most one unit may stop. -/
theorem exposedPd_of_exposedFs {s : State} (h : exposedFs s = true) : exposedPd s = false :=
  Bool.eq_false_iff.mpr fun k => (exposedFs_iff.mp h).2.2.1 (exposedPd_iff.mp k).2.1

theorem mayStop_iff {s : State} : MayStop s ↔ (exposedFs s || exposedPd s) = true := by
  rw [Bool.or_eq_true, exposedFs_iff, exposedPd_iff, MayStop]
  constructor
  · rintro ⟨h, k | k⟩
    · exact Or.inl ⟨h, k⟩
    · exact Or.inr ⟨h, k⟩
  · rintro (⟨h, k⟩ | ⟨h, k⟩)
    · exact ⟨h, Or.inl k⟩
    · exact ⟨h, Or.inr k⟩

theorem fetched_goesOn (s : State) : Fetched s (goesOn s) := by
  unfold goesOn; split
  · exact fetched_draw s
  · exact Fetched.refl s

theorem goesOn_script (s : State) : (goesOn s).env.script = s.env.script := by
  unfold goesOn; split <;> rfl

/-- What a stop is. -/
theorem stopsHere_cases {s t : State} (h : stopsHere s = some t) :
    (exposedFs s = true ∧ t = s.draw.setFs { s.fs with stopped := true }) ∨
      (exposedPd s = true ∧ t = s.draw.setPd { s.pd with stopped := true }) := by
  unfold stopsHere at h
  split at h
  · rename_i hx
    cases h; exact Or.inl ⟨(Bool.and_eq_true _ _ ▸ hx).1, rfl⟩
  · split at h
    · rename_i hx
      cases h; exact Or.inr ⟨(Bool.and_eq_true _ _ ▸ hx).1, rfl⟩
    · cases h

/-- Where nothing may stop, a step is the machine's move. -/
theorem step_of_calm {s : State} (h : ¬ MayStop s) : step s = move s := by
  rw [mayStop_iff, Bool.not_eq_true, Bool.or_eq_false_iff] at h
  simp only [step, stopsHere, goesOn, h.1, h.2]
  rfl

/-- Where a worker may stop, a free value decides between the stop and the move. -/
theorem step_of_exposedFs {s : State} (h : exposedFs s = true) :
    step s = if Config.freeStop s.env.draws then .next (s.draw.setFs { s.fs with stopped := true })
      else move s.draw := by
  simp only [step, stopsHere, goesOn, h, exposedPd_of_exposedFs h]
  cases Config.freeStop s.env.draws <;> rfl

/-- Where a consumer may stop, a free value decides between the stop and the move. -/
theorem step_of_exposedPd {s : State} (h : exposedPd s = true) :
    step s = if Config.freeStop s.env.draws then .next (s.draw.setPd { s.pd with stopped := true })
      else move s.draw := by
  have hf : exposedFs s = false := Bool.eq_false_iff.mpr fun k => by rw [exposedPd_of_exposedFs k] at h; cases h
  simp only [step, stopsHere, goesOn, h, hf]
  cases Config.freeStop s.env.draws <;> rfl

/-- Where the machine goes on, its step is its move. -/
theorem GoesOn.step {s u : State} (h : GoesOn s u) : step s = move u := by
  rcases h with ⟨rfl, hn⟩ | ⟨rfl, hm, hc⟩
  · exact step_of_calm hn
  · rcases Bool.or_eq_true _ _ ▸ mayStop_iff.mp hm with hx | hx
    · rw [step_of_exposedFs hx, hc]; rfl
    · rw [step_of_exposedPd hx, hc]; rfl

theorem GoesOn.fetched {s u : State} (h : GoesOn s u) : Fetched s u := by
  rcases h with ⟨rfl, -⟩ | ⟨rfl, -⟩
  · exact Fetched.refl _
  · exact fetched_draw s

theorem GoesOn.script {s u : State} (h : GoesOn s u) : u.env.script = s.env.script := by
  rcases h with ⟨rfl, -⟩ | ⟨rfl, -⟩ <;> rfl

theorem GoesOn.pixelAt {s u : State} (h : GoesOn s u) : u.env.pixelAt = s.env.pixelAt := by
  rcases h with ⟨rfl, -⟩ | ⟨rfl, -⟩ <;> rfl

/-- An operation gives way to its steps only where its unit may stop. -/
theorem unfolding_of_calm {i : Instr} {s : State} (h : ¬ MayStop s) : unfolding i s = none := by
  rw [mayStop_iff, Bool.not_eq_true, Bool.or_eq_false_iff] at h
  cases i <;> simp [unfolding, h.1, h.2]

/-! ### The scheduler -/

/-- Everything the scheduler can choose. -/
inductive Scheduled (s : State) : Choice → Prop where
  | rest (hw : workerInstr s = none) (hc : consumerInstr s = none) : Scheduled s .rest
  | worker (i : Instr) (u : State) (hi : workerInstr s = some i) (hu : Fetched s u) : Scheduled s (.run i u)
  | consumer (i : Instr) (u : State) (hi : consumerInstr s = some i) (hu : Fetched s u) : Scheduled s (.run i u)

theorem choose_scheduled (s : State) : Scheduled s (choose s) := by
  unfold choose
  split
  · exact .rest ‹_› ‹_›
  · exact .worker _ s ‹_› (Fetched.refl s)
  · exact .consumer _ s ‹_› (Fetched.refl s)
  · split
    · exact .worker _ _ ‹_› (fetched_draw s)
    · exact .consumer _ _ ‹_› (fetched_draw s)

/-- Which instructions an agent's own sequencing state selects. -/
theorem workerInstr_agent {s : State} {i : Instr} (h : workerInstr s = some i) :
    agentOf i = .worker ∧ i.wf = true ∧ WorkerLive s := by
  unfold workerInstr at h
  split at h
  · cases h
  · rename_i hh
    simp only [Bool.or_eq_true, not_or, Bool.not_eq_true] at hh
    have hl : s.fs.phase ≠ .fault → WorkerLive s := fun hp => ⟨hp, hh.2, hh.1⟩
    split at h <;> rename_i hp
    · split at h
      · split at h <;> cases h <;> exact ⟨rfl, rfl, hl (by simp [hp])⟩
      · cases h
    · cases h; exact ⟨rfl, rfl, hl (by simp [hp])⟩
    · cases h; exact ⟨rfl, rfl, hl (by simp [hp])⟩
    · split at h <;> cases h <;> exact ⟨rfl, rfl, hl (by simp [hp])⟩
    · split at h
      · split at h <;> cases h; exact ⟨rfl, rfl, hl (by simp [hp])⟩
      · cases h; exact ⟨rfl, rfl, hl (by simp [hp])⟩
    · cases h

/-- The slot PD fetches (R156). -/
def fetchedSlot (s : State) : Option Slot := (currentWord s).map (fun w => bitsAt w (s.pd.cursor % 32))

/-- An instruction carries this word, or this slot, if it carries one. -/
def Carries (i : Instr) (w : Option Word) (v : Option Slot) : Prop :=
  match i with
  | .pword x => w = some x
  | .lvl0 => v = some 0#2
  | .lvl1 => v = some 1#2
  | .lvl2 => v = some 2#2
  | .lvl3 => v = some 3#2
  | _ => True

/-- The data an instruction carries is what PD fetches (R95, R156). -/
def CarriesFetched (i : Instr) (s : State) : Prop := Carries i (currentWord s) (fetchedSlot s)

theorem decodeSample_agent (v : Slot) : agentOf (decodeSample v) = .consumer ∧ (decodeSample v).wf = true := by
  unfold decodeSample; split <;> (try split) <;> (try split) <;> exact ⟨rfl, rfl⟩

theorem decodeParity_agent (v : Slot) : agentOf (decodeParity v) = .consumer ∧ (decodeParity v).wf = true := by
  unfold decodeParity; split <;> (try split) <;> (try split) <;> exact ⟨rfl, rfl⟩

theorem slot_cases (v : Slot) : v = 0#2 ∨ v = 1#2 ∨ v = 2#2 ∨ v = 3#2 := by
  revert v; decide

theorem carries_sample {s : State} {w : Word} (hw : currentWord s = some w) :
    CarriesFetched (decodeSample (bitsAt w (s.pd.cursor % 32))) s := by
  have hv : fetchedSlot s = some (bitsAt w (s.pd.cursor % 32)) := by rw [fetchedSlot, hw]; rfl
  unfold CarriesFetched
  rw [hv]
  rcases slot_cases (bitsAt w (s.pd.cursor % 32)) with e | e | e | e <;> rw [e] <;> exact rfl

theorem carries_parity (v : Slot) (s : State) : CarriesFetched (decodeParity v) s := by
  rcases slot_cases v with rfl | rfl | rfl | rfl <;> exact True.intro

theorem pdFetch_agent (s : State) :
    agentOf (pdFetch s) = .consumer ∧ (pdFetch s).wf = true ∧ CarriesFetched (pdFetch s) s := by
  unfold pdFetch
  split
  · split <;> exact ⟨rfl, rfl, True.intro⟩
  · rename_i w hw
    split
    · exact ⟨rfl, rfl, hw⟩
    · split
      · exact ⟨(decodeSample_agent _).1, (decodeSample_agent _).2, carries_sample hw⟩
      · exact ⟨(decodeParity_agent _).1, (decodeParity_agent _).2, carries_parity _ s⟩

theorem consumerInstr_agent {s : State} {i : Instr} (h : consumerInstr s = some i) :
    agentOf i = .consumer ∧ i.wf = true ∧ ConsumerLive s ∧ CarriesFetched i s := by
  unfold consumerInstr at h
  split at h
  · cases h
  · rename_i hh
    have hl : s.pd.phase ≠ .fault → ConsumerLive s := fun hp => ⟨hp, by simpa using hh⟩
    split at h <;> rename_i hp
    · cases h
    · cases h; exact ⟨rfl, rfl, hl (by simp [hp]), True.intro⟩
    · cases h
      have hf := pdFetch_agent s
      exact ⟨hf.1, hf.2.1, hl (by simp [hp]), hf.2.2⟩
    · cases h

theorem CarriesFetched.of_fetched {i : Instr} {s t : State} (hf : Fetched s t) (h : CarriesFetched i s) :
    CarriesFetched i t := by
  have e : currentWord t = currentWord s := by unfold currentWord; rw [hf.pd, hf.params]
  have e2 : fetchedSlot t = fetchedSlot s := by unfold fetchedSlot; rw [e, hf.pd]
  unfold CarriesFetched at h ⊢
  rw [e, e2]
  exact h

/-- A label names an instruction that is well formed and carries no data. -/
theorem decodeOpc_label {b : Byte} {i : Instr} (h : decodeOpc b = some i) :
    i.wf = true ∧ i.format = .opc8 := by
  have key : ∀ b : Byte, ∀ i, decodeOpc b = some i → i.wf = true ∧ i.format = .opc8 := by
    intro b i h
    unfold decodeOpc at h
    obtain ⟨row, hr, rfl⟩ := Option.map_eq_some_iff.mp h
    have hm := List.mem_of_find?_eq_some hr
    have all : ∀ row ∈ opcTable, row.2.wf = true ∧ row.2.format = .opc8 := by decide
    exact all row hm
  exact key b i h

theorem carries_of_label {i : Instr} (s : State) (h : i.format = .opc8) : CarriesFetched i s := by
  cases i <;> first | exact True.intro | cases h

/-- One step, taken apart: from a state that differs from `s` only in the surroundings' lists, an instruction that
is well formed and carries what its unit fetches; or a byte the host writes; or nothing; or a stop under
HALT_POLICY. -/
inductive StepCase (s t : State) : Prop where
  | instr (i : Instr) (u : State) (hw : i.wf = true) (hd : CarriesFetched i s) (hu : Fetched s u)
      (from_ : (∃ b rest, s.env.script = .label b :: rest ∧ decodeOpc b = some i) ∨
        (∃ n r g b a rest, s.env.script = .pixel n r g b a :: rest ∧ i = .pixel r g b a) ∨
        (s.env.script = [] ∧ (workerInstr s = some i ∨ consumerInstr s = some i)))
      (he : exec i u = .next t)
  | wrote (off : Fin Config.PIX_BYTES) (v : Byte) (u : State) (hu : Fetched s u)
      (from_ : ∃ rest, s.env.script = .byte off v :: rest)
      (hp : s.pd.phase ≠ .check ∧ s.pd.phase ≠ .run) (ht : t = u.setPix (s.pix.write off v))
  | still (h : Fetched s t)
  | haltWorker (u : State) (hu : Fetched s u) (hl : WorkerLive s) (hp : s.pd.phase = .fault)
      (ht : t = u.setFs { s.fs with stopped := true })
  | haltConsumer (u : State) (hu : Fetched s u) (hl : ConsumerLive s) (hp : s.fs.phase = .fault)
      (ht : t = u.setPd { s.pd with stopped := true })

theorem move_cases {s t : State} (h : move s = .next t) : StepCase s t := by
  unfold move at h
  split at h
  · rename_i b rest hs
    split at h
    · rename_i i hi
      split at h
      · cases h; exact .still (fetched_unfolding _ rest s)
      · have hl := decodeOpc_label hi
        rcases settle_eq_next h with h | rfl
        · exact .instr i _ hl.1 (carries_of_label s hl.2) (fetched_act rest s) (Or.inl ⟨b, rest, hs, hi⟩) h
        · exact .still (fetched_act rest s)
    · cases h
  · rename_i n r g b a rest hs
    rcases settle_eq_next h with h | rfl
    · exact .instr (.pixel r g b a) _ rfl True.intro ((fetched_act rest s).trans (fetched_pixel n _))
        (Or.inr (Or.inl ⟨n, r, g, b, a, rest, hs, rfl⟩)) h
    · exact .still (fetched_act rest s)
  · rename_i off v rest hs
    rcases settle_eq_next h with h | rfl
    · obtain ⟨hp, rfl⟩ := hostByte_eq_next h
      exact .wrote off v _ (fetched_act rest s) ⟨rest, hs⟩ hp rfl
    · exact .still (fetched_act rest s)
  · rename_i hs
    have hc := choose_scheduled s
    split at h
    · cases h; exact .still (Fetched.refl s)
    · rename_i i u hv
      rw [hv] at hc
      cases hc with
      | worker _ _ hi hu =>
        have ha := workerInstr_agent hi
        refine .instr i u ha.2.1 ?_ hu (Or.inr (Or.inr ⟨hs, Or.inl hi⟩)) h
        cases i <;> first | exact True.intro | cases ha.1
      | consumer _ _ hi hu =>
        have ha := consumerInstr_agent hi
        exact .instr i u ha.2.1 ha.2.2.2 hu (Or.inr (Or.inr ⟨hs, Or.inr hi⟩)) h

theorem workerInstr_fetched {s u : State} (h : Fetched s u) : workerInstr u = workerInstr s := by
  unfold workerInstr fsHalted; rw [h.fs, h.pd, h.pipe, h.params]

theorem consumerInstr_fetched {s u : State} (h : Fetched s u) : consumerInstr u = consumerInstr s := by
  unfold consumerInstr pdFetch pdHalted currentWord exposedPd; rw [h.fs, h.pd, h.params]

theorem WorkerLive.of_fetched {s u : State} (h : Fetched s u) (k : WorkerLive u) : WorkerLive s := by
  unfold WorkerLive fsHalted at k ⊢; rw [← h.fs, ← h.pd, ← h.params]; exact k

theorem ConsumerLive.of_fetched {s u : State} (h : Fetched s u) (k : ConsumerLive u) : ConsumerLive s := by
  unfold ConsumerLive pdHalted at k ⊢; rw [← h.fs, ← h.pd, ← h.params]; exact k

/-- The case does not depend on the draw that came before. -/
theorem StepCase.of_fetched {s u t : State} (hu : Fetched s u) (hs : u.env.script = s.env.script)
    (h : StepCase u t) : StepCase s t := by
  have back : Fetched u s := ⟨hu.params.symm, hu.fs.symm, hu.pd.symm, hu.pipe.symm, hu.pix.symm, hu.src.symm,
    hu.clock.symm⟩
  cases h with
  | instr i v hw hd hv hf he =>
    rw [hs, workerInstr_fetched hu, consumerInstr_fetched hu] at hf
    exact .instr i v hw (hd.of_fetched back) (hu.trans hv) hf he
  | wrote off v w hw hf hp ht =>
    rw [hs] at hf
    rw [hu.pd] at hp
    exact .wrote off v w (hu.trans hw) hf hp (by rw [ht, hu.pix])
  | still h => exact .still (hu.trans h)
  | haltWorker v hv hl hp ht =>
    exact .haltWorker v (hu.trans hv) (hl.of_fetched hu) (by rw [← hu.pd]; exact hp) (by rw [ht, hu.fs])
  | haltConsumer v hv hl hp ht =>
    exact .haltConsumer v (hu.trans hv) (hl.of_fetched hu) (by rw [← hu.fs]; exact hp) (by rw [ht, hu.pd])

theorem step_cases {s t : State} (h : step s = .next t) : StepCase s t := by
  unfold step at h
  split at h
  · rename_i v hv
    cases h
    rcases stopsHere_cases hv with ⟨hx, rfl⟩ | ⟨hx, rfl⟩
    · have hx := exposedFs_iff.mp hx
      exact .haltWorker _ (fetched_draw s) hx.2.2 hx.2.1 rfl
    · have hx := exposedPd_iff.mp hx
      exact .haltConsumer _ (fetched_draw s) hx.2.2 hx.2.1 rfl
  · exact (move_cases h).of_fetched (fetched_goesOn s) (goesOn_script s)

end Machine
end Sys2Proof
end

