-- ==== Sys2Proof/Laws/Kept.lean ====
section
/-! SUPPORT. What every instruction keeps: PD's invariants under the consumer's instructions, the account of the
stream and of the frames in flight under the worker's, and all of them under RESET; and that no instruction ends in
a fault of the model from a sound state. -/

namespace Sys2Proof
namespace Machine

/-! ### PD -/

theorem PdKept.of_eq {s t : State} (h : PdKept s) (hp : t.pd = s.pd) (hx : t.pix = s.pix)
    (hq : t.params = s.params) : PdKept t := by
  obtain ⟨h1, h2⟩ := h
  refine ⟨?_, ?_⟩
  · unfold PdSound at h1 ⊢; rw [hp]; exact h1
  · intro hr f hf k hk
    rw [hp] at hr hf hk
    rw [hx, hq]
    exact h2 hr f hf k hk

theorem fetchedSlot_eq {s : State} {w : Word} (hw : currentWord s = some w) :
    fetchedSlot s = some (bitsAt w (s.pd.cursor % 32)) := by rw [fetchedSlot, hw]; rfl

/-- A sample written in phase RUN, of the slot PD fetches, keeps PD's invariants. -/
theorem putSample_kept {v : Slot} {s t : State} (h : PdKept s) (hp : s.pd.phase = .run)
    (hs : slotIndex s.pd.cursor < 15) (hv : fetchedSlot s = some v) (he : putSample v s = .next t) : PdKept t := by
  refine ⟨putSample_sound h.1 hp hs he, putSample_picture h ?_ hp he⟩
  intro g hg
  obtain ⟨w, f, hw, hf, hfw⟩ := h.1.word hp
  rw [hf] at hg; cases hg
  rw [fetchedSlot_eq hw] at hv
  rw [sampleOf_cursor h.1 hs hfw, hv]

theorem takeParity_kept {p : Slot} {s : State} (h : PdKept s) (hp : s.pd.phase = .run)
    (hs : slotIndex s.pd.cursor = 15) : PdKept (takeParity p s) :=
  ⟨takeParity_sound h.1 hp hs, takeParity_picture h.2 hp⟩

/-- Every instruction of the consumer keeps PD's invariants, if the data it carries is what PD fetches. -/
theorem exec_consumer_kept {i : Instr} {s t : State} (hi : agentOf i = .consumer) (hd : CarriesFetched i s)
    (hs : PdKept s) (h : exec i s = .next t) : PdKept t := by
  cases i <;> simp only [agentOf, reduceCtorEq] at hi
  case cpTick =>
    obtain ⟨⟨-, hp⟩, h⟩ := execCpTick_eq_next h
    have hk : PdKept (polled s) := hs.of_eq rfl rfl rfl
    rcases h with ⟨-, rfl⟩ | ⟨f, -, h⟩
    · exact hk
    · exact decodeFrame_kept hk hp h
  case cpPoll =>
    simp only [exec] at h
    obtain ⟨hg, h⟩ := gate_eq_next.mp h
    cases h
    exact hs.of_eq rfl rfl rfl
  all_goals
    simp only [exec] at h
    obtain ⟨hg, h⟩ := gate_eq_next.mp h
    obtain ⟨-, hp, hc⟩ := pdStop_eq_none.mp hg
  case decodeOp => obtain ⟨f, -, h⟩ := withTaken_eq_next h; exact decodeFrame_kept hs hp h
  case pdStart => obtain ⟨f, -, h⟩ := withTaken_eq_next h; cases h; exact pdStarted_kept f hs.1 hp
  case pdCheck => obtain ⟨f, hf, h⟩ := withFrm_eq_next h; cases h; exact pdChecked_kept hs.1 hp hf
  case pdSample =>
    obtain ⟨w, hw, h⟩ := withWord_eq_next h
    exact putSample_kept hs hp (of_decide_eq_true hc) (fetchedSlot_eq hw) h
  case pdParity =>
    obtain ⟨w, -, h⟩ := withWord_eq_next h; cases h
    exact takeParity_kept hs hp (of_decide_eq_true hc)
  case pdDone =>
    simp only [Bool.and_eq_true, decide_eq_true_eq] at hc
    exact absurd hc.2 (fun e => pdFinished_never hs.1 hp e)
  case pdWord =>
    obtain ⟨w, hw, h⟩ := withWord_eq_next h
    exact (putWord_kept hs hp (of_decide_eq_true hc) hw h).1
  case pword => exact (putWord_kept hs hp (of_decide_eq_true hc) hd h).1
  case lvl0 | lvl1 | lvl2 | lvl3 => exact putSample_kept hs hp (of_decide_eq_true hc) hd h
  case parOk | parNz1 | parNz2 | parNz3 => cases h; exact takeParity_kept hs hp (of_decide_eq_true hc)

/-! ### The stream and the frames in flight -/

/-- The frames emitted account for the stream, and the new ones are in flight behind the old (R41, R39 (3)). -/
def Accounted (frames : List Bytes) (s : State) (new : List Bytes) (t : State) : Prop :=
  FsSound t ∧ AccountsFor (frames ++ new) t ∧ inFlight t = inFlight s ++ new

/-- A step of FS that emits nothing and keeps the account. -/
theorem accounts_same {frames : List Bytes} {s t : State} (hc : ∀ f ∈ frames, FrameClean f)
    (hf : s.fs.phase ≠ .fault) (ha : AccountsFor frames s)
    (h : t.fs.phase ≠ .fault → ∃ c, t.src.stream = s.src.stream ++ c ∧ heldBytes t = heldBytes s ++ c) :
    AccountsFor frames t := by
  refine ⟨hc, fun hp => ?_⟩
  obtain ⟨c, h1, h2⟩ := h hp
  rw [h1, h2, ha.2 hf, List.append_assoc]

theorem fsStarted_accounts {frames : List Bytes} {s : State} (ha : AccountsFor frames s)
    (hp : s.fs.phase = .idle) : AccountsFor frames (fsStarted s) :=
  accounts_same ha.1 (by simp [hp]) ha (fun _ => ⟨[], by simp [fsStarted], by simp [fsStarted, heldBytes, hp]⟩)

theorem fsPolled_accounts {frames : List Bytes} {s : State} (ha : AccountsFor frames s)
    (hp : s.fs.phase = .poll) : AccountsFor frames (fsPolled s) := by
  refine accounts_same ha.1 (by simp [hp]) ha ?_
  unfold fsPolled
  split
  · intro h; simp at h
  · intro _; exact ⟨[], by simp, by simp [heldBytes, (afterAvail_onlySource s).fs]⟩
  · rename_i n _
    intro _
    refine ⟨[], by simp, ?_⟩
    by_cases hn : n = 0 <;> simp [heldBytes, hp, hn]

theorem fsReadDone_accounts {frames : List Bytes} (m : Nat) {s : State} (ha : AccountsFor frames s)
    (hp : s.fs.phase = .read) : AccountsFor frames (fsReadDone m s) := by
  refine accounts_same ha.1 (by simp [hp]) ha ?_
  unfold fsReadDone
  split
  · intro h; simp at h
  · rename_i hr
    intro _
    exact ⟨[], by simp [afterRead_stream_silent hr], by simp [heldBytes, (afterRead_onlySource m s).fs]⟩
  · rename_i c hr
    split
    · intro h; simp at h
    · intro _
      exact ⟨c, by simp [afterRead_stream hr], by simp [heldBytes, hp]⟩

theorem fsScanned_accounts {frames : List Bytes} {s : State} (ha : AccountsFor frames s)
    (hp : s.fs.phase = .scan) : AccountsFor frames (fsScanned s) := by
  refine accounts_same ha.1 (by simp [hp]) ha ?_
  intro _
  refine ⟨[], by simp [fsScanned], ?_⟩
  unfold fsScanned
  cases findFirst s.fs.acc Config.MARKER <;> simp [heldBytes, hp]

theorem fsEmitted_accounts {frames : List Bytes} {s t : State} (hs : FsSound s) (ha : AccountsFor frames s)
    (hp : s.fs.phase = .emit) (hn : s.fs.frameOut = none) (he : fsEmitted s = .next t) :
    ∃ f, AccountsFor (frames ++ [f]) t ∧ inFlight t = inFlight s ++ [f] := by
  have hstream := ha.2 (by simp [hp])
  obtain ⟨i, hi, rfl⟩ := fsEmitted_eq_next he
  have hm : findFirst s.fs.acc Config.MARKER = some i := by rw [← (hs.2.2.1 hp).2, hi]
  refine ⟨s.fs.acc.take i, ⟨?_, fun _ => ?_⟩, by simp [inFlight, hn]⟩
  · intro f hf
    rcases List.mem_append.mp hf with h1 | h1
    · exact ha.1 f h1
    · rw [List.mem_singleton.mp h1]; exact frameClean_take hm
  · simp only [heldBytes, hp, reduceCtorEq, if_false] at hstream
    have hsplit := (findFirst_split hm).1
    simp only [heldBytes, State.setFs_src, State.setFs_fs, if_true, joinFrames_append, hstream]
    conv_lhs => rw [hsplit]
    simp [Config.MARKER, Config.MARKER_LEN]

theorem inFlight_of_fs {s t : State} (hq : t.pipe.q = s.pipe.q) (hf : t.fs.frameOut = s.fs.frameOut) :
    inFlight t = inFlight s := by unfold inFlight; rw [hq, hf]

theorem fsPolled_frameOut (s : State) : (fsPolled s).fs.frameOut = s.fs.frameOut := by
  unfold fsPolled; split
  · simp [(afterAvail_onlySource s).fs]
  · simp [(afterAvail_onlySource s).fs]
  · rfl

theorem fsReadDone_frameOut (m : Nat) (s : State) : (fsReadDone m s).fs.frameOut = s.fs.frameOut := by
  unfold fsReadDone; split
  · simp [(afterRead_onlySource m s).fs]
  · simp [(afterRead_onlySource m s).fs]
  · split <;> rfl

theorem pushed_inFlight {f : Bytes} {s : State} (h : s.fs.frameOut = some f) :
    inFlight (pushed f s) = inFlight s := by
  simp [inFlight, pushed_q, pushed_fs, h]

theorem AccountsFor.of_eq {frames : List Bytes} {s t : State} (h : AccountsFor frames s)
    (hs : t.src.stream = s.src.stream) (hf : t.fs = { s.fs with frameOut := t.fs.frameOut }) :
    AccountsFor frames t := by
  refine ⟨h.1, fun hp => ?_⟩
  have := h.2 (by rw [hf] at hp; exact hp)
  unfold heldBytes at this ⊢
  rw [hs, this, hf]

theorem Accounted.quiet {frames new : List Bytes} {s u v : State} (h : Accounted frames s new u) (hs : FsSound v)
    (ha : AccountsFor (frames ++ new) v) (hq : inFlight v = inFlight u) : ∃ n, Accounted frames s n v :=
  ⟨new, hs, ha, hq.trans h.2.2⟩

theorem accounted_start {frames : List Bytes} {s : State} (u : State) (h : ∃ n, Accounted frames s n u)
    (hp : u.fs.phase = .idle) : ∃ n, Accounted frames s n (fsStarted u) := by
  obtain ⟨n, h⟩ := h
  exact h.quiet (fsStarted_sound h.1 hp) (fsStarted_accounts h.2.1 hp) rfl

theorem accounted_poll {frames : List Bytes} {s : State} (u : State) (h : ∃ n, Accounted frames s n u)
    (hp : u.fs.phase = .poll) (hk : u.fs.stuck = false) : ∃ n, Accounted frames s n (fsPolled u) := by
  obtain ⟨n, h⟩ := h
  exact h.quiet (fsPolled_sound h.1 hp hk) (fsPolled_accounts h.2.1 hp)
    (inFlight_of_fs (by rw [(fsPolled_only u).pipe]) (fsPolled_frameOut u))

theorem accounted_read {frames : List Bytes} {s : State} {m : Nat} (hm : m ≤ Config.CHUNK_MAX) (u : State)
    (h : ∃ n, Accounted frames s n u) (hp : u.fs.phase = .read) (hk : u.fs.stuck = false) :
    ∃ n, Accounted frames s n (fsReadDone m u) := by
  obtain ⟨n, h⟩ := h
  exact h.quiet (fsReadDone_sound hm h.1 hp hk) (fsReadDone_accounts m h.2.1 hp)
    (inFlight_of_fs (by rw [(fsReadDone_only m u).pipe]) (fsReadDone_frameOut m u))

theorem accounted_scan {frames : List Bytes} {s : State} (u : State) (h : ∃ n, Accounted frames s n u)
    (hp : u.fs.phase = .scan) : ∃ n, Accounted frames s n (fsScanned u) := by
  obtain ⟨n, h⟩ := h
  exact h.quiet (fsScanned_sound h.1 hp) (fsScanned_accounts h.2.1 hp) rfl

theorem accounted_emit {frames : List Bytes} {s : State} (u v : State) (h : ∃ n, Accounted frames s n u)
    (hp : u.fs.phase = .emit) (hn : u.fs.frameOut = none) (he : fsEmitted u = .next v) :
    ∃ n, Accounted frames s n v := by
  obtain ⟨n, h⟩ := h
  obtain ⟨f, hf, hq⟩ := fsEmitted_accounts h.1 h.2.1 hp hn he
  refine ⟨n ++ [f], fsEmitted_sound h.1 hp he, by rw [← List.append_assoc]; exact hf, ?_⟩
  rw [hq, h.2.2, List.append_assoc]

theorem accounted_push {frames : List Bytes} {s : State} (u : State) (f : Bytes)
    (h : ∃ n, Accounted frames s n u) (hf : u.fs.frameOut = some f) : ∃ n, Accounted frames s n (pushed f u) := by
  obtain ⟨n, h⟩ := h
  refine h.quiet ?_ (h.2.1.of_eq (by rw [pushed_src]) (by rw [pushed_fs])) (pushed_inFlight hf)
  have := h.1
  unfold FsSound at this ⊢
  rw [pushed_fs]; exact this

/-- Every instruction of the worker: no byte is lost or invented, no frame lost, repeated or reordered. -/
theorem exec_worker_accounted {i : Instr} {s t : State} {frames : List Bytes} (hi : agentOf i = .worker)
    (hw : i.wf = true) (hs : FsSound s) (ha : AccountsFor frames s) (h : exec i s = .next t) :
    ∃ new, Accounted frames s new t := by
  have h0 : ∃ n, Accounted frames s n s := ⟨[], hs, by simpa using ha, by simp⟩
  have env : ∀ u : State, u.fs = s.fs → u.src = s.src → u.pipe.q = s.pipe.q → ∃ n, Accounted frames s n u := by
    intro u h1 h2 h3
    refine ⟨[], ?_, ?_, ?_⟩
    · unfold FsSound at hs ⊢; rw [h1]; exact hs
    · simpa using ha.of_eq (by rw [h2]) (by rw [h1])
    · simp [inFlight, h1, h3]
  cases i <;> simp only [agentOf, reduceCtorEq] at hi <;> simp only [exec] at h <;>
    obtain ⟨hg, h⟩ := gate_eq_next.mp h
  case srcAvail | fsPoll =>
    cases h
    obtain ⟨hl, hp⟩ := fsStop_eq_none.mp hg
    exact accounted_poll s h0 hp hl.2.1
  case srcRead m _ =>
    cases h
    have hm : m = Config.CHUNK_MAX := by simpa [Instr.wf] using hw
    obtain ⟨hl, hp⟩ := fsStop_eq_none.mp hg
    exact accounted_read (Nat.le_of_eq hm) s h0 hp hl.2.1
  case fsRead =>
    cases h
    obtain ⟨hl, hp⟩ := fsStop_eq_none.mp hg
    exact accounted_read (Nat.le_refl _) s h0 hp hl.2.1
  case catchOp =>
    exact catchLoop_induct (P := fun u => ∃ n, Accounted frames s n u) (accounted_poll)
      (accounted_read (Nat.le_refl _)) accounted_scan accounted_emit _
      (accounted_start s h0 (fsStop_eq_none.mp hg).2) h
  case fsStart => cases h; exact accounted_start s h0 (fsStop_eq_none.mp hg).2
  case fsScan => cases h; exact accounted_scan s h0 (fsStop_eq_none.mp hg).2
  case marker => cases h; exact accounted_scan s h0 (markerStop_eq_none.mp hg).2.1
  case fsEmit =>
    have hp := (emitStop_eq_none.mp hg).2
    exact accounted_emit s t h0 hp.1 hp.2 h
  case runOp => cases h; exact env _ rfl rfl rfl
  case cpPush =>
    split at h
    · rename_i f hf; cases h; exact accounted_push s f h0 hf
    · cases h
  case cpReport => cases h; exact env _ rfl rfl rfl

/-! ### RESET -/

theorem resetState_fs (s : State) : FsKept (resetState s) := by
  refine ⟨⟨by simp [resetState, FsUnit.reset], by simp [resetState, FsUnit.reset], by simp [resetState, FsUnit.reset],
    by simp [resetState, FsUnit.reset], by simp [resetState, FsUnit.reset]⟩,
    fun _ => ⟨[], by simp, by simp [resetState, heldBytes, FsUnit.reset, joinFrames]⟩⟩

theorem resetState_pd (s : State) : PdKept (resetState s) := by
  refine ⟨⟨by simp [resetState, PdUnit.reset], by simp [resetState, PdUnit.reset],
    ⟨by simp [resetState, PdUnit.reset], by simp [resetState, PdUnit.reset], by simp [resetState, PdUnit.reset]⟩,
    by simp [resetState, PdUnit.reset], by simp [resetState, PdUnit.reset],
    by simp [resetState, PdUnit.reset, FrameHeld]⟩, ?_⟩
  intro h; cases h

/-! ### No fault of the model -/

theorem FsSound.ready {s : State} (h : FsSound s) : EmitReady s := fun hp => by
  rw [(h.2.2.1 hp).2]; exact (h.2.2.1 hp).1

/-- A request has its step, or none at all; it neither faults nor is unknown. -/
def Answered (o : Out) : Prop := (∃ t, o = .next t) ∨ ∃ w, o = .refused (.noStep w)

theorem Answered.next (t : State) : Answered (.next t) := Or.inl ⟨t, rfl⟩

theorem Answered.gate {w : Option NoStep} {o : Out} (h : w = none → Answered o) : Answered (gate w o) := by
  cases w with
  | none => exact h rfl
  | some r => exact Or.inr ⟨r, rfl⟩

theorem Answered.withTaken {s : State} {k : Bytes → Out} (h : ∀ f, Answered (k f)) : Answered (withTaken s k) := by
  unfold Machine.withTaken; split
  · exact h _
  · exact Or.inr ⟨_, rfl⟩

/-- From a sound state every instruction has its step or none: it never ends in a fault of the model. -/
theorem exec_answered (i : Instr) {s : State} (hf : FsSound s) (hp : PdSound s) : Answered (exec i s) := by
  cases i <;> simp only [exec]
  case resetOp => exact .next _
  all_goals refine Answered.gate (fun hg => ?_)
  case srcAvail | fsPoll | srcRead | fsRead | fsStart | fsScan | marker | cpReport | cpPoll | runOp | pixel =>
    exact .next _
  case catchOp =>
    obtain ⟨t, ht, -⟩ := catchLoop_completes (catchFuel s) (fsStarted_ready s) (catchFuel_enough s)
    exact Or.inl ⟨t, ht⟩
  case fsEmit => exact Or.inl (fsEmitted_completes hf.ready (emitStop_eq_none.mp hg).2.1)
  case cpPush =>
    split
    · exact .next _
    · exact Or.inr ⟨_, rfl⟩
  case cpTick =>
    split
    · exact Or.inl (decodeFrame_completes _ _)
    · exact .next _
  case decodeOp => exact Answered.withTaken (fun f => Or.inl (decodeFrame_completes f s))
  case pdStart => exact Answered.withTaken (fun f => .next _)
  all_goals obtain ⟨-, hph, hc⟩ := pdStop_eq_none.mp hg
  case pdCheck =>
    have := hp.2.2.2.2.2
    simp only [FrameHeld, hph] at this
    obtain ⟨f, hfr⟩ := Option.ne_none_iff_exists'.mp this
    rw [withFrm, hfr]; exact .next _
  case pdSample =>
    obtain ⟨w, f, hw, -, -⟩ := hp.word hph
    rw [withWord, hw]; exact Or.inl (putSample_completes _ hp hph (of_decide_eq_true hc))
  case pdParity =>
    obtain ⟨w, f, hw, -, -⟩ := hp.word hph
    rw [withWord, hw]; exact .next _
  case pdDone => exact .next _
  case pdWord =>
    obtain ⟨w, f, hw, -, -⟩ := hp.word hph
    rw [withWord, hw]; exact Or.inl (putWord_completes _ hp hph (of_decide_eq_true hc))
  case pword => exact Or.inl (putWord_completes _ hp hph (of_decide_eq_true hc))
  case lvl0 | lvl1 | lvl2 | lvl3 => exact Or.inl (putSample_completes _ hp hph (of_decide_eq_true hc))
  case parOk | parNz1 | parNz2 | parNz3 => exact .next _

end Machine
end Sys2Proof
end

