-- ==== Sys2Proof/Laws/PerInstr.lean ====
section
/-! SUPPORT. A statement about every row as syntax, row by row: the length of its encoding is the one its format
gives it (R90, R95, R96, R100, R102). -/

namespace Sys2Proof
namespace Laws
namespace EncodedLength

/-- How many bytes a format's bits stand in (R90): a label or a slot alone in one byte, the rest in four. -/
def bytesOf : Format → Nat
  | .opc8 | .sampleSlot | .paritySlot => 1
  | .mk | .pw | .px => 4

/-- The row's encoding has its format's length, in either byte order. -/
def Statement (i : Instr) : Prop := ∀ o, (encode o i).length = bytesOf i.format

theorem srcAvail : Statement .srcAvail := fun _ => rfl
theorem srcRead (maxLen : Nat) : Statement (.srcRead maxLen) := fun _ => rfl
theorem catchOp : Statement .catchOp := fun _ => rfl
theorem fsStart : Statement .fsStart := fun _ => rfl
theorem fsPoll : Statement .fsPoll := fun _ => rfl
theorem fsRead : Statement .fsRead := fun _ => rfl
theorem fsScan : Statement .fsScan := fun _ => rfl
theorem fsEmit : Statement .fsEmit := fun _ => rfl
theorem decodeOp : Statement .decodeOp := fun _ => rfl
theorem pdStart : Statement .pdStart := fun _ => rfl
theorem pdCheck : Statement .pdCheck := fun _ => rfl
theorem pdSample : Statement .pdSample := fun _ => rfl
theorem pdParity : Statement .pdParity := fun _ => rfl
theorem pdDone : Statement .pdDone := fun _ => rfl
theorem pdWord : Statement .pdWord := fun _ => rfl
theorem runOp : Statement .runOp := fun _ => rfl
theorem cpPush : Statement .cpPush := fun _ => rfl
theorem cpPoll : Statement .cpPoll := fun _ => rfl
theorem cpReport : Statement .cpReport := fun _ => rfl
theorem cpTick : Statement .cpTick := fun _ => rfl
theorem resetOp : Statement .resetOp := fun _ => rfl
theorem marker : Statement .marker := fun _ => rfl
theorem pword (w : Word) : Statement (.pword w) := fun o => bytesOfWord_length o w
theorem pixel (r g b a : Byte) : Statement (.pixel r g b a) := fun _ => rfl
theorem lvl0 : Statement .lvl0 := fun _ => rfl
theorem lvl1 : Statement .lvl1 := fun _ => rfl
theorem lvl2 : Statement .lvl2 := fun _ => rfl
theorem lvl3 : Statement .lvl3 := fun _ => rfl
theorem parOk : Statement .parOk := fun _ => rfl
theorem parNz1 : Statement .parNz1 := fun _ => rfl
theorem parNz2 : Statement .parNz2 := fun _ => rfl
theorem parNz3 : Statement .parNz3 := fun _ => rfl

end EncodedLength
end Laws
end Sys2Proof
end

