-- ==== Sys2Proof/Laws/Run.lean ====
section
/-! SUPPORT. The instruction that an agent's sequencing state selects always has its step in a sound state; and a
worker that is alone takes, step by step, the steps that CATCH merges (R125, R181, R215). -/

namespace Sys2Proof
namespace Machine

/-! ### What is selected has a step -/

theorem fsStop_of_live {p : FsPhase} {s : State} (hl : WorkerLive s) (hp : s.fs.phase = p) : fsStop p s = none :=
  fsStop_eq_none.mpr ⟨hl, hp⟩

theorem gate_open {w : Option NoStep} {o : Out} (h : w = none) : gate w o = o := by rw [h]; rfl

/-- The worker's selected instruction has its step. -/
theorem worker_moves {s : State} {i : Instr} (hs : FsSound s) (h : workerInstr s = some i) :
    ∃ t, exec i s = .next t := by
  have hl := (workerInstr_agent h).2.2
  have hg : ∀ p, s.fs.phase = p → fsStop p s = none := fun p hp => fsStop_of_live hl hp
  have push : s.fs.frameOut.isSome = true → ∃ t, exec .cpPush s = .next t := by
    intro hf
    obtain ⟨f, hf⟩ := Option.isSome_iff_exists.mp hf
    exact ⟨pushed f s, by simp only [exec, execCpPush, gate_open (workerStop_eq_none.mpr hl), hf]⟩
  unfold workerInstr at h
  split at h
  · cases h
  · split at h <;> rename_i hp
    · split at h
      · split at h <;> cases h
        · exact push ‹_›
        · exact ⟨_, gate_open (hg _ hp)⟩
      · cases h
    · cases h; exact ⟨_, gate_open (hg _ hp)⟩
    · cases h; exact ⟨_, gate_open (hg _ hp)⟩
    · split at h <;> cases h
      · exact ⟨_, gate_open (markerStop_eq_none.mpr ⟨hl, hp, ‹_›⟩)⟩
      · exact ⟨_, gate_open (hg _ hp)⟩
    · split at h
      · split at h <;> cases h; exact push ‹_›
      · rename_i hf
        cases h
        obtain ⟨t, ht⟩ := fsEmitted_completes hs.ready hp
        exact ⟨t, (gate_open (emitStop_eq_none.mpr ⟨hl, hp, by simpa using hf⟩)).trans ht⟩
    · cases h

/-- The consumer's selected instruction has its step. -/
theorem consumer_moves {s : State} {i : Instr} (hs : PdSound s) (h : consumerInstr s = some i) :
    ∃ t, exec i s = .next t := by
  have hl := (consumerInstr_agent h).2.2.1
  unfold consumerInstr at h
  split at h
  · cases h
  · split at h <;> rename_i hp
    · cases h
    · cases h
      have := hs.2.2.2.2.2
      simp only [FrameHeld, hp] at this
      obtain ⟨f, hf⟩ := Option.ne_none_iff_exists'.mp this
      refine ⟨pdChecked f s, ?_⟩
      simp only [exec, execPdCheck, gate_open (pdStop_eq_none.mpr ⟨hl, hp, rfl⟩), withFrm, hf]
    · cases h
      obtain ⟨w, f, hw, -, -⟩ := hs.word hp
      have hg : ∀ c : Bool, c = true → pdStop .run c s = none := fun c hc => pdStop_eq_none.mpr ⟨hl, hp, hc⟩
      unfold pdFetch
      simp only [hw]
      split
      · rename_i hc
        have hc' : decide (s.pd.cursor % 32 = 0) = true := (Bool.and_eq_true _ _ ▸ hc).1
        obtain ⟨t, ht⟩ := putWord_completes w hs hp (of_decide_eq_true hc')
        exact ⟨t, (gate_open (hg _ hc')).trans ht⟩
      · split
        · rename_i hc
          have hc' : decide (slotIndex s.pd.cursor < Config.SAMPLES_PER_WORD) = true := by simpa using hc
          have go : ∀ v : Slot, ∃ t, gate (pdStop .run (decide (slotIndex s.pd.cursor < Config.SAMPLES_PER_WORD)) s)
              (putSample v s) = .next t := fun v => by rw [hg _ hc']; exact putSample_completes v hs hp hc
          rcases slot_cases (bitsAt w (s.pd.cursor % 32)) with e | e | e | e <;> rw [e] <;> exact go _
        · rename_i hc
          have hn := hs.2.2.1
          have hk : slotIndex s.pd.cursor = Config.SAMPLES_PER_WORD := by
            simp only [slotIndex, Config.SAMPLES_PER_WORD] at hc ⊢; omega
          have hc' : decide (slotIndex s.pd.cursor = Config.SAMPLES_PER_WORD) = true := by simpa using hk
          have go : ∀ v : Slot, ∃ t, gate (pdStop .run (decide (slotIndex s.pd.cursor = Config.SAMPLES_PER_WORD)) s)
              (.next (takeParity v s)) = .next t := fun v => by rw [hg _ hc']; exact ⟨_, rfl⟩
          rcases slot_cases (paritySlot w) with e | e | e | e <;> rw [e] <;> exact go _
    · cases h

theorem FsSound.of_fetched {s t : State} (h : FsSound s) (hf : Fetched s t) : FsSound t := by
  unfold FsSound at h ⊢; rw [hf.fs]; exact h

theorem PdSound.of_fetched {s t : State} (h : PdSound s) (hf : Fetched s t) : PdSound t := by
  unfold PdSound at h ⊢; rw [hf.pd]; exact h

theorem settle_answered {t : State} {o : Out} (h : Answered o) : ∃ u, settle t o = .next u := by
  rcases h with ⟨u, rfl⟩ | ⟨w, rfl⟩
  · exact ⟨u, rfl⟩
  · exact ⟨t, rfl⟩

/-- From a sound state every move answers a next state, unless the script's head is a byte that is no label. -/
theorem move_moves {s : State} (hf : FsSound s) (hp : PdSound s) :
    (∃ t, move s = .next t) ∨
      ∃ b rest, s.env.script = .label b :: rest ∧ decodeOpc b = none ∧ move s = .refused (.unknownCode b) := by
  have go : ∀ (i : Instr) (u : State), Fetched s u → Answered (exec i u) := fun i _ hu =>
    exec_answered i (hf.of_fetched hu) (hp.of_fetched hu)
  unfold move
  split
  · rename_i b rest hs
    split
    · split
      · exact Or.inl ⟨_, rfl⟩
      · exact Or.inl (settle_answered (go _ _ (fetched_act rest s)))
    · exact Or.inr ⟨b, rest, hs, ‹_›, rfl⟩
  · exact Or.inl (settle_answered (go _ _ ((fetched_act _ s).trans (fetched_pixel _ _))))
  · exact Or.inl (settle_answered (Answered.gate fun _ => .next _))
  · have hc := choose_scheduled s
    left
    split
    · exact ⟨_, rfl⟩
    · rename_i i u hv
      rw [hv] at hc
      cases hc with
      | worker _ _ hi hu => exact worker_moves (hf.of_fetched hu) (by rw [workerInstr_fetched hu, hi])
      | consumer _ _ hi hu => exact consumer_moves (hp.of_fetched hu) (by rw [consumerInstr_fetched hu, hi])

/-- From a sound state every step answers a next state, unless the script's head is a byte that is no label. -/
theorem step_moves {s : State} (hf : FsSound s) (hp : PdSound s) :
    (∃ t, step s = .next t) ∨
      ∃ b rest, s.env.script = .label b :: rest ∧ decodeOpc b = none ∧ step s = .refused (.unknownCode b) := by
  unfold step
  split
  · exact Or.inl ⟨_, rfl⟩
  · have h := move_moves (hf.of_fetched (fetched_goesOn s)) (hp.of_fetched (fetched_goesOn s))
    rw [goesOn_script] at h
    exact h

/-! ### A worker that is alone -/

/-- Nothing scripted, and the consumer idle: the worker takes every step. -/
def Alone (s : State) : Prop := s.env.script = [] ∧ s.pd.phase = .idle

theorem Alone.of_worker {s t : State} (h : Alone s) (hw : WorkerOnly s t) : Alone t :=
  ⟨by rw [hw.script]; exact h.1, by rw [hw.pd]; exact h.2⟩

/-- Nothing can stop a worker that is alone (R207). -/
theorem Alone.calm {s : State} (h : Alone s) (hp : s.fs.phase ≠ .fault) : ¬ MayStop s := by
  rintro ⟨-, ⟨hq, -⟩ | ⟨hq, -⟩⟩
  · rw [h.2] at hq; cases hq
  · exact hp hq

theorem Alone.step {s : State} {i : Instr} (h : Alone s) (hi : workerInstr s = some i) : step s = exec i s := by
  have hc : consumerInstr s = none := by
    unfold consumerInstr; split
    · rfl
    · rw [h.2]
  rw [step_of_calm (h.calm (workerInstr_agent hi).2.2.1), move, h.1]
  simp only [choose, hi, hc]

theorem steps_succ {n : Nat} {s t : State} (h : step s = .next t) : steps (n + 1) s = steps n t := by
  rw [steps, h]; rfl

theorem steps_add {n m : Nat} {s t : State} (h : steps n s = .next t) : steps (n + m) s = steps m t := by
  induction n generalizing s with
  | zero => cases h; rw [Nat.zero_add]
  | succ n ih =>
    rw [Nat.succ_add]
    rw [steps] at h ⊢
    cases hs : step s with
    | next u => rw [hs] at h; exact ih h
    | fault r => rw [hs] at h; cases h
    | refused r => rw [hs] at h; cases h

theorem Alone.live {s : State} (h : Alone s) (hp : s.fs.phase ≠ .fault) (hk : s.fs.stuck = false) : WorkerLive s :=
  ⟨hp, hk, by simp [fsHalted, h.2]⟩

/-- The worker's steps one after another are CATCH's loop. -/
theorem catchLoop_steps (n : Nat) {s t : State} (h : Alone s) (he : catchLoop n s = .next t) :
    ∃ k, steps k s = .next t := by
  induction n generalizing s with
  | zero => exact ⟨0, he⟩
  | succ n ih =>
    rw [catchLoop] at he
    split at he
    · exact ⟨0, he⟩
    rename_i hk
    have hk : s.fs.stuck = false := by simpa using hk
    have hl : s.fs.phase ≠ .fault → WorkerLive s := fun hp => h.live hp hk
    have hh : (fsHalted s || s.fs.stuck) = false := by simp [fsHalted, h.2, hk]
    have go : ∀ {i u}, workerInstr s = some i → exec i s = .next u → WorkerOnly s u →
        catchLoop n u = .next t → ∃ k, steps k s = .next t := by
      intro i u hi hx hw hu
      obtain ⟨k, hk⟩ := ih (h.of_worker hw) hu
      exact ⟨k + 1, by rw [steps_succ ((h.step hi).trans hx), hk]⟩
    cases hp : s.fs.phase with
    | idle => rw [hp] at he; exact ⟨0, he⟩
    | fault => rw [hp] at he; exact ⟨0, he⟩
    | poll =>
      rw [hp] at he; dsimp only at he
      split at he
      · exact ⟨0, he⟩
      · exact go (i := .fsPoll) (by simp [workerInstr, hh, hp])
          (gate_open (fsStop_of_live (hl (by simp [hp])) hp)) (fsPolled_only s).worker he
    | read =>
      rw [hp] at he; dsimp only at he
      split at he
      · exact ⟨0, he⟩
      · exact go (i := .fsRead) (by simp [workerInstr, hh, hp])
          (gate_open (fsStop_of_live (hl (by simp [hp])) hp)) (fsReadDone_only _ s).worker he
    | scan =>
      rw [hp] at he
      by_cases hm : (findFirst s.fs.acc Config.MARKER).isSome = true
      · exact go (i := .marker) (by simp [workerInstr, hh, hp, hm])
          (gate_open (markerStop_eq_none.mpr ⟨hl (by simp [hp]), hp, hm⟩)) (fsScanned_only s).worker he
      · exact go (i := .fsScan) (by simp [workerInstr, hh, hp, hm])
          (gate_open (fsStop_of_live (hl (by simp [hp])) hp)) (fsScanned_only s).worker he
    | emit =>
      rw [hp] at he; dsimp only at he
      split at he
      · exact ⟨0, he⟩
      · rename_i hf
        refine ⟨1, ?_⟩
        rw [steps_succ ((h.step (i := .fsEmit) (by simp [workerInstr, hh, hp, hf])).trans
          ((gate_open (emitStop_eq_none.mpr ⟨hl (by simp [hp]), hp, by simpa using hf⟩)).trans he))]
        rfl

/-- With the worker loop running and nothing in FRAME_OUT, the worker that is alone makes a CATCH of its own (R181). -/
theorem running_steps {s t : State} (h : Alone s) (hl : WorkerLive s) (hp : s.fs.phase = .idle)
    (hr : s.pipe.running = true) (hf : s.fs.frameOut = none) (he : exec .catchOp s = .next t) :
    ∃ k, steps k s = .next t := by
  have he : catchLoop (catchFuel s) (fsStarted s) = .next t := (gate_eq_next.mp he).2
  obtain ⟨k, hk⟩ := catchLoop_steps _ (h.of_worker (fsStarted_only s).worker) he
  have hi : workerInstr s = some .fsStart := by simp [workerInstr, hp, hr, hf, hl.2.1, hl.2.2]
  exact ⟨k + 1, (steps_succ ((h.step hi).trans (gate_open (fsStop_of_live hl hp)))).trans hk⟩

end Machine
end Sys2Proof
end

