-- ==== Sys2Proof/Laws/Unfold.lean ====
section
/-! SUPPORT. The steps that an operation gives way to where its unit may stop (R104, R207), taken one after another,
are the operation. -/

namespace Sys2Proof
namespace Machine

theorem runLabels_cons {b : Byte} {i : Instr} (bs : List Byte) (s : State) (h : decodeOpc b = some i) :
    runLabels (b :: bs) s = andThen (exec i s) (runLabels bs) := by rw [runLabels, h]

theorem andThen_done (o : Out) : andThen o (runLabels []) = o := by cases o <;> rfl

theorem andThen_assoc (o : Out) (k l : State → Out) : andThen (andThen o k) l = andThen o (fun s => andThen (k s) l) := by
  cases o <;> rfl

/-- CATCH's loop is the steps whose labels it gives (R125). -/
theorem runLabels_catch (n : Nat) {s : State} (h : fsHalted s = false) :
    runLabels (catchLabels n s) s = catchLoop n s := by
  induction n generalizing s with
  | zero => rfl
  | succ n ih =>
    rw [catchLabels, catchLoop]
    split
    · rfl
    rename_i hk
    have hl : s.fs.phase ≠ .fault → WorkerLive s := fun hp => ⟨hp, by simpa using hk, h⟩
    have keep : ∀ {u}, FsOnly s u → fsHalted u = false := by
      intro u hu; unfold fsHalted at h ⊢; rw [hu.pd, hu.params, hu.stopped]; exact h
    have go : ∀ {b i u}, decodeOpc b = some i → exec i s = .next u → FsOnly s u →
        runLabels (b :: catchLabels n u) s = catchLoop n u := by
      intro b i u hb hx hu
      rw [runLabels_cons _ _ hb, hx]; exact ih (keep hu)
    cases hp : s.fs.phase with
    | idle => rfl
    | fault => rfl
    | poll =>
      dsimp only
      split
      · rfl
      · exact go (b := 0x12#8) (i := .fsPoll) (by decide) (gate_open (fsStop_of_live (hl (by simp [hp])) hp))
          (fsPolled_only s)
    | read =>
      dsimp only
      split
      · rfl
      · exact go (b := 0x13#8) (i := .fsRead) (by decide) (gate_open (fsStop_of_live (hl (by simp [hp])) hp))
          (fsReadDone_only _ s)
    | scan =>
      exact go (b := 0x14#8) (i := .fsScan) (by decide) (gate_open (fsStop_of_live (hl (by simp [hp])) hp))
        (fsScanned_only s)
    | emit =>
      dsimp only
      split
      · rfl
      · rename_i hf
        rw [runLabels_cons (i := .fsEmit) _ _ (by decide), andThen_done]
        exact gate_open (emitStop_eq_none.mpr ⟨hl (by simp [hp]), hp, by simpa using hf⟩)

/-- The last `k` samples of a word and its parity slot, slot by slot (R156, R157, R159). -/
theorem runLabels_slots (w : Word) (k : Nat) {s : State} (hl : ConsumerLive s) (hp : s.pd.phase = .run)
    (hw : currentWord s = some w) (hk : k ≤ 15) (hc : s.pd.cursor % 32 = 2 * (15 - k))
    (hd : s.pd.dumped + k ≤ Config.TARGET) :
    runLabels (List.replicate k 0x23#8 ++ [0x24#8]) s =
      andThen (putSamples ((samplesOf w).drop (15 - k)) s) (fun t => .next (takeParity (paritySlot w) t)) := by
  induction k generalizing s with
  | zero =>
    have hg : parityStop s = none := pdStop_eq_none.mpr ⟨hl, hp, by simp [slotIndex, hc, Config.SAMPLES_PER_WORD]⟩
    rw [List.replicate_zero, List.nil_append, runLabels_cons (i := .pdParity) _ _ (by decide), andThen_done]
    simp [exec, execPdParity, hg, withWord, hw, samplesOf, putSamples]
  | succ k ih =>
    have hg : sampleStop s = none := pdStop_eq_none.mpr
      ⟨hl, hp, by simp [slotIndex, hc, Config.SAMPLES_PER_WORD]; omega⟩
    have hs : (samplesOf w).drop (15 - (k + 1)) = slot w (15 - (k + 1)) :: (samplesOf w).drop (15 - k) := by
      rw [show 15 - k = 15 - (k + 1) + 1 by omega]
      exact (List.drop_eq_getElem?_toList_append ..).trans (by rw [samplesOf_get w (by omega)]; rfl)
    have hx : exec .pdSample s = putSample (slot w (15 - (k + 1))) s := by
      simp only [exec, execPdSample, hg, gate_none, withWord, hw, slot, hc]
    rw [List.replicate_succ, List.cons_append, runLabels_cons (i := .pdSample) _ _ (by decide), hx, hs, putSamples,
      andThen_assoc, putSample_next (by omega)]
    simp only [andThen_next]
    refine ih hl hp ?_ (by omega) ?_ ?_
    · rw [← hw]; unfold currentWord
      simp only [State.setPd_pd, State.setPd_params, State.setPix_params]
      rw [show (s.pd.cursor + 2) / 32 = s.pd.cursor / 32 by omega]
    · simp only [State.setPd_pd]; omega
    · simp only [State.setPd_pd]; omega

/-- PD.WORD is its sixteen slots (R159). -/
theorem runLabels_word {w : Word} {s : State} (hl : ConsumerLive s) (hp : s.pd.phase = .run)
    (hw : currentWord s = some w) (hc : s.pd.cursor % 32 = 0) (hd : s.pd.dumped + 15 ≤ Config.TARGET) :
    runLabels wordLabels s = putWord w s :=
  runLabels_slots w 15 hl hp hw (Nat.le_refl _) hc hd

theorem Decoding.live {s0 s : State} {f : Bytes} {n : Nat} (h : Decoding s0 f n s) (hl : ConsumerLive s0)
    (hp : s.pd.phase = .run) : ConsumerLive s := by
  refine ⟨by simp [hp], ?_⟩
  have := hl.2
  unfold pdHalted at this ⊢
  rw [h.only.fs, h.only.params, h.only.stopped]; exact this

/-- The words of a DECODE, word by word (R150). -/
theorem runLabels_words {s0 s : State} {f : Bytes} (hf : wellFormedFrame f = true) (hl : ConsumerLive s0) (k n : Nat)
    (hn : n + k = 14336) (h : Decoding s0 f n s) :
    runLabels (List.replicate k 0x26#8) s = pdWords k s := by
  induction k generalizing n s with
  | zero => rfl
  | succ k ih =>
    have hr := (h.running (by omega)).1
    obtain ⟨t, ht, hd⟩ := h.next hf (by omega)
    have hg : wordStop s = none := pdStop_eq_none.mpr ⟨h.live hl hr, hr, by rw [h.cursor]; simp⟩
    rw [List.replicate_succ, runLabels_cons (i := .pdWord) _ _ (by decide), pdWords, if_pos hr]
    simp only [exec, execPdWord, hg, gate_none, ht, andThen_next]
    exact ih (n + 1) (by omega) hd

/-- DECODE is its steps (R104, R150). -/
theorem runLabels_decode {s : State} {f : Bytes} (hl : ConsumerLive s) (hp : s.pd.phase = .idle)
    (ht : s.pipe.taken = some f) : runLabels (decodeLabels f) s = decodeFrame f s := by
  have h1 : exec .pdStart s = .next (pdStarted f s) := by
    simp only [exec, execPdStart, gate_open (pdStop_eq_none.mpr ⟨hl, hp, rfl⟩), withTaken, ht]
  have h2 : exec .pdCheck (pdStarted f s) = .next (pdChecked f (pdStarted f s)) := by
    have hl' : ConsumerLive (pdStarted f s) := ⟨nofun, hl.2⟩
    exact gate_open (pdStop_eq_none.mpr ⟨hl', rfl, rfl⟩)
  rw [decodeLabels, runLabels_cons (i := .pdStart) _ _ (by decide), h1, andThen_next,
    runLabels_cons (i := .pdCheck) _ _ (by decide), h2, andThen_next]
  by_cases hf : wellFormedFrame f = true
  · rw [if_pos hf, runLabels_words hf hl _ 0 (by rfl) (Decoding.start hf)]
    rfl
  · rw [if_neg hf, decodeFrame_malformed (by simpa using hf)]
    simp [runLabels, pdChecked, hf]

end Machine
end Sys2Proof
end

