-- ==== Sys2Proof/Tests/Slice0.lean ====
section
/-! SUPPORT. The model's own tests: ill-formed terms refused, words written out from the spec's formats, the
vectors of 95_test_vectors.md one step at a time, and a witness for the hypotheses of every statement. -/

namespace Sys2Proof
namespace Tests
open Machine

/-! ### Helpers -/

/-- The next state, if there is one. -/
def nextOf (o : Out) : Option State :=
  match o with
  | .next s => some s
  | .fault _ => none
  | .refused _ => none

/-- The reason of a refusal, if it is one. -/
def whyOf (o : Out) : Option Refusal :=
  match o with
  | .next _ => none
  | .fault _ => none
  | .refused r => some r

/-- After reset, the source with answers on hand. -/
def withAnswers (avails : List AvailReply) (reads : List ReadReply) : State :=
  State.reset.setSrc { stream := [], avails := avails, reads := reads }

/-- After reset, with another FS. -/
def withFs (p : FsPhase) (acc spill : Bytes) : State :=
  State.reset.setFs { FsUnit.reset with phase := p, acc := acc, spill := spill }

/-- After reset, FS in phase EMIT with a match. -/
def emitting (acc : Bytes) (i : Nat) : State :=
  State.reset.setFs { FsUnit.reset with phase := .emit, acc := acc, found := some i }

/-- After reset, the consumer holding a frame. -/
def holding (f : Bytes) : State := State.reset.setPipe { Pipeline.reset with taken := some f }

/-- After reset, PD in phase CHECK. -/
def checking (f : Bytes) : State := State.reset.setPd { PdUnit.reset with phase := .check, frm := some f }

/-- After reset, PD in phase RUN. -/
def running (f : Bytes) (cursor dumped : Nat) : State :=
  State.reset.setPd { PdUnit.reset with phase := .run, frm := some f, cursor := cursor, dumped := dumped }

/-- After reset, FS faulted. -/
def fsFaulted (q : HaltPolicy) : State :=
  { State.reset with
    params := { Params.default with haltPolicy := q }
    fs := { FsUnit.reset with phase := .fault, fault := .linkError } }

/-- After reset, PD faulted. -/
def pdFaulted (q : HaltPolicy) : State :=
  { State.reset with
    params := { Params.default with haltPolicy := q }
    pd := { PdUnit.reset with phase := .fault, fault := .malformedFrame } }

/-- The vector W2 in a frame, little-endian (95_test_vectors.md 3.2). -/
def w2 : Bytes := [0x18#8, 0x1B#8, 0x1B#8, 0x1B#8]

/-- Some bytes of PIX. -/
def bytesAt (t : State) (offs : List Nat) : List (Option Byte) := offs.map (Memory.read t.pix)

/-- Nothing may stop here. -/
theorem calmAt {s : State} (h : (exposedFs s || exposedPd s) = false) : ¬ MayStop s := fun k => by
  rw [mayStop_iff.mp k] at h; cases h

/-- The machine goes on where nothing may stop. -/
theorem goesAt {s : State} (h : (exposedFs s || exposedPd s) = false) : GoesOn s s := Or.inl ⟨rfl, calmAt h⟩

/-- Something may stop here. -/
theorem mayStopAt {s : State} (h : (exposedFs s || exposedPd s) = true) : MayStop s := mayStop_iff.mpr h

/-- After reset, FS faulted under `any`, with another PD. -/
def exposedTo (x : PdUnit) : State := { fsFaulted .any with pd := x }

/-- The worker may move. -/
theorem liveW {s : State} (h : workerStop s = none) : WorkerLive s := workerStop_eq_none.mp h

/-! ### Well-formedness -/

/-- R123: SRC.READ asks for 512 bytes, no other number. -/
theorem test_wf_refuses_short_read : Instr.wf (.srcRead 100) = false := by decide
theorem test_wf_refuses_long_read : Instr.wf (.srcRead 513) = false := by decide
theorem test_wf_admits_read : Instr.wf (.srcRead 512) = true := by decide

/-! ### Encodings, words written out from the spec (R92, R95, R96, R97, R100) -/

theorem test_decode_fs_read : decodedInstr? (decode .le .opc8 [0x13#8]) = some .fsRead := by decide
theorem test_decode_src_read : decodedInstr? (decode .le .opc8 [0x02#8]) = some (.srcRead 512) := by decide
theorem test_decode_pd_word : decodedInstr? (decode .le .opc8 [0x26#8]) = some .pdWord := by decide
theorem test_decode_cp_tick : decodedInstr? (decode .be .opc8 [0x34#8]) = some .cpTick := by decide
theorem test_decode_reset : decodedInstr? (decode .le .opc8 [0xFF#8]) = some .resetOp := by decide
theorem test_decode_unknown : decode .le .opc8 [0x16#8] = .error (.unknownOpc 0x16#8) := by decide
theorem test_decode_marker :
    decode .le .mk [0x03#8, 0x03#8, 0x03#8, 0x03#8, 0x55#8] = .ok (.marker, [0x55#8]) := by decide
theorem test_decode_payload : decode .le .mk [0x03#8, 0x03#8, 0x03#8, 0x04#8] = .error .notMarker := by decide
theorem test_decode_word_le : decode .le .pw w2 = .ok (.pword 0x1B1B1B18#32, []) := by decide
theorem test_decode_word_be : decode .be .pw w2 = .ok (.pword 0x181B1B1B#32, []) := by decide
theorem test_decode_pixel :
    decode .le .px [0x11#8, 0x22#8, 0x33#8, 0xFF#8] = .ok (.pixel 0x11#8 0x22#8 0x33#8 0xFF#8, []) := by decide
theorem test_decode_sample : decode .le .sampleSlot [0x03#8] = .ok (.lvl3, []) := by decide
theorem test_decode_parity : decode .le .paritySlot [0x01#8] = .ok (.parNz1, []) := by decide
theorem test_decode_not_slot : decode .le .sampleSlot [0x04#8] = .error (.notSlot 0x04#8) := by decide
theorem test_decode_short : decode .le .pw [0x00#8, 0x00#8, 0x00#8] = .error .tooShort := by decide
theorem test_table_word : decodeTableWord 32 0x1B1B1B18 = some (.pword 0x1B1B1B18#32) := by decide

/-! ### Operands -/

/-- W9: slot 0 is bits 31:30, the parity slot bits 1:0. -/
theorem test_slots_w9 : slot 0xC0000001#32 0 = 3#2 ∧ slot 0xC0000001#32 14 = 0#2 ∧ paritySlot 0xC0000001#32 = 1#2 := by
  decide
/-- W8: slot 14 is bits 3:2. -/
theorem test_slots_w8 : slot 0x00000004#32 14 = 1#2 ∧ slot 0x00000004#32 13 = 0#2 := by decide
/-- 95_test_vectors.md 3.2, the single-sample traces. -/
theorem test_offsets : pixelOffset 960 = 1280 ∧ pixelOffset 215039 = 286718 ∧ pixelOffset 3 = 4 := by decide
/-- R130's two examples, and S7. -/
theorem test_find_first :
    findFirst [0x10#8, 0x20#8, 0x03#8, 0x03#8, 0x03#8, 0x03#8, 0x30#8] Config.MARKER = some 2 ∧
    findFirst [0x03#8, 0x03#8, 0x03#8, 0x04#8, 0x03#8] Config.MARKER = none ∧
    findFirst [0x11#8, 0x03#8, 0x03#8, 0x03#8, 0x03#8, 0x03#8] Config.MARKER = some 1 := by decide

/-! ### Unit FS -/

/-- S1: the marker cut in two. -/
theorem test_catch_s1 :
    (nextOf (exec .catchOp (withAnswers [.count 4, .count 3]
      [.chunk [0x10#8, 0x20#8, 0x03#8, 0x03#8], .chunk [0x03#8, 0x03#8, 0x30#8]]))).map
      (fun t => (t.fs.phase, t.fs.frameOut, t.fs.spill)) = some (.idle, some [0x10#8, 0x20#8], [0x30#8]) := by decide
/-- S4, second CATCH: a frame already whole in SPILL comes out after the next read. -/
theorem test_catch_s4 :
    (nextOf (exec .catchOp ((withAnswers [.count 0, .count 1] [.chunk [0xDD#8]]).setFs
      { FsUnit.reset with spill := [0xBB#8, 0x03#8, 0x03#8, 0x03#8, 0x03#8, 0xCC#8] }))).map
      (fun t => (t.fs.phase, t.fs.frameOut, t.fs.spill)) = some (.idle, some [0xBB#8], [0xCC#8, 0xDD#8]) := by decide
/-- R127's example. -/
theorem test_fs_start :
    (nextOf (exec .fsStart (withFs .idle [] [0xBB#8, 0x03#8]))).map (fun t => (t.fs.phase, t.fs.acc)) =
      some (.poll, [0xBB#8, 0x03#8]) := by decide
/-- R128's example: an answer 0 leaves the phase at POLL. -/
theorem test_fs_poll_zero :
    (nextOf (exec .fsPoll ((withAnswers [.count 0] []).setFs { FsUnit.reset with phase := .poll }))).map
      (fun t => (t.fs.phase, t.fs.avail)) = some (.poll, 0) := by decide
/-- F1: LinkError on available(). -/
theorem test_src_avail_link_error :
    (nextOf (exec .srcAvail ((withAnswers [.linkError] []).setFs { FsUnit.reset with phase := .poll }))).map
      (fun t => (t.fs.phase, t.fs.fault, (status t).toNat)) = some (.fault, .linkError, 71) := by decide
/-- R129's example. -/
theorem test_fs_read :
    (nextOf (exec .fsRead ((withAnswers [] [.chunk [0x03#8, 0x03#8]]).setFs
      { FsUnit.reset with phase := .read, acc := [0x10#8, 0x20#8] }))).map (fun t => (t.fs.phase, t.fs.acc)) =
      some (.scan, [0x10#8, 0x20#8, 0x03#8, 0x03#8]) := by decide
/-- F3: BufferOverflow at ACC_CAP = 8, nothing appended. -/
theorem test_fs_read_overflow :
    (nextOf (exec .fsRead
      { withAnswers [] [.chunk [0x06#8, 0x07#8, 0x08#8, 0x09#8, 0x03#8]] with
        params := { Params.default with accCap := some 8 }
        fs := { FsUnit.reset with phase := .read, acc := [0x01#8, 0x02#8, 0x03#8, 0x04#8, 0x05#8] } })).map
      (fun t => (t.fs.phase, t.fs.fault, t.fs.acc.length)) = some (.fault, .bufferOverflow, 5) := by decide
/-- F2: LinkError on a read. -/
theorem test_src_read_link_error :
    (nextOf (exec (.srcRead 512) ((withAnswers [] [.linkError]).setFs { FsUnit.reset with phase := .read }))).map
      (fun t => (t.fs.phase, t.fs.fault, t.src.stream)) = some (.fault, .linkError, []) := by decide
theorem test_fs_scan :
    (nextOf (exec .fsScan (withFs .scan [0x10#8, 0x03#8, 0x03#8, 0x03#8, 0x03#8] []))).map
      (fun t => (t.fs.phase, t.fs.found)) = some (.emit, some 1) := by decide
theorem test_fs_scan_none :
    (nextOf (exec .fsScan (withFs .scan [0x03#8, 0x03#8, 0x03#8] []))).map (fun t => (t.fs.phase, t.fs.found)) =
      some (.poll, none) := by decide
/-- S3: a marker at offset 0. -/
theorem test_marker : (nextOf (exec .marker (withFs .scan Config.MARKER []))).map
    (fun t => (t.fs.phase, t.fs.found)) = some (.emit, some 0) := by decide
/-- R131's example. -/
theorem test_fs_emit :
    (nextOf (exec .fsEmit (emitting [0xAA#8, 0x03#8, 0x03#8, 0x03#8, 0x03#8, 0xBB#8, 0x03#8] 1))).map
      (fun t => (t.fs.phase, t.fs.frameOut, t.fs.spill)) = some (.idle, some [0xAA#8], [0xBB#8, 0x03#8]) := by decide

/-! ### Unit PD -/

theorem test_pd_start : (nextOf (exec .pdStart (holding [0x00#8]))).map
    (fun t => (t.pd.phase, t.pd.frm, t.pipe.taken)) = some (.check, some [0x00#8], none) := by decide
/-- G8, length 4. -/
theorem test_pd_check_short : (nextOf (exec .pdCheck (checking w2))).map
    (fun t => (t.pd.phase, t.pd.fault, (status t).toNat)) = some (.fault, .malformedFrame, 0x0438) := by decide
/-- G8: the lengths about the least one. -/
theorem test_lengths :
    wellFormedFrame (List.replicate 57344 0#8) = true ∧ wellFormedFrame (List.replicate 57348 0#8) = true ∧
    wellFormedFrame (List.replicate 57340 0#8) = false ∧ wellFormedFrame (List.replicate 57345 0#8) = false := by
  simp only [wellFormedFrame, List.length_replicate]; decide
/-- R156's example: CURSOR 6, DUMPED 3, word 0x1B1B1B18. -/
theorem test_pd_sample : (nextOf (exec .pdSample (running w2 6 3))).map
    (fun t => (t.pix, t.pd.dumped, t.pd.cursor)) = some ([(4, 0xFF#8)], 4, 8) := by decide
theorem test_lvl2 : (nextOf (exec .lvl2 (running w2 4 2))).map (fun t => t.pix) = some [(2, 0xAA#8)] := by decide
/-- W6: the parity slot 3 of E4E4E4E7. -/
theorem test_pd_parity : (nextOf (exec .pdParity (running [0xE7#8, 0xE4#8, 0xE4#8, 0xE4#8] 30 15))).map
    (fun t => (t.pd.perr, t.pd.perrCnt, t.pd.cursor, t.pd.phase)) = some (true, 1, 32, .run) := by decide
/-- R158's example: after the last parity slot. -/
theorem test_par_ok_last : (nextOf (exec .parOk (running w2 458750 215040))).map
    (fun t => (t.pd.perr, t.pd.cursor, t.pd.phase, t.pd.frm)) = some (false, 458752, .idle, none) := by decide
theorem test_pd_done : (nextOf (exec .pdDone (running w2 458752 215040))).map
    (fun t => (t.pd.phase, t.pd.frm)) = some (.idle, none) := by decide
/-- W2 at word 0: 00 55 AA / FF 00 55 / AA FF 00 / 55 AA FF / 00 55 AA. -/
theorem test_pd_word : (nextOf (exec .pdWord (running w2 0 0))).map
    (fun t => bytesAt t [0, 1, 2, 3, 4, 16, 17, 18, 19]) =
      some [some 0x00#8, some 0x55#8, some 0xAA#8, none, some 0xFF#8, some 0x00#8, some 0x55#8, some 0xAA#8, none] := by
  decide
/-- W7 at word 65: the first sample of row 1, column 5. -/
theorem test_pword : (nextOf (exec (.pword 0x80000000#32) (running w2 2080 975))).map
    (fun t => bytesAt t [1299, 1300, 1301, 1318, 1319]) =
      some [none, some 0xAA#8, some 0x00#8, some 0x00#8, none] := by decide
/-- X6 into the decoder: a frame that is too short is malformed. -/
theorem test_decode_malformed : (nextOf (exec .decodeOp (holding [0x10#8, 0x10#8, 0x10#8]))).map
    (fun t => (t.pd.phase, t.pd.fault, t.pd.frm.isNone, t.pix.isEmpty)) = some (.fault, .malformedFrame, true, true) := by
  decide
theorem test_pixel : (nextOf (exec (.pixel 0x11#8 0x22#8 0x33#8 0xFF#8) State.reset)).map (fun t => t.pix) =
    some [(0, 0x11#8), (1, 0x22#8), (2, 0x33#8), (3, 0xFF#8)] := by decide
/-- R237 before any tick: the host writes pixel 5 (R96: offset 20), also after a fault of PD. -/
theorem test_step_pixel :
    (nextOf (step ((pdFaulted .independent).setEnv { Env.reset with
      script := [.pixel ⟨5, by decide⟩ 0x11#8 0x22#8 0x33#8 0xFF#8] }))).map (fun t => (t.pix, t.env.script)) =
    some ([(20, 0x11#8), (21, 0x22#8), (22, 0x33#8), (23, 0xFF#8)], []) := by decide
/-- R237: the host sets an alpha byte alone (offset 7, pixel 1); the colour bytes stay. -/
theorem test_step_byte :
    (nextOf (step { State.reset with
      pix := [(4, 0x11#8)], env := { Env.reset with script := [.byte ⟨7, by decide⟩ 0xFF#8] } })).map
      (fun t => (t.pix, t.env.script)) = some ([(4, 0x11#8), (7, 0xFF#8)], []) := by decide

/-! ### The pipeline -/

/-- Q2: an empty frame is counted and queued. -/
theorem test_cp_push : (nextOf (exec .cpPush (State.reset.setFs { FsUnit.reset with frameOut := some [] }))).map
    (fun t => (t.pipe.fcount, t.pipe.q, t.fs.frameOut)) = some (1, [[]], none) := by decide
/-- Q3: the thirtieth frame is reported, 30 over half a second in milliseconds. -/
theorem test_cp_push_report :
    (nextOf (exec .cpPush { State.reset with
      fs := { FsUnit.reset with frameOut := some [0x01#8] }
      pipe := { Pipeline.reset with fcount := 29, t0 := 1000 }
      env := { Env.reset with clock := [1500] } })).map (fun t => (t.pipe.fcount, t.pipe.report)) =
      some (30, some (.rate 30 500)) := by decide
/-- Q1: the oldest first. -/
theorem test_cp_poll : (nextOf (exec .cpPoll (State.reset.setPipe { Pipeline.reset with q := [[0x01#8], [0x02#8]] }))).map
    (fun t => (t.pipe.taken, t.pipe.q)) = some (some [0x01#8], [[0x02#8]]) := by decide
theorem test_cp_report : (nextOf (exec .cpReport { State.reset with
      pipe := { Pipeline.reset with fcount := 60, t0 := 0 }, env := { Env.reset with clock := [2] } })).map
    (fun t => t.pipe.report) = some (some (.rate 60 2)) := by decide
/-- R184: no report at another count. -/
theorem test_cp_report_not_due :
    whyOf (exec .cpReport (State.reset.setPipe { Pipeline.reset with fcount := 61 })) = some (.noStep .phase) := by decide
/-- Q4: a tick with nothing queued. -/
theorem test_cp_tick_empty : (nextOf (exec .cpTick State.reset)).map (fun t => decide (t = State.reset)) =
    some true := by decide
/-- P1's end: a tick on a queued frame that is malformed. -/
theorem test_cp_tick_malformed :
    (nextOf (exec .cpTick (State.reset.setPipe { Pipeline.reset with q := [[0x10#8]] }))).map
      (fun t => (t.pipe.q, t.pd.phase, t.pd.fault)) = some ([], .fault, .malformedFrame) := by decide
/-- P2, first line: the worker starts and counts from 0. -/
theorem test_run_p2 :
    (nextOf (exec .runOp { State.reset with
      pipe := { Pipeline.reset with fcount := 9 }, env := { Env.reset with clock := [7] } })).map
      (fun t => (t.pipe.fcount, t.pipe.t0, t.pipe.running, t.fs.phase)) = some (0, 7, true, .idle) := by decide
/-- P2, worker side: after a frame the loop pushes it, then begins the next CATCH. -/
theorem test_run_pushes :
    (nextOf (step { State.reset with
      fs := { FsUnit.reset with frameOut := some [0xAA#8, 0xBB#8] }
      pipe := { Pipeline.reset with running := true } })).map
      (fun t => (t.pipe.q, t.pipe.fcount, t.fs.frameOut, workerInstr t)) =
      some ([[0xAA#8, 0xBB#8]], 1, none, some .fsStart) := by decide

/-! ### RESET, the step and the refusals -/

/-- Z1. -/
theorem test_reset : (nextOf (exec .resetOp { fsFaulted .any with
      pd := { PdUnit.reset with phase := .fault, fault := .malformedFrame, perr := true, perrCnt := 3 }
      pipe := { Pipeline.reset with q := [[0x01#8]], fcount := 17 }
      pix := [(3, 0xFF#8)] })).map (fun t => (status t, t.pipe.q.length, t.pipe.fcount, bytesAt t [3])) =
    some (0#16, 0, 0, [some 0xFF#8]) := by decide
/-- F6: both units faulted. -/
theorem test_status_f6 : status { fsFaulted .any with
    pd := { PdUnit.reset with phase := .fault, fault := .malformedFrame } } = 0x047F#16 := by decide
/-- F1's last line: CATCH in FAULT has no step, and the machine goes on. -/
theorem test_step_drops_request :
    (nextOf (step ((fsFaulted .independent).setEnv { Env.reset with script := [.label 0x10#8] }))).map
      (fun t => (t.env.script, t.fs.phase)) = some ([], .fault) := by decide
theorem test_step_runs_label :
    (nextOf (step (State.reset.setEnv { Env.reset with script := [.label 0x11#8, .label 0x12#8] }))).map
      (fun t => (t.env.script, t.fs.phase)) = some ([.label 0x12#8], .poll) := by decide
theorem test_step_unknown_label :
    whyOf (step (State.reset.setEnv { Env.reset with script := [.label 0x27#8] })) = some (.unknownCode 0x27#8) := by decide
/-- PD fetches a whole word when CURSOR stands at its first slot, and one slot elsewhere. -/
theorem test_pd_fetch : pdFetch (running w2 0 0) = .pword 0x1B1B1B18#32 ∧ pdFetch (running w2 2 1) = .lvl1 ∧
    pdFetch (running w2 30 15) = .parOk := by decide
/-- P5's remark on `any`: after LinkError the consumer may stop at any point, idle and before a queued tick as well; its
fetch is then slot by slot. -/
theorem test_consumer_may_stop :
    exposedPd ((fsFaulted .any).setEnv { Env.reset with script := [.label 0x34#8] }) = true ∧
    exposedPd (fsFaulted .independent) = false ∧ exposedPd (fsFaulted .haltAll) = false ∧
    pdFetch (exposedTo (running w2 0 0).pd) = .lvl0 := by decide
/-- S1 where the worker may stop: CATCH gives way to R125's steps, one START, two passes of POLL, READ and SCAN, one
EMIT. -/
theorem test_catch_gives_way :
    unfolding .catchOp { pdFaulted .any with
      src := { stream := [], avails := [.count 4, .count 3],
               reads := [.chunk [0x10#8, 0x20#8, 0x03#8, 0x03#8], .chunk [0x03#8, 0x03#8, 0x30#8]] } } =
      some [0x11#8, 0x12#8, 0x13#8, 0x14#8, 0x12#8, 0x13#8, 0x14#8, 0x15#8] := by decide
/-- FS fetches the marker where ACC holds one. -/
theorem test_step_marker : (nextOf (step (withFs .scan Config.MARKER []))).map (fun t => t.fs.phase) = some .emit := by
  decide
/-- R209 "stuck": FS inside a transaction that is never answered has no step, and is no fault. -/
theorem test_stuck : (nextOf (exec .fsPoll ((withAnswers [.silent] []).setFs { FsUnit.reset with phase := .poll }))).map
    (fun t => (t.fs.phase, t.fs.fault, workerInstr t, whyOf (exec .fsPoll t))) =
    some (.poll, .none, none, some (.noStep .unanswered)) := by decide
/-- F5: ParityMismatch alone in STATUS. -/
theorem test_status_f5 : status (State.reset.setPd { PdUnit.reset with perr := true, perrCnt := 3 }) = 0x1000#16 := by
  decide

/-! ### Witnesses: concrete states and operands that meet the hypotheses of each statement -/

/-- Both agents may move after reset. -/
theorem witness_live : WorkerLive State.reset ∧ ConsumerLive State.reset :=
  ⟨liveW (by decide), ⟨by decide, by decide⟩⟩

theorem witness_DecodeEncodeRoundTrip : Instr.wf (.pword 0xFFFFFFFC#32) = true ∧ Instr.wf (.srcRead 512) = true := by
  decide
theorem witness_EncodeDecodeRoundTrip :
    decode .be .pw [0xFF#8, 0xFF#8, 0xFF#8, 0xFC#8] = .ok (.pword 0xFFFFFFFC#32, []) ∧
    decode .le .opc8 [0xFF#8, 0x01#8] = .ok (.resetOp, [0x01#8]) ∧
    decode .le .paritySlot [0x03#8] = .ok (.parNz3, []) := by decide
theorem witness_LabelsAndWordsDecode : (0x00#8 ∉ [0x01#8, 0xFF#8]) ∧ (0x27#8 ∉ [0x26#8, 0x30#8]) := by decide
/-- The last word of a frame of eight bytes, and the word after it. -/
theorem witness_FrameWordFromBytes :
    (w2 ++ w2)[4 * 1]? = some 0x18#8 ∧ (w2 ++ w2)[4 * 1 + 1]? = some 0x1B#8 ∧
    (w2 ++ w2)[4 * 1 + 2]? = some 0x1B#8 ∧ (w2 ++ w2)[4 * 1 + 3]? = some 0x1B#8 ∧
    (w2 ++ w2).length < 4 * 2 + 4 := by decide
theorem witness_SlotBits : (0 : Nat) ≤ 15 ∧ (15 : Nat) ≤ 15 := by decide
theorem witness_SampleDestination : 0 < 215040 ∧ 215039 < 215040 := by decide
theorem witness_DestinationsAreColourBytes :
    pixelOffset 215039 = pixelOffset 215039 ∧ 286718 < 286720 ∧ 286718 % 4 ≠ 3 := by decide
theorem witness_FsStartSeedsAcc : WorkerLive (withFs .idle [] [0xBB#8]) ∧ (withFs .idle [] [0xBB#8]).fs.phase = .idle :=
  ⟨liveW (by decide), rfl⟩

/-- FS in phase POLL, with an answer on hand. -/
def polling (r : AvailReply) : State := (withAnswers [r] []).setFs { FsUnit.reset with phase := .poll }
/-- FS in phase READ, with an answer on hand and a bound on ACC. -/
def reading (r : ReadReply) (cap : Option Nat) : State :=
  { withAnswers [] [r] with
    params := { Params.default with accCap := cap }
    fs := { FsUnit.reset with phase := .read, acc := [0x01#8, 0x02#8, 0x03#8] } }

theorem witness_FsPollByAnswer :
    (WorkerLive (polling (.count 0)) ∧ (polling (.count 0)).fs.phase = .poll ∧
      availAnswer (polling (.count 0)) = .count 0) ∧
    (WorkerLive (polling .linkError) ∧ (polling .linkError).fs.phase = .poll ∧
      availAnswer (polling .linkError) = .linkError) ∧
    (WorkerLive (polling .silent) ∧ availAnswer (polling .silent) = .silent) :=
  ⟨⟨liveW (by decide), rfl, rfl⟩, ⟨liveW (by decide), rfl, rfl⟩, ⟨liveW (by decide), rfl⟩⟩
/-- A failed read; one that is never answered; a read with ACC unbounded; reads that just fit and just do not fit a bound of 4. -/
theorem witness_FsReadByAnswer :
    (WorkerLive (reading .linkError none) ∧ (reading .linkError none).fs.phase = .read ∧
      readAnswer 512 (reading .linkError none) = .linkError) ∧
    (WorkerLive (reading (.chunk []) none) ∧ readAnswer 512 (reading (.chunk []) none) = .chunk [] ∧
      (reading (.chunk []) none).params.accCap = none) ∧
    (WorkerLive (reading (.chunk [0x09#8]) (some 4)) ∧
      readAnswer 512 (reading (.chunk [0x09#8]) (some 4)) = .chunk [0x09#8] ∧
      (reading (.chunk [0x09#8]) (some 4)).params.accCap = some 4 ∧ ¬ 4 < 3 + 1) ∧
    (WorkerLive (reading (.chunk [0x09#8, 0x08#8]) (some 4)) ∧
      readAnswer 512 (reading (.chunk [0x09#8, 0x08#8]) (some 4)) = .chunk [0x09#8, 0x08#8] ∧ 4 < 3 + 2) ∧
    (WorkerLive (reading .silent none) ∧ readAnswer 512 (reading .silent none) = .silent) :=
  ⟨⟨liveW (by decide), rfl, rfl⟩, ⟨liveW (by decide), rfl, rfl⟩, ⟨liveW (by decide), rfl, rfl, by decide⟩,
    ⟨liveW (by decide), rfl, by decide⟩, ⟨liveW (by decide), rfl⟩⟩
/-- Answers of each kind on hand, replies as long as a read and one byte longer, and none on hand. -/
theorem witness_SourceAnswersInOrder :
    (polling (.count 7)).src.avails = .count 7 :: [] ∧ (reading .linkError none).src.reads = .linkError :: [] ∧
    (reading .silent none).src.reads = .silent :: [] ∧
    (reading (.chunk (List.replicate 512 0#8)) none).src.reads = .chunk (List.replicate 512 0#8) :: [] ∧
    (reading (.chunk (List.replicate 513 0#8)) none).src.reads = .chunk (List.replicate 513 0#8) :: [] ∧
    State.reset.src.avails = [] ∧ State.reset.src.reads = [] :=
  ⟨rfl, rfl, rfl, rfl, rfl, rfl, rfl⟩
theorem witness_FsScanFindsFirst :
    WorkerLive (withFs .scan [0x03#8] []) ∧ (withFs .scan [0x03#8] []).fs.phase = .scan ∧
      (withFs .scan [0x03#8] []).fs.acc.length < 4 := ⟨liveW (by decide), rfl, by decide⟩
theorem witness_MarkerIsFirstMatch :
    (WorkerLive (withFs .scan Config.MARKER []) ∧ (withFs .scan Config.MARKER []).fs.phase = .scan ∧
      findFirst (withFs .scan Config.MARKER []).fs.acc Config.MARKER = some 0) ∧
    (WorkerLive (withFs .scan [0x03#8] []) ∧ (withFs .scan [0x03#8] []).fs.phase = .scan ∧
      findFirst (withFs .scan [0x03#8] []).fs.acc Config.MARKER = none) :=
  ⟨⟨liveW (by decide), rfl, by decide⟩, ⟨liveW (by decide), rfl, by decide⟩⟩
theorem witness_FsEmitSplits :
    WorkerLive (emitting (0xAA#8 :: Config.MARKER) 1) ∧ (emitting (0xAA#8 :: Config.MARKER) 1).fs.phase = .emit ∧
    (emitting (0xAA#8 :: Config.MARKER) 1).fs.frameOut = none ∧
    (emitting (0xAA#8 :: Config.MARKER) 1).fs.found = some 1 ∧ FsSound (emitting (0xAA#8 :: Config.MARKER) 1) :=
  ⟨liveW (by decide), rfl, rfl, rfl, by decide, by decide, fun _ => by decide, by decide, nofun⟩
/-- No answer on hand. -/
theorem witness_CatchEndsOrWaits :
    WorkerLive State.reset ∧ State.reset.fs.phase = .idle ∧ State.reset.src.avails = [] := ⟨witness_live.1, rfl, rfl⟩

/-- The two passes of S1. -/
def s1Passes : List Pass := [⟨2, 3, [0x10#8, 0x20#8, 0x03#8, 0x03#8]⟩]
/-- Its last pass. -/
def s1Last : Pass := ⟨0, 2, [0x03#8, 0x03#8, 0x30#8]⟩
/-- Its start state, with a bound on ACC that is just reached, and answers left over. -/
def s1Start : State :=
  { withAnswers (passAvails (s1Passes ++ [s1Last]) ++ [.count 1]) (passReads (s1Passes ++ [s1Last]) ++ [.linkError]) with
    params := { Params.default with accCap := some 7 } }

theorem s1_fits : Fits s1Start (s1Start.fs.spill ++ passBytes (s1Passes ++ [s1Last])).length := by
  rintro cap h; cases h; decide

theorem witness_CatchOnPasses :
    WorkerLive s1Start ∧ s1Start.fs.phase = .idle ∧ s1Start.fs.frameOut = none ∧
    Fits s1Start (s1Start.fs.spill ++ passBytes (s1Passes ++ [s1Last])).length ∧
    s1Start.src.avails = passAvails (s1Passes ++ [s1Last]) ++ [.count 1] ∧
    s1Start.src.reads = passReads (s1Passes ++ [s1Last]) ++ [.linkError] ∧
    (∀ q ∈ s1Passes ++ [s1Last], q.bytes.length ≤ 512) ∧
    (∀ k, 0 < k → k ≤ s1Passes.length →
      findFirst (s1Start.fs.spill ++ passBytes (s1Passes.take k)) [0x03#8, 0x03#8, 0x03#8, 0x03#8] = none) ∧
    findFirst (s1Start.fs.spill ++ passBytes (s1Passes ++ [s1Last])) [0x03#8, 0x03#8, 0x03#8, 0x03#8] = some 2 :=
  ⟨liveW (by decide), rfl, rfl, s1_fits, rfl, rfl, by decide,
    fun k h1 h2 => by
      have e : k = 1 := by
        have h3 : k ≤ 1 := h2
        omega
      subst e; decide,
    by decide⟩

/-- The first pass of S1, one answer 0, and then these replies; ACC may hold 6 bytes. -/
def s1Stop (la : List AvailReply) (lr : List ReadReply) : State :=
  { withAnswers (passAvails s1Passes ++ (List.replicate 1 (.count 0) ++ la)) (passReads s1Passes ++ lr) with
    params := { Params.default with accCap := some 6 } }

/-- The five ways CATCH does not end, the chunk one byte too long for ACC. -/
theorem witness_CatchFaultsOrSticks :
    (∀ x ∈ [([.linkError], []), ([.silent], []), ([.count (0 + 1)], [.linkError]), ([.count (0 + 1)], [.silent]),
        (([.count (0 + 1)], [.chunk [0x03#8, 0x03#8, 0x30#8]]) : List AvailReply × List ReadReply)],
      WorkerLive (s1Stop x.1 x.2) ∧ (s1Stop x.1 x.2).fs.phase = .idle ∧
      Fits (s1Stop x.1 x.2) ((s1Stop x.1 x.2).fs.spill ++ passBytes s1Passes).length ∧
      (s1Stop x.1 x.2).src.avails = passAvails s1Passes ++ (List.replicate 1 (.count 0) ++ x.1) ∧
      (s1Stop x.1 x.2).src.reads = passReads s1Passes ++ x.2 ∧
      ¬ Fits (s1Stop x.1 x.2) ((s1Stop x.1 x.2).fs.spill ++ passBytes s1Passes ++ [0x03#8, 0x03#8, 0x30#8]).length) ∧
    (∀ q ∈ s1Passes, q.bytes.length ≤ 512) ∧
    (∀ n, 0 < n → n ≤ s1Passes.length →
      findFirst ([] ++ passBytes (s1Passes.take n)) [0x03#8, 0x03#8, 0x03#8, 0x03#8] = none) := by
  refine ⟨fun x _ => ⟨liveW rfl, rfl, ?_, rfl, rfl, fun h => ?_⟩, by decide, fun n h1 h2 => ?_⟩
  · rintro cap h; cases h; exact (by decide : 4 ≤ 6)
  · exact absurd (h 6 rfl) (by decide : ¬ 7 ≤ 6)
  · have e : n = 1 := by
      have h3 : n ≤ 1 := h2
      omega
    subst e; decide
theorem witness_CatchIgnoresChunking :
    WorkerLive s1Start ∧ s1Start.fs.phase = .idle ∧ s1Start.fs.frameOut = none ∧
    Fits s1Start (s1Start.fs.spill ++ passBytes (s1Passes ++ [s1Last])).length ∧
    s1Start.src.avails = passAvails (s1Passes ++ [s1Last]) ++ [.count 1] ∧
    s1Start.src.reads = passReads (s1Passes ++ [s1Last]) ++ [.linkError] ∧
    (∀ q ∈ s1Passes ++ [s1Last], q.bytes.length ≤ 512) ∧ FrameClean [0x10#8, 0x20#8] ∧
    s1Start.fs.spill ++ passBytes (s1Passes ++ [s1Last]) =
      [0x10#8, 0x20#8] ++ ([0x03#8, 0x03#8, 0x03#8, 0x03#8] ++ [0x30#8]) ∧
    (s1Passes = [] ∨ (s1Start.fs.spill ++ passBytes s1Passes).length < [0x10#8, 0x20#8].length + 4) :=
  ⟨liveW (by decide), rfl, rfl, s1_fits, rfl, rfl, by decide, by unfold FrameClean; decide, by decide, by decide⟩
theorem witness_StreamDeterminesFrames :
    (∀ f ∈ [[0xA1#8]], FrameClean f) ∧ (∀ g ∈ [[0xA1#8], []], FrameClean g) ∧
    [[0xA1#8]].length ≤ [[0xA1#8], ([] : Bytes)].length ∧
    joinFrames [[0xA1#8]] ++ Config.MARKER = joinFrames [[0xA1#8], []] ++ [] := by
  unfold FrameClean; decide
/-- FS in phase EMIT after one frame, its stream accounted for. -/
def accounted : State :=
  { emitting (0xBB#8 :: Config.MARKER) 1 with
    src := { stream := 0xAA#8 :: (Config.MARKER ++ (0xBB#8 :: Config.MARKER)), avails := [], reads := [] } }

theorem witness_FramesAccountForStream :
    agentOf .fsEmit = .worker ∧ Instr.wf .fsEmit = true ∧ FsSound accounted ∧ AccountsFor [[0xAA#8]] accounted ∧
    (nextOf (exec .fsEmit accounted)).isSome = true :=
  ⟨rfl, rfl, ⟨by decide, by decide, fun _ => by decide, by decide, nofun⟩,
    ⟨by unfold FrameClean; decide, fun _ => by decide⟩, by decide⟩
theorem witness_PdStartTakesFrame :
    (ConsumerLive (holding w2) ∧ (holding w2).pd.phase = .idle ∧ (holding w2).pipe.taken = some w2) ∧
    (checking w2).pd.phase ≠ .idle ∧
    (ConsumerLive State.reset ∧ State.reset.pd.phase = .idle ∧ State.reset.pipe.taken = none) :=
  ⟨⟨⟨by decide, by decide⟩, rfl, rfl⟩, by decide, ⟨witness_live.2, rfl, rfl⟩⟩
/-- Frames of 57344 bytes and of 57343. -/
theorem witness_PdCheckByLength :
    ∀ f ∈ [List.replicate 57344 0#8, List.replicate 57343 0#8],
      ConsumerLive (checking f) ∧ (checking f).pd.phase = .check ∧ (checking f).pd.frm = some f :=
  fun _ _ => ⟨⟨nofun, rfl⟩, rfl, rfl⟩
theorem witness_PdSampleWritesByte :
    ConsumerLive (running w2 28 14) ∧ (running w2 28 14).pd.phase = .run ∧ (running w2 28 14).pd.frm = some w2 ∧
    (running w2 28 14).pd.cursor % 32 / 2 < 15 ∧
    frameWord (running w2 28 14).params.byteOrder w2 ((running w2 28 14).pd.cursor / 32) = some 0x1B1B1B18#32 ∧
    (running w2 28 14).pd.dumped < 215040 :=
  ⟨⟨by decide, by decide⟩, rfl, rfl, by decide, by decide, by decide⟩
/-- A parity slot in the middle, and the last one. -/
theorem witness_PdParityCounts :
    (ConsumerLive (running w2 30 15) ∧ (running w2 30 15).pd.phase = .run ∧ (running w2 30 15).pd.frm = some w2 ∧
      (running w2 30 15).pd.cursor % 32 / 2 = 15 ∧
      frameWord (running w2 30 15).params.byteOrder w2 ((running w2 30 15).pd.cursor / 32) = some 0x1B1B1B18#32) ∧
    (running w2 30 215040).pd.dumped = 215040 :=
  ⟨⟨⟨by decide, by decide⟩, rfl, rfl, by decide, by decide⟩, rfl⟩
theorem witness_SlotValues_samples :
    (Instr.lvl2, 2#2, 0xAA#8) ∈
      [(Instr.lvl0, 0#2, 0x00#8), (.lvl1, 1#2, 0x55#8), (.lvl2, 2#2, 0xAA#8), (.lvl3, 3#2, 0xFF#8)] ∧
    ConsumerLive (running w2 4 2) ∧ (running w2 4 2).pd.phase = .run ∧ (running w2 4 2).pd.cursor % 32 / 2 < 15 ∧
    (running w2 4 2).pd.dumped < 215040 ∧ currentWord (running w2 4 2) = some 0x1B1B1B18#32 ∧
    slot 0x1B1B1B18#32 ((running w2 4 2).pd.cursor % 32 / 2) = 2#2 ∧ (running w2 4 2).pd.cursor % 2 = 0 :=
  ⟨by decide, ⟨by decide, by decide⟩, rfl, by decide, by decide, by decide, by decide, by decide⟩
theorem witness_SlotValues_parity :
    Instr.parNz3 ∈ [Instr.parOk, .parNz1, .parNz2, .parNz3] ∧ ConsumerLive (running w2 458750 215040) ∧
    (running w2 458750 215040).pd.phase = .run ∧ (running w2 458750 215040).pd.cursor % 32 / 2 = 15 :=
  ⟨by decide, ⟨by decide, by decide⟩, rfl, by decide⟩
theorem witness_PdDoneDiscardsFrame :
    ConsumerLive (running w2 458752 215040) ∧ (running w2 458752 215040).pd.phase = .run ∧
    (running w2 458752 215040).pd.dumped = 215040 ∧ (running w2 458752 215040).pd.cursor = 458752 :=
  ⟨⟨by decide, by decide⟩, rfl, rfl, rfl⟩
/-- The first word by PD.WORD, and the last by PWORD. -/
theorem witness_PdWordLanes :
    (currentWord (running w2 0 0) = some 0x1B1B1B18#32 ∧ ConsumerLive (running w2 0 0) ∧
      (running w2 0 0).pd.phase = .run ∧ 0 ≤ 14335 ∧ (running w2 0 0).pd.cursor = 32 * 0 ∧
      (running w2 0 0).pd.dumped = 15 * 0) ∧
    (ConsumerLive (running w2 458720 215025) ∧ (running w2 458720 215025).pd.phase = .run ∧ 14335 ≤ 14335 ∧
      (running w2 458720 215025).pd.cursor = 32 * 14335 ∧ (running w2 458720 215025).pd.dumped = 15 * 14335) :=
  ⟨⟨by decide, ⟨by decide, by decide⟩, rfl, by decide, rfl, rfl⟩,
    ⟨⟨by decide, by decide⟩, rfl, by decide, rfl, rfl⟩⟩

/-- 14336 words 0x00000000 (G1). -/
def blackFrame : Bytes := List.replicate 57344 0#8

theorem blackFrame_length : blackFrame.length = 57344 := List.length_replicate

theorem witness_DecodeGivesPicture :
    ConsumerLive (holding blackFrame) ∧ (holding blackFrame).pd.phase = .idle ∧
    (holding blackFrame).pipe.taken = some blackFrame ∧ blackFrame.length % 4 = 0 ∧ 14336 ≤ blackFrame.length / 4 := by
  rw [blackFrame_length]
  exact ⟨⟨by decide, by decide⟩, rfl, rfl, by decide, by decide⟩
theorem witness_DecodeMalformed :
    (ConsumerLive (holding w2) ∧ (holding w2).pd.phase = .idle ∧ (holding w2).pipe.taken = some w2 ∧
      w2.length / 4 < 14336) ∧ [0x00#8, 0x00#8, 0x00#8].length % 4 ≠ 0 :=
  ⟨⟨⟨by decide, by decide⟩, rfl, rfl, by decide⟩, by decide⟩
theorem witness_DecodeUniformFrame :
    (0x00000000#32, 0x00#8) ∈
      [(0x00000000#32, 0x00#8), (0x55555554#32, 0x55#8), (0xAAAAAAA8#32, 0xAA#8), (0xFFFFFFFC#32, 0xFF#8)] ∧
    blackFrame.length = 57344 ∧ (∀ k, k < 14336 → frameWord .le blackFrame k = some 0x00000000#32) := by
  refine ⟨by decide, blackFrame_length, ?_⟩
  intro k hk
  obtain ⟨m, hm⟩ : ∃ m, 57344 - 4 * k = m + 4 := ⟨57344 - 4 * k - 4, by omega⟩
  have e : blackFrame.drop (4 * k) = 0#8 :: 0#8 :: 0#8 :: 0#8 :: List.replicate m 0#8 := by
    unfold blackFrame
    rw [List.drop_replicate, hm]
    rfl
  unfold frameWord
  rw [e]
  rfl
theorem witness_ParityChangesNoPixel :
    0x00000000#32 >>> 2 = 0x00000003#32 >>> 2 ∧
    (nextOf (exec (.pword 0x00000000#32) (running w2 0 0))).isSome = true ∧
    (nextOf (exec (.pword 0x00000003#32) (running w2 0 0))).isSome = true := by decide
/-- The last byte, an alpha byte, and another; the last pixel, an offset of another pixel; the host's list before any
other step. -/
theorem witness_HostWritesPix :
    (State.reset.setEnv { Env.reset with script := [.byte ⟨286719, by decide⟩ 0xFF#8] }).env.script =
      .byte ⟨286719, by decide⟩ 0xFF#8 :: [] ∧ 286718 ≠ 286719 ∧
    (State.reset.setEnv { Env.reset with pixelAt := ⟨71679, by decide⟩ }).pd.phase ≠ .check ∧
    (State.reset.setEnv { Env.reset with pixelAt := ⟨71679, by decide⟩ }).pd.phase ≠ .run ∧ 286715 / 4 ≠ 71679 ∧
    (State.reset.setEnv { Env.reset with script := [.pixel ⟨0, by decide⟩ 0#8 0#8 0#8 0xFF#8] }).env.script =
      .pixel ⟨0, by decide⟩ 0#8 0#8 0#8 0xFF#8 :: [] := by decide
theorem witness_HostWritesPix_goes :
    GoesOn (State.reset.setEnv { Env.reset with script := [.byte ⟨286719, by decide⟩ 0xFF#8] })
      (State.reset.setEnv { Env.reset with script := [.byte ⟨286719, by decide⟩ 0xFF#8] }) ∧
    GoesOn (State.reset.setEnv { Env.reset with script := [.pixel ⟨0, by decide⟩ 0#8 0#8 0#8 0xFF#8] })
      (State.reset.setEnv { Env.reset with script := [.pixel ⟨0, by decide⟩ 0#8 0#8 0#8 0xFF#8] }) :=
  ⟨goesAt (by decide), goesAt (by decide)⟩

/-- FS with a frame handed over, the worker having counted `n` and started at time `t0`, the clock at 1500. -/
def pushing (n t0 : Nat) : State :=
  { State.reset with
    fs := { FsUnit.reset with frameOut := some w2 }
    pipe := { Pipeline.reset with fcount := n, t0 := t0 }
    env := { Env.reset with clock := [1500] } }

/-- A push without a report, and reports at and after the worker's start. -/
theorem witness_CpPushQueues :
    (WorkerLive (pushing 28 0) ∧ (pushing 28 0).fs.frameOut = some w2 ∧ ((pushing 28 0).pipe.fcount + 1) % 30 ≠ 0) ∧
    (WorkerLive (pushing 29 1000) ∧ ((pushing 29 1000).pipe.fcount + 1) % 30 = 0 ∧
      nowAnswer (pushing 29 1000) ≠ (pushing 29 1000).pipe.t0) ∧
    (WorkerLive (pushing 29 1500) ∧ nowAnswer (pushing 29 1500) = (pushing 29 1500).pipe.t0) :=
  ⟨⟨liveW (by decide), rfl, by decide⟩, ⟨liveW (by decide), by decide, by decide⟩,
    ⟨liveW (by decide), rfl⟩⟩
theorem witness_CpReportRate :
    (WorkerLive (pushing 60 0) ∧ (pushing 60 0).pipe.fcount ≠ 0 ∧ (pushing 60 0).pipe.fcount % 30 = 0 ∧
      (pushing 60 0).pipe.report.map Report.frames ≠ some (pushing 60 0).pipe.fcount ∧
      nowAnswer (pushing 60 0) ≠ (pushing 60 0).pipe.t0) ∧
    (WorkerLive (pushing 30 1500) ∧ nowAnswer (pushing 30 1500) = (pushing 30 1500).pipe.t0) :=
  ⟨⟨liveW (by decide), by decide, by decide, by decide, by decide⟩, ⟨liveW (by decide), rfl⟩⟩

/-- After reset, with frames queued. -/
def queued (q : List Bytes) : State := State.reset.setPipe { Pipeline.reset with q := q }

theorem witness_CpPollAndTick :
    (ConsumerLive (queued []) ∧ (queued []).pd.phase = .idle ∧ (queued []).pipe.q = []) ∧
    (ConsumerLive (queued [w2]) ∧ (queued [w2]).pd.phase = .idle ∧ (queued [w2]).pipe.q = w2 :: []) :=
  ⟨⟨⟨by decide, by decide⟩, rfl, rfl⟩, ⟨⟨by decide, by decide⟩, rfl, rfl⟩⟩
/-- After reset, the worker loop running. -/
def looping (f : Option Bytes) : State :=
  (State.reset.setPipe { Pipeline.reset with running := true }).setFs { FsUnit.reset with frameOut := f }

/-- Before RUN; the loop with FRAME_OUT taken, and with a frame in it. -/
theorem witness_RunLoops :
    (WorkerLive State.reset ∧ State.reset.fs.phase = .idle ∧ State.reset.pipe.running = false) ∧
    (WorkerLive (looping none) ∧ (looping none).fs.phase = .idle ∧ (looping none).pipe.running = true ∧
      (looping none).fs.frameOut = none ∧ (looping none).env.script = [] ∧ (looping none).pd.phase = .idle) ∧
    (WorkerLive (looping (some w2)) ∧ (looping (some w2)).fs.frameOut = some w2) :=
  ⟨⟨witness_live.1, rfl, rfl⟩, ⟨liveW (by decide), rfl, rfl, rfl, rfl, rfl⟩, ⟨liveW (by decide), rfl⟩⟩
/-- The loop on S1's answers and the next frame's: the second clause's CATCH ends with the frame. -/
theorem witness_RunLoops_ends :
    (nextOf (exec .catchOp { s1Start with pipe := { Pipeline.reset with running := true } })).map
      (fun t => (t.fs.phase, t.fs.frameOut)) = some (.idle, some [0x10#8, 0x20#8]) := by decide

/-- A state whose next step is a scripted label. -/
def scripted (b : Byte) (s : State) : State := s.setEnv { Env.reset with script := [.label b] }

/-- A poll takes the head, a push appends. -/
theorem witness_QueueIsFifo :
    ((nextOf (step (scripted 0x32#8 (queued [w2])))).isSome = true ∧
      ∀ rest, (scripted 0x32#8 (queued [w2])).env.script ≠ .label 0xFF#8 :: rest) ∧
    ((nextOf (step (scripted 0x31#8 (pushing 0 0)))).isSome = true ∧
      ∀ rest, (scripted 0x31#8 (pushing 0 0)).env.script ≠ .label 0xFF#8 :: rest) :=
  ⟨⟨by decide, by simp [scripted]⟩, ⟨by decide, by simp [scripted]⟩⟩
theorem witness_AgentsKeepApart :
    (agentOf .fsStart = .worker ∧ (nextOf (exec .fsStart State.reset)).isSome = true) ∧
    (agentOf .cpPoll = .consumer ∧ (nextOf (exec .cpPoll (queued [w2]))).isSome = true) := by decide
theorem witness_AlphaNeverWritten :
    ((∀ n r g b a rest, (running w2 0 0).env.script ≠ .pixel n r g b a :: rest) ∧
      (∀ off v rest, (running w2 0 0).env.script = .byte off v :: rest → off.val % 4 ≠ 3) ∧
      (nextOf (step (running w2 0 0))).isSome = true) ∧
    (286718 % 4 ≠ 3 ∧
      (nextOf (step (State.reset.setEnv { Env.reset with script := [.byte ⟨286718, by decide⟩ 0#8] }))).isSome = true) :=
  ⟨⟨nofun, nofun, by decide⟩, by decide, by decide⟩
/-- After reset, FS stuck inside a transaction. -/
def stuckFs : State := State.reset.setFs { FsUnit.reset with phase := .read, stuck := true }

/-- A step of the consumer after a fault of FS, of the worker after a fault of PD, and of the consumer while FS is
stuck. -/
theorem witness_FaultIsSticky :
    ((nextOf (step (scripted 0x32#8 (fsFaulted .independent)))).isSome = true ∧
      (fsFaulted .independent).fs.phase = .fault ∧
      ∀ rest, (scripted 0x32#8 (fsFaulted .independent)).env.script ≠ .label 0xFF#8 :: rest) ∧
    ((nextOf (step (scripted 0x11#8 (pdFaulted .independent)))).isSome = true ∧
      (pdFaulted .independent).pd.phase = .fault ∧
      (∀ rest, (scripted 0x11#8 (pdFaulted .independent)).env.script ≠ .label 0xFF#8 :: rest) ∧
      ¬ HostWrites (scripted 0x11#8 (pdFaulted .independent))) ∧
    ((nextOf (step (scripted 0x32#8 stuckFs))).isSome = true ∧ stuckFs.fs.stuck = true ∧
      ∀ rest, (scripted 0x32#8 stuckFs).env.script ≠ .label 0xFF#8 :: rest) :=
  ⟨⟨by decide, rfl, by simp [scripted]⟩, ⟨by decide, rfl, by simp [scripted], by simp [scripted, HostWrites]⟩,
    ⟨by decide, rfl, by simp [scripted]⟩⟩
theorem witness_FaultedUnitRefuses :
    (agentOf .fsPoll = .worker ∧ (fsFaulted .any).fs.phase = .fault) ∧
    (agentOf .cpPush = .worker ∧ stuckFs.fs.phase ≠ .fault ∧ stuckFs.fs.stuck = true) ∧
    (agentOf .pdWord = .consumer ∧ (pdFaulted .any).pd.phase = .fault) := by decide
theorem witness_HaltPolicyDecides :
    ((fsFaulted .haltAll).params.haltPolicy = .haltAll ∧ agentOf .cpPoll = .consumer ∧
      (fsFaulted .haltAll).fs.phase = .fault) ∧
    ((pdFaulted .haltAll).params.haltPolicy = .haltAll ∧ agentOf .cpPush = .worker ∧
      (pdFaulted .haltAll).pd.phase = .fault) ∧
    (fsFaulted .independent).params.haltPolicy = .independent ∧
    ((fsFaulted .any).params.haltPolicy = .any ∧ (fsFaulted .any).fs.phase = .fault) ∧
    ((pdFaulted .any).params.haltPolicy = .any ∧ (pdFaulted .any).pd.phase = .fault) ∧
    State.reset.pd.phase ≠ .fault ∧ State.reset.fs.phase ≠ .fault := by decide
/-- An idle worker after PD's fault, an idle consumer after FS's, a state without a fault, and a unit that has stopped
while the host's byte is next. -/
theorem witness_HaltPolicyDecides_stops :
    WorkerLive (pdFaulted .any) ∧ ConsumerLive (fsFaulted .any) ∧ ¬ MayStop State.reset ∧
    (nextOf (step ((exposedTo { PdUnit.reset with stopped := true }).setEnv
      { Env.reset with script := [.byte ⟨3, by decide⟩ 0xFF#8] }))).isSome = true :=
  ⟨liveW (by decide), ⟨by decide, by decide⟩, calmAt (by decide), by decide⟩
/-- FS faulted under `any`, a frame in the consumer's hand and queued. -/
def holdingTo (f : Bytes) : State := { fsFaulted .any with pipe := { Pipeline.reset with q := [f], taken := some f } }

theorem holdingTo_meets (f : Bytes) : MayStop (holdingTo f) ∧ ConsumerLive (holdingTo f) ∧
    (holdingTo f).pd.phase = .idle ∧ (holdingTo f).pipe.taken = some f ∧ (holdingTo f).pipe.q = f :: [] :=
  ⟨⟨rfl, Or.inr ⟨rfl, nofun, rfl⟩⟩, ⟨nofun, rfl⟩, rfl, rfl, rfl⟩

/-- CATCH; DECODE and a tick of a frame too short and of an admitted one; PD.WORD at the first and the last word. -/
theorem witness_WholeOperationsUnfold :
    (unfolding .catchOp (pdFaulted .any) = some [0x11#8] ∧
      MayStop (pdFaulted .any) ∧ WorkerLive (pdFaulted .any) ∧ (pdFaulted .any).fs.phase = .idle) ∧
    (MayStop (holdingTo w2) ∧ w2.length / 4 < 14336 ∧ MayStop (holdingTo blackFrame) ∧ blackFrame.length = 57344) ∧
    (∀ n, (n = 0 ∨ n = 14335) → MayStop (exposedTo (running blackFrame (32 * n) (15 * n)).pd) ∧
      ConsumerLive (exposedTo (running blackFrame (32 * n) (15 * n)).pd) ∧
      currentWord (exposedTo (running blackFrame (32 * n) (15 * n)).pd) = some 0x00000000#32) := by
  refine ⟨⟨by decide, mayStopAt (by decide), liveW (by decide), rfl⟩,
    ⟨(holdingTo_meets _).1, by decide, (holdingTo_meets _).1, blackFrame_length⟩, fun n hn => ⟨?_, ⟨nofun, rfl⟩, ?_⟩⟩
  · exact ⟨rfl, Or.inr ⟨rfl, nofun, rfl⟩⟩
  · have := witness_DecodeUniformFrame.2.2 n (by omega)
    show frameWord .le blackFrame (32 * n / 32) = _
    rw [show 32 * n / 32 = n by omega, this]
theorem witness_CatchAdmission :
    (withFs .poll [] []).fs.phase ≠ .idle ∧
    (scripted 0x10#8 (withFs .poll [] [])).env.script = .label 0x10#8 :: [] ∧
    GoesOn (scripted 0x10#8 (withFs .poll [] [])) (scripted 0x10#8 (withFs .poll [] [])) ∧
    (WorkerLive (State.reset.setFs { FsUnit.reset with phase := .emit, frameOut := some w2 }) ∧
      (State.reset.setFs { FsUnit.reset with phase := .emit, frameOut := some w2 }).fs.phase = .emit ∧
      (State.reset.setFs { FsUnit.reset with phase := .emit, frameOut := some w2 }).fs.frameOut = some w2) :=
  ⟨by decide, rfl, goesAt (by decide), liveW (by decide), rfl, rfl⟩
/-- A label with a step, one without, one that is none (no state of these ends in a fault of the model; the clause
of faults is met in phase RUN without a frame); an operation that gives way to its steps. -/
theorem witness_StepRunsLabel :
    (GoesOn State.reset State.reset ∧ unfolding .fsStart State.reset = none ∧
      unfolding .catchOp (pdFaulted .any) = some [0x11#8]) ∧
    (decode .le .opc8 [0x11#8] = .ok (.fsStart, []) ∧ (nextOf (exec .fsStart State.reset)).isSome = true) ∧
    (decode .le .opc8 [0x12#8] = .ok (.fsPoll, []) ∧ whyOf (exec .fsPoll State.reset) = some (.noStep .phase)) ∧
    (decode .le .opc8 [0x22#8] = .ok (.pdCheck, []) ∧
      exec .pdCheck (State.reset.setPd { PdUnit.reset with phase := .check }) = .fault .noFrame) ∧
    decode .le .opc8 [0x00#8] = .error (.unknownOpc 0x00#8) ∧
    ((checking w2).pd.phase = .check ∧
      (nextOf (exec (.pixel 0#8 0#8 0#8 0#8) ((State.reset.setEnv { Env.reset with pixelAt := ⟨7, by decide⟩ })))).isSome
        = true) :=
  ⟨⟨goesAt (by decide), by decide, by decide⟩, ⟨by decide, by decide⟩, ⟨by decide, by decide⟩, ⟨by decide, rfl⟩,
    by decide, rfl, by decide⟩
/-- Nobody, the worker alone, the consumer alone, both; and each alone after the other's fault. -/
theorem witness_StepRunsSelected :
    (workerInstr State.reset = none ∧ consumerInstr State.reset = none ∧ State.reset.env.script = []) ∧
    (workerInstr (withFs .poll [] []) = some .fsPoll ∧ consumerInstr (withFs .poll [] []) = none) ∧
    (workerInstr (checking w2) = none ∧ consumerInstr (checking w2) = some .pdCheck) ∧
    (workerInstr { checking w2 with fs := { FsUnit.reset with phase := .read } } = some .fsRead ∧
      consumerInstr { checking w2 with fs := { FsUnit.reset with phase := .read } } = some .pdCheck) ∧
    (workerInstr { pdFaulted .independent with fs := { FsUnit.reset with phase := .scan } } = some .fsScan ∧
      consumerInstr { pdFaulted .independent with fs := { FsUnit.reset with phase := .scan } } = none) ∧
    (workerInstr (exposedTo (checking w2).pd) = none ∧
      consumerInstr (exposedTo (checking w2).pd) = some .pdCheck) := by decide
theorem witness_StepRunsSelected_goes :
    GoesOn State.reset State.reset ∧ GoesOn (withFs .poll [] []) (withFs .poll [] []) ∧
    GoesOn (checking w2) (checking w2) ∧
    GoesOn { checking w2 with fs := { FsUnit.reset with phase := .read } }
      { checking w2 with fs := { FsUnit.reset with phase := .read } } ∧
    GoesOn { pdFaulted .independent with fs := { FsUnit.reset with phase := .scan } }
      { pdFaulted .independent with fs := { FsUnit.reset with phase := .scan } } :=
  ⟨goesAt (by decide), goesAt (by decide), goesAt (by decide), goesAt (by decide), goesAt (by decide)⟩
/-- A word's first slot where PD may not stop, and where it may. -/
theorem witness_SequencingSelects_stops :
    ¬ MayStop (running w2 0 0) ∧ (MayStop (exposedTo (running w2 0 0).pd) ∧ ConsumerLive (exposedTo (running w2 0 0).pd)) :=
  ⟨calmAt (by decide), mayStopAt (by decide), by decide, by decide⟩
/-- Every phase; a word's start, its first and last inner sample slots and its parity slot. -/
theorem witness_SequencingSelects :
    (¬ WorkerLive stuckFs ∧ ¬ ConsumerLive (pdFaulted .any)) ∧
    (WorkerLive (looping none) ∧ (looping none).fs.phase = .idle) ∧
    (∀ p : FsPhase, p ≠ .fault → WorkerLive (withFs p [] [])) ∧
    (ConsumerLive (checking w2) ∧ (checking w2).pd.phase = .check) ∧
    (∀ c ∈ [(0, 0), (2, 1), (28, 14), (30, 15)], ConsumerLive (running w2 c.1 c.2) ∧
      (running w2 c.1 c.2).pd.phase = .run ∧ currentWord (running w2 c.1 c.2) = some 0x1B1B1B18#32) ∧
    (slot 0x1B1B1B18#32 (2 % 32 / 2) = 1#2 ∧ slot 0x1B1B1B18#32 (28 % 32 / 2) = 2#2 ∧ 28 % 32 / 2 < 15 ∧
      30 % 32 / 2 = 15 ∧ slot 0x1B1B1B18#32 15 = 0#2) := by
  refine ⟨⟨fun h => absurd h.2.1 (by decide), fun h => h.1 rfl⟩, ⟨liveW (by decide), rfl⟩,
    fun p hp => ⟨hp, rfl, rfl⟩, ⟨⟨by decide, by decide⟩, rfl⟩, fun c _ => ⟨⟨nofun, rfl⟩, rfl, ?_⟩, by decide⟩
  rename_i hc
  simp only [List.mem_cons, List.not_mem_nil, or_false] at hc
  rcases hc with rfl | rfl | rfl | rfl <;> decide
theorem witness_RestsUntilAsked :
    (queued [w2]).env.script = [] ∧ (queued [w2]).fs.phase = .idle ∧ (queued [w2]).pipe.running = false ∧
    (queued [w2]).pd.phase = .idle := by decide
theorem witness_ParametersNeverChange : (nextOf (step (scripted 0xFF#8 (pdFaulted .haltAll)))).isSome = true := by
  decide
/-- FS polling after reset, asked for the next step. -/
theorem witness_StepKeepsSynchronizer :
    FsSound (polling (.count 1)) ∧ Reconstructs (polling (.count 1)) ∧
    (nextOf (step (polling (.count 1)))).isSome = true :=
  ⟨⟨by decide, by decide, nofun, by decide, nofun⟩, fun _ => ⟨[], by simp, rfl⟩, by decide⟩
/-- PD with the black frame at the first sample. -/
theorem witness_StepKeepsDecoder :
    PdSound (running blackFrame 0 0) ∧ PictureSound (running blackFrame 0 0) ∧
    (nextOf (step (running blackFrame 0 0))).isSome = true := by
  refine ⟨⟨by decide, by decide, ⟨by decide, by decide, by decide⟩, by decide, by decide, ?_⟩, ?_, by decide⟩
  · exact ⟨blackFrame, rfl, wellFormedFrame_iff.mpr (by rw [blackFrame_length]; decide), by decide⟩
  · intro _ _ _ k hk; exact absurd hk (Nat.not_lt_zero k)
theorem witness_StepKeepsPixelMemory :
    PixSound (State.reset.setPix [(0, 0x55#8), (286719, 0xFF#8)]) ∧
    (nextOf (step (State.reset.setPix [(0, 0x55#8), (286719, 0xFF#8)]))).isSome = true :=
  ⟨by unfold PixSound; decide, by decide⟩
/-- A count of 30 whose report has gone out, and the push that makes it 30. -/
theorem witness_StepKeepsReport :
    ReportSound (State.reset.setPipe { Pipeline.reset with fcount := 30, report := some (.rate 30 1) }) ∧
    ReportSound (pushing 29 0) ∧ (nextOf (step (scripted 0x31#8 (pushing 29 0)))).isSome = true :=
  ⟨fun _ _ => rfl, fun _ h => absurd h (by decide), by decide⟩
/-- A sound state with something to do. -/
theorem witness_SoundStatesMove : Sound (polling (.count 1)) :=
  ⟨witness_StepKeepsSynchronizer.1,
    ⟨by decide, by decide, ⟨by decide, by decide, by decide⟩, by decide, by decide, rfl⟩, by unfold PixSound; decide,
    fun h => absurd rfl h, witness_StepKeepsSynchronizer.2.1, nofun⟩

end Tests
end Sys2Proof
end

section
/-! PROOFS. The statements of the family `00_scope.md`: the first match (R11), what an agent and the host touch (R14,
R60, R212), the parameters (R9), what one step runs (R14, R100, R207, R215), and the worker loop RUN (R181). -/

namespace Sys2Proof
namespace Machine

/-! ### The first match -/

/-- A window that is the pattern lies inside the sequence. -/
theorem matchAt_iff_window {s m : Bytes} {i : Nat} :
    MatchAt s m i ↔ i + m.length ≤ s.length ∧ (s.drop i).take m.length = m :=
  ⟨fun h => ⟨h.bound, h.1⟩, fun ⟨hb, hw⟩ => ⟨hw, by omega⟩⟩

/-- Settles O9: `findFirst_eq_some` and `findFirst_eq_none`, their matches read as windows inside the sequence. -/
theorem firstMatchIsLeast : Obligations.FirstMatchIsLeast := by
  intro s m
  simp only [← matchAt_iff_window]
  exact ⟨fun _ => findFirst_eq_some, findFirst_eq_none⟩

/-! ### The parameters -/

/-- Settles O54: what a step can be, case by case; only an instruction could write a parameter, and none does. -/
theorem parametersNeverChange : Obligations.ParametersNeverChange := by
  intro s t h
  cases step_cases h with
  | instr i u _ _ hu _ he => exact (exec_params he).trans hu.params
  | wrote off v u hu _ _ ht => rw [ht]; exact hu.params
  | still hf => exact hf.params
  | haltWorker u hu _ _ ht => rw [ht]; exact hu.params
  | haltConsumer u hu _ _ ht => rw [ht]; exact hu.params

/-! ### The agents -/

/-- What the consumer does to Q: nothing, or it takes the head (R183). -/
theorem ConsumerOnly.q_kept_or_head_taken {s t : State} (h : ConsumerOnly s t) :
    t.pipe.q = s.pipe.q ∨ ∃ f, s.pipe.q = f :: t.pipe.q := by
  rcases h.q with hq | hq
  · exact Or.inl hq
  · cases hs : s.pipe.q with
    | nil => left; rw [hq, hs, List.tail_nil]
    | cons f fs => right; exact ⟨f, by rw [hq, hs, List.tail_cons]⟩

/-- Settles O43: the two frames of an instruction, `exec_worker` and `exec_consumer`. -/
theorem agentsKeepApart : Obligations.AgentsKeepApart := by
  refine ⟨fun i s t hi h => ?_, fun i s t hi h => ?_⟩
  · have hw := exec_worker hi h
    exact ⟨hw.pd, hw.pix, hw.taken, hw.params⟩
  · have hc := exec_consumer hi h
    exact ⟨hc.fs, hc.src, hc.fcount, hc.t0, hc.params, hc.q_kept_or_head_taken⟩

/-! ### One move, by the head of the script -/

theorem move_of_label {s : State} {b : Byte} {rest : List Act} {i : Instr} (hs : s.env.script = .label b :: rest)
    (hi : decodeOpc b = some i) (hu : unfolding i s = none) :
    move s = settle (afterAct rest s) (exec i (afterAct rest s)) := by
  simp only [move, hs, hi, hu]

theorem move_of_unfolding {s : State} {b : Byte} {rest : List Act} {i : Instr} {ls : List Byte}
    (hs : s.env.script = .label b :: rest) (hi : decodeOpc b = some i) (hu : unfolding i s = some ls) :
    move s = .next (afterUnfolding ls rest s) := by
  simp only [move, hs, hi, hu]

theorem move_of_unknown {s : State} {b : Byte} {rest : List Act} (hs : s.env.script = .label b :: rest)
    (hi : decodeOpc b = none) : move s = .refused (.unknownCode b) := by
  simp only [move, hs, hi]

theorem move_of_pixel {s : State} {n : Fin Config.PIXELS} {r g b a : Byte} {rest : List Act}
    (hs : s.env.script = .pixel n r g b a :: rest) :
    move s = settle (afterAct rest s) (exec (.pixel r g b a) (atPixel n (afterAct rest s))) := by
  simp only [move, hs]

theorem move_of_byte {s : State} {off : Fin Config.PIX_BYTES} {v : Byte} {rest : List Act}
    (hs : s.env.script = .byte off v :: rest) :
    move s = settle (afterAct rest s) (hostByte off v (afterAct rest s)) := by
  simp only [move, hs]

theorem move_of_rest {s : State} (hs : s.env.script = []) (hc : choose s = .rest) : move s = .next s := by
  simp only [move, hs, hc]

theorem move_of_run {s u : State} {i : Instr} (hs : s.env.script = []) (hc : choose s = .run i u) :
    move s = exec i u := by
  simp only [move, hs, hc]

@[simp] theorem settle_next (t s : State) : settle t (.next s) = .next s := rfl

/-! ### The host's writes -/

theorem hostByte_writes {s : State} (off : Nat) (v : Byte) (hp : s.pd.phase ≠ .check ∧ s.pd.phase ≠ .run) :
    hostByte off v s = .next (s.setPix (s.pix.write off v)) :=
  gate_open (hostStop_eq_none.mpr hp)

theorem exec_pixel_writes {s : State} (r g b a : Byte) (hp : s.pd.phase ≠ .check ∧ s.pd.phase ≠ .run) :
    exec (.pixel r g b a) s = .next (s.setPix (writePixel s.env.pixelAt r g b a s.pix)) :=
  gate_open (hostStop_eq_none.mpr hp)

theorem hostStop_of_decode {s : State} (hp : s.pd.phase = .check ∨ s.pd.phase = .run) :
    hostStop s = some .phase := by
  unfold hostStop
  rcases hp with hp | hp <;> simp [hp]

/-- A pixel's write leaves the bytes of every other pixel. -/
theorem read_writePixel_other {n k : Nat} (r g b a : Byte) (m : Memory) (hk : k / 4 ≠ n) :
    (writePixel n r g b a m).read k = m.read k := by
  rw [read_writePixel, if_neg (by omega), if_neg (by omega), if_neg (by omega), if_neg (by omega)]

/-- Settles O37: the two writes of the host are `hostByte` and PIXEL, open outside a DECODE; what is read afterwards is
said by `Memory.read_write` and `read_writePixel`. -/
theorem hostWritesPix : Obligations.HostWritesPix := by
  refine ⟨fun s u off v rest hg hs hc hr => ?byte, fun s r g b a hc hr => ?pixel,
    fun s u n r g b a rest hg hs hc hr => ?step⟩
  case byte =>
    have hp : u.pd.phase ≠ .check ∧ u.pd.phase ≠ .run := by rw [hg.fetched.pd]; exact ⟨hc, hr⟩
    refine ⟨u.pix.write off v, ?_, Memory.read_write_same .., fun k hk => ?_⟩
    · rw [hg.step, move_of_byte (hg.script.trans hs), hostByte_writes (s := afterAct rest u) _ _ hp]
      rfl
    · rw [Memory.read_write_other _ _ hk, hg.fetched.pix]
  case pixel =>
    have other := fun k => read_writePixel_other (k := k) (n := s.env.pixelAt) r g b a s.pix
    refine ⟨_, exec_pixel_writes r g b a ⟨hc, hr⟩, ?_, ?_, ?_, ?_, other⟩ <;> simp [read_writePixel]
  case step =>
    have hp : u.pd.phase ≠ .check ∧ u.pd.phase ≠ .run := by rw [hg.fetched.pd]; exact ⟨hc, hr⟩
    have hx := exec_pixel_writes (s := atPixel n (afterAct rest u)) r g b a hp
    exact ⟨_, hx, by rw [hg.step, move_of_pixel (hg.script.trans hs), hx, settle_next]⟩

/-! ### The label at the head of the script -/

/-- The decoder's answer on one byte of format OPC is the table's (R100). -/
theorem decodeOpc_of_decode_ok {o : ByteOrder} {b : Byte} {i : Instr} {bs rest : Bytes}
    (h : decode o .opc8 (b :: bs) = .ok (i, rest)) : decodeOpc b = some i := by
  cases hb : decodeOpc b with
  | none => simp [decode, hb] at h
  | some j => simp only [decode, hb, Except.ok.injEq, Prod.mk.injEq] at h; rw [h.1]

theorem decodeOpc_of_decode_error {o : ByteOrder} {b : Byte} {bs : Bytes} {e : DecodeError}
    (h : decode o .opc8 (b :: bs) = .error e) : decodeOpc b = none := by
  cases hb : decodeOpc b with
  | none => rfl
  | some j => simp [decode, hb] at h

/-- Settles O50: the equations of `move` by the head of the script, and what `settle` makes of each answer. -/
theorem stepRunsLabel : Obligations.StepRunsLabel := by
  refine ⟨fun s u hg => hg.step, fun s b rest i hs hd => ⟨fun hu => ⟨?next, ?fault, ?noStep⟩, fun ls hu => ?unfolds⟩,
    fun s b rest e hs hd => move_of_unknown hs (decodeOpc_of_decode_error hd),
    fun s n r g b a rest hs => ⟨fun hp => ?pixelGone, fun t hx => ?pixel⟩, fun s off v rest hs hp => ?byteGone⟩
  case next | fault | noStep =>
    intro x hx
    have hx' : exec i (afterAct rest s) = _ := hx
    rw [move_of_label hs (decodeOpc_of_decode_ok hd) hu, hx']
    rfl
  case unfolds => exact move_of_unfolding hs (decodeOpc_of_decode_ok hd) hu
  case pixelGone =>
    have hx : exec (.pixel r g b a) (atPixel n (afterAct rest s)) = .refused (.noStep .phase) := by
      simp only [exec, execPixel, hostStop_of_decode (s := atPixel n (afterAct rest s)) hp, gate_some]
    rw [move_of_pixel hs, hx]
    rfl
  case pixel =>
    have hx' : exec (.pixel r g b a) (atPixel n (afterAct rest s)) = .next t := hx
    rw [move_of_pixel hs, hx', settle_next]
  case byteGone =>
    rw [move_of_byte hs, hostByte, hostStop_of_decode (s := afterAct rest s) hp, gate_some]
    rfl

/-! ### The scheduler -/

/-- Where both agents have a step no unit has faulted, so that none may stop (R207). -/
theorem not_mayStop_of_both {s : State} {i j : Instr} (hi : workerInstr s = some i) (hj : consumerInstr s = some j) :
    ¬ MayStop s := by
  rintro ⟨-, ⟨hf, -⟩ | ⟨hf, -⟩⟩
  · exact (consumerInstr_agent hj).2.2.1.1 hf
  · exact (workerInstr_agent hi).2.2.1 hf

/-- Where nothing may stop the machine goes on from the state itself. -/
theorem GoesOn.eq_of_calm {s u : State} (h : GoesOn s u) (hn : ¬ MayStop s) : u = s := by
  rcases h with ⟨hu, -⟩ | ⟨-, hm, -⟩
  · exact hu
  · exact absurd hm hn

/-- Settles O51: the scheduler's choice in each of the four cases of which agent has a step. -/
theorem stepRunsSelected : Obligations.StepRunsSelected := by
  intro s u hg hs
  have hsu : u.env.script = [] := hg.script.trans hs
  have hw : workerInstr u = workerInstr s := workerInstr_fetched hg.fetched
  have hc : consumerInstr u = consumerInstr s := consumerInstr_fetched hg.fetched
  rw [hg.step]
  refine ⟨fun hi hj => ?_, fun i hi hj => ?_, fun j hi hj => ?_, fun i j hi hj => ?_⟩
  · exact move_of_rest hsu (by rw [choose, hw, hc, hi, hj])
  · exact move_of_run hsu (by rw [choose, hw, hc, hi, hj])
  · exact move_of_run hsu (by rw [choose, hw, hc, hi, hj])
  · obtain rfl := hg.eq_of_calm (not_mayStop_of_both hi hj)
    cases ht : Config.freeTurn u.env.draws with
    | true => exact move_of_run hs (by rw [choose, hi, hj]; simp only [ht, if_true])
    | false => exact move_of_run hs (by rw [choose, hi, hj]; simp only [ht, Bool.false_eq_true, if_false])

/-! ### The worker loop -/

theorem exec_cpPush_of_frame {s : State} {f : Bytes} (hl : WorkerLive s) (hf : s.fs.frameOut = some f) :
    exec .cpPush s = .next (pushed f s) := by
  simp only [exec, execCpPush, gate_open (workerStop_eq_none.mpr hl), hf]

/-- The next step of the running loop pushes a frame that stands in FRAME_OUT (R181; log entry 27). -/
theorem Alone.step_of_frame {s : State} {f : Bytes} (h : Alone s) (hl : WorkerLive s) (hp : s.fs.phase = .idle)
    (hr : s.pipe.running = true) (hf : s.fs.frameOut = some f) : Machine.step s = exec .cpPush s :=
  h.step (by simp [workerInstr, hp, hr, hf, hl.2.1, hl.2.2])

/-- CATCH goes as far as the answers on hand reach (R125) and leaves alone what is not FS's; where it has ended it is
not stuck and has handed a frame over (R131). -/
theorem exec_catchOp_completes {s : State} (hl : WorkerLive s) (hp : s.fs.phase = .idle) :
    ∃ t, exec .catchOp s = .next t ∧ FsOnly s t ∧
      (t.fs.phase = .idle → t.fs.stuck = false ∧ ∃ f, t.fs.frameOut = some f) := by
  obtain ⟨t, ht, -⟩ := catchLoop_completes (catchFuel s) (fsStarted_ready s) (catchFuel_enough s)
  refine ⟨t, (gate_open (fsStop_of_live hl hp)).trans ht, (fsStarted_only s).trans (catchLoop_only _ ht), fun hi => ?_⟩
  obtain ⟨⟨more, -, hstands⟩, -⟩ := catchLoop_at _ (fsStarted_at s) ht
  simp only [CatchStands, hi] at hstands
  obtain ⟨-, f, hf, -⟩ := hstands
  refine ⟨?_, f, hf⟩
  by_contra hk
  have inside := catchLoop_stuck _ (fun _ => Or.inl rfl) ht (by simpa using hk)
  simp [hi] at inside

/-- Settles O41: a worker that is alone makes the steps of CATCH (`running_steps`), and where a frame stands in
FRAME_OUT the next one is CP.PUSH. -/
theorem runLoops : Obligations.RunLoops := by
  refine ⟨fun s hl hp hr => gate_open (runStop_eq_none.mpr ⟨hl, hp, hr⟩), fun s hl hp hr hf hs hd => ?loop,
    fun s f hl hp hr hf hs hd => Alone.step_of_frame ⟨hs, hd⟩ hl hp hr hf⟩
  have ha : Alone s := ⟨hs, hd⟩
  obtain ⟨t, ht, ho, hend⟩ := exec_catchOp_completes hl hp
  obtain ⟨n, hn⟩ := running_steps ha hl hp hr hf ht
  refine ⟨t, n, ht, hn, ho.pipe, fun hi => ?_⟩
  obtain ⟨hk, f, hft⟩ := hend hi
  have hat : Alone t := ha.of_worker ho.worker
  have hlt : WorkerLive t := hat.live (by rw [hi]; nofun) hk
  have hstep : step t = .next (pushed f t) :=
    (hat.step_of_frame hlt hi (by rw [ho.pipe, hr]) hft).trans (exec_cpPush_of_frame hlt hft)
  have hau : Alone (pushed f t) := hat.of_worker (pushed_worker f t)
  refine ⟨f, pushed f t, hft, (steps_add hn).trans (steps_succ hstep), hstep, ?_, ?_, ?_, pushed_fs f t, pushed_src f t,
    ?_, ?_, ?_, hau.1, ?_⟩
  · rw [pushed_q, ho.pipe]
  · rw [pushed_fcount, ho.pipe]
  · rw [pushed_t0, ho.pipe]
  · rw [pushed_pix, ho.pix]
  · exact hau.live (by rw [pushed_fs]; simp [hi]) (by rw [pushed_fs]; exact hk)
  · rw [pushed_running, ho.pipe, hr]
  · rw [pushed_pd, ho.pd]

end Machine
end Sys2Proof
end

section
/-! PROOFS. The statements of the family `10_state.md`: Q, the stream and the frames in flight (R38, R41), what faults
and the invariants keep under every step (R24 to R34, R206, R209), the values computed from DUMPED (R28), reset (R40),
the STATUS view (R35) and what the sequencing state selects (R30 to R32). -/

namespace Sys2Proof
namespace Machine

/-! ### Whose step it is -/

/-- RESET has one label (R100, R230). -/
theorem label_of_reset {b : Byte} (h : decodeOpc b = some .resetOp) : b = 0xFF#8 := by
  have only : ∀ row ∈ opcTable, row.2 = .resetOp → row.1 = 0xFF#8 := by decide
  exact only _ (decodeOpc_mem h) rfl

/-- One step by its agent, from a state `u` that differs from `s` only in the surroundings' lists (R14). -/
inductive StepBy (s t : State) : Prop where
  | worker (i : Instr) (u : State) (hu : Fetched s u) (hi : agentOf i = .worker) (hw : i.wf = true)
      (he : exec i u = .next t)
  | consumer (i : Instr) (u : State) (hu : Fetched s u) (hi : agentOf i = .consumer) (hd : CarriesFetched i u)
      (he : exec i u = .next t)
  | reset (u : State) (hs : ∃ rest, s.env.script = .label 0xFF#8 :: rest) (ht : t = resetState u)
  | host (u : State) (m : Memory) (hu : Fetched s u) (hs : HostWrites s)
      (hp : s.pd.phase ≠ .check ∧ s.pd.phase ≠ .run) (ht : t = u.setPix m)
  | still (hu : Fetched s t)
  | haltWorker (u : State) (hu : Fetched s u) (hl : WorkerLive s) (ht : t = u.setFs { u.fs with stopped := true })
  | haltConsumer (u : State) (hu : Fetched s u) (hl : ConsumerLive s)
      (ht : t = u.setPd { u.pd with stopped := true })

/-- The host's instructions come from the script: no sequencing state selects one (R30, R31, R32). -/
theorem not_selected_of_host {s : State} {i : Instr} (hi : agentOf i = .host) :
    workerInstr s ≠ some i ∧ consumerInstr s ≠ some i := by
  refine ⟨fun h => ?_, fun h => ?_⟩
  · have := (workerInstr_agent h).1; rw [hi] at this; cases this
  · have := (consumerInstr_agent h).1; rw [hi] at this; cases this

/-- Every step is one of these: `step_cases`, the instructions told apart by `agentOf`. -/
theorem stepBy_of_step {s t : State} (h : step s = .next t) : StepBy s t := by
  cases step_cases h with
  | wrote off v u hu hs hp ht => exact .host u _ hu (Or.inr ⟨off, v, hs⟩) hp ht
  | still hu => exact .still hu
  | haltWorker u hu hl _ ht => exact .haltWorker u hu hl (by rw [ht, hu.fs])
  | haltConsumer u hu hl _ ht => exact .haltConsumer u hu hl (by rw [ht, hu.pd])
  | instr i u hw hd hu hs he =>
    rcases agentOf_cases i with hi | hi | rfl | ⟨r, g, b, a, rfl⟩
    · exact .worker i u hu hi hw he
    · exact .consumer i u hu hi (hd.of_fetched hu) he
    · refine .reset u ?_ (by cases he; rfl)
      rcases hs with ⟨b, rest, hs, hb⟩ | ⟨_, _, _, _, _, _, _, hb⟩ | ⟨-, hsel⟩
      · exact ⟨rest, by rw [hs, label_of_reset hb]⟩
      · cases hb
      · have no := not_selected_of_host (s := s) (i := .resetOp) rfl
        exact absurd hsel (not_or.mpr no)
    · obtain ⟨hp, rfl⟩ := execPixel_eq_next he
      refine .host u _ hu (Or.inl ?_) (by rwa [hu.pd] at hp) rfl
      rcases hs with ⟨_, _, _, hb⟩ | ⟨n, r', g', b', a', rest, hs, -⟩ | ⟨-, hsel⟩
      · cases (decodeOpc_label hb).2
      · exact ⟨n, r', g', b', a', rest, hs⟩
      · have no := not_selected_of_host (s := s) (i := .pixel r g b a) rfl
        exact absurd hsel (not_or.mpr no)

/-- An instruction of the worker has its step only where the worker may move (R206, R207, R209). -/
theorem exec_worker_live {i : Instr} {s t : State} (hi : agentOf i = .worker) (h : exec i s = .next t) :
    WorkerLive s := by
  cases i <;> simp only [agentOf, reduceCtorEq] at hi <;> simp only [exec] at h <;>
    obtain ⟨hg, -⟩ := gate_eq_next.mp h
  case srcAvail | srcRead | catchOp | fsStart | fsPoll | fsRead | fsScan => exact (fsStop_eq_none.mp hg).1
  case fsEmit => exact (emitStop_eq_none.mp hg).1
  case marker => exact (markerStop_eq_none.mp hg).1
  case runOp => exact (runStop_eq_none.mp hg).1
  case cpPush => exact workerStop_eq_none.mp hg
  case cpReport => exact (reportStop_eq_none.mp hg).1

/-- An instruction of the consumer has its step only where the consumer may move (R206, R207). -/
theorem exec_consumer_live {i : Instr} {s t : State} (hi : agentOf i = .consumer) (h : exec i s = .next t) :
    ConsumerLive s := by
  cases i <;> simp only [agentOf, reduceCtorEq] at hi <;> simp only [exec] at h <;>
    obtain ⟨hg, -⟩ := gate_eq_next.mp h
  case cpPoll => exact consumerStop_eq_none.mp hg
  all_goals exact (pdStop_eq_none.mp hg).1

/-! ### Q -/

theorem appended_of_eq {q r : List Bytes} (h : r = q) : ∃ new, r = q ++ new := ⟨[], by rw [h, List.append_nil]⟩

/-- What the worker does to Q: nothing, or CP.PUSH appends one frame (R182). -/
theorem exec_worker_q {i : Instr} {s t : State} (hi : agentOf i = .worker) (h : exec i s = .next t) :
    ∃ new, t.pipe.q = s.pipe.q ++ new := by
  have fs : FsOnly s t → ∃ new, t.pipe.q = s.pipe.q ++ new := fun ho => appended_of_eq (by rw [ho.pipe])
  cases i <;> simp only [agentOf, reduceCtorEq] at hi <;> simp only [exec] at h <;>
    obtain ⟨-, h⟩ := gate_eq_next.mp h
  case srcAvail | fsPoll => cases h; exact fs (fsPolled_only s)
  case srcRead | fsRead => cases h; exact fs (fsReadDone_only _ s)
  case catchOp => exact fs ((fsStarted_only s).trans (catchLoop_only _ h))
  case fsStart => cases h; exact fs (fsStarted_only s)
  case fsScan | marker => cases h; exact fs (fsScanned_only s)
  case fsEmit => exact fs (fsEmitted_only h)
  case runOp | cpReport => cases h; exact appended_of_eq rfl
  case cpPush =>
    split at h
    · rename_i f _; cases h; exact ⟨[f], pushed_q f s⟩
    · cases h

/-- Settles O42: by whose step it is; the worker appends (`exec_worker_q`), the consumer takes the head at most
(`ConsumerOnly.q_kept_or_head_taken`), and nothing else but RESET touches Q. -/
theorem queueIsFifo : Obligations.QueueIsFifo := by
  intro s t h hr
  cases stepBy_of_step h with
  | worker i u hu hi _ he => rw [← hu.pipe]; exact Or.inl (exec_worker_q hi he)
  | consumer i u hu hi _ he =>
    rw [← hu.pipe]
    rcases (exec_consumer hi he).q_kept_or_head_taken with e | e
    · exact Or.inl (appended_of_eq e)
    · exact Or.inr e
  | reset u hs _ => exact absurd hs (not_exists.mpr hr)
  | host u m hu _ _ ht => exact Or.inl (appended_of_eq (by rw [ht, State.setPix_pipe, hu.pipe]))
  | still hu => exact Or.inl (appended_of_eq (by rw [hu.pipe]))
  | haltWorker u hu _ ht => exact Or.inl (appended_of_eq (by rw [ht, State.setFs_pipe, hu.pipe]))
  | haltConsumer u hu _ ht => exact Or.inl (appended_of_eq (by rw [ht, State.setPd_pipe, hu.pipe]))

/-! ### The frames and the stream -/

/-- Settles O25: the second and third part of what `exec_worker_accounted` keeps, instruction by instruction. -/
theorem framesAccountForStream : Obligations.FramesAccountForStream := by
  intro i s t frames hi hw hs ha h
  obtain ⟨new, -, hacc, hfly⟩ := exec_worker_accounted hi hw hs ha h
  exact ⟨new, hacc, hfly⟩

/-- The first marker after a clean frame is the frame's own, whatever follows it (R41 (c)). -/
theorem FrameClean.findFirst_eq {f : Bytes} (h : FrameClean f) (rest : Bytes) :
    findFirst (f ++ (Config.MARKER ++ rest)) Config.MARKER = some f.length := by
  rw [← List.append_assoc]; exact findFirst_append rest h

/-- A stream that begins with a clean frame and its marker begins with no other. -/
theorem FrameClean.unique {f g r r' : Bytes} (hf : FrameClean f) (hg : FrameClean g)
    (h : f ++ (Config.MARKER ++ r) = g ++ (Config.MARKER ++ r')) : f = g ∧ r = r' := by
  have hlen : f.length = g.length := by
    have hcut := hf.findFirst_eq r
    rw [h, hg.findFirst_eq r'] at hcut
    exact (Option.some.inj hcut).symm
  obtain ⟨hfg, hrest⟩ := List.append_inj h hlen
  exact ⟨hfg, List.append_cancel_left hrest⟩

/-- Settles O24: frame by frame, the first marker cuts both streams at the same place (`FrameClean.unique`). -/
theorem streamDeterminesFrames : Obligations.StreamDeterminesFrames := by
  intro fs gs r r' hfs hgs hlen h
  induction fs generalizing gs with
  | nil => exact List.nil_prefix
  | cons f fs ih =>
    cases gs with
    | nil => simp at hlen
    | cons g gs =>
      simp only [List.forall_mem_cons] at hfs hgs
      simp only [joinFrames, List.append_assoc] at h
      obtain ⟨rfl, hrest⟩ := hfs.1.unique hgs.1 h
      exact (List.prefix_cons_inj f).mpr (ih gs hfs.2 hgs.2 (Nat.le_of_succ_le_succ hlen) hrest)

/-! ### What every step keeps -/

/-- Settles O45: a unit that has faulted or is stuck is not live, so that no instruction of its agent has a step
(`exec_worker_live`, `exec_consumer_live`), and no other step but RESET touches its registers. -/
theorem faultIsSticky : Obligations.FaultIsSticky := by
  intro s t h hr
  have dead : s.fs.phase = .fault ∨ s.fs.stuck = true → ¬ WorkerLive s := by
    rintro (hp | hk) ⟨hl, hl', -⟩
    · exact hl hp
    · rw [hk] at hl'; cases hl'
  have deadPd : s.pd.phase = .fault → ¬ ConsumerLive s := fun hp hl => hl.1 hp
  cases stepBy_of_step h with
  | worker i u hu hi _ he =>
    have ho := exec_worker hi he
    exact ⟨fun hd => absurd ((exec_worker_live hi he).of_fetched hu) (dead hd),
      fun _ => ⟨ho.pd.trans hu.pd, fun _ => ho.pix.trans hu.pix⟩⟩
  | consumer i u hu hi _ he =>
    have ho := exec_consumer hi he
    exact ⟨fun _ => ⟨ho.fs.trans hu.fs, ho.src.trans hu.src⟩,
      fun hd => absurd ((exec_consumer_live hi he).of_fetched hu) (deadPd hd)⟩
  | reset u hs _ => exact absurd hs (not_exists.mpr hr)
  | host u m hu hs _ ht => subst ht; exact ⟨fun _ => ⟨hu.fs, hu.src⟩, fun _ => ⟨hu.pd, fun hn => absurd hs hn⟩⟩
  | still hu => exact ⟨fun _ => ⟨hu.fs, hu.src⟩, fun _ => ⟨hu.pd, fun _ => hu.pix⟩⟩
  | haltWorker u hu hl ht => subst ht; exact ⟨fun hd => absurd hl (dead hd), fun _ => ⟨hu.pd, fun _ => hu.pix⟩⟩
  | haltConsumer u hu hl ht => subst ht; exact ⟨fun _ => ⟨hu.fs, hu.src⟩, fun hd => absurd hl (deadPd hd)⟩

/-- FS's invariants hold of the registers of FS and the stream alone. -/
theorem FsKept.of_fs_src {s t : State} (h : FsKept s) (hf : t.fs = s.fs) (hs : t.src = s.src) : FsKept t :=
  h.of_eq (by rw [hs]) (by rw [hf])

theorem FsKept.of_fetched {s t : State} (h : FsKept s) (hu : Fetched s t) : FsKept t := h.of_fs_src hu.fs hu.src

theorem PdKept.of_fetched {s t : State} (h : PdKept s) (hu : Fetched s t) : PdKept t :=
  h.of_eq hu.pd hu.pix hu.params

/-- The mark of a stop (R207) is none of the registers FS's invariants speak of. -/
theorem FsKept.halted {s : State} (h : FsKept s) : FsKept (s.setFs { s.fs with stopped := true }) := h

/-- The mark of a stop (R207) is none of the registers PD's invariants speak of. -/
theorem PdKept.halted {s : State} (h : PdKept s) : PdKept (s.setPd { s.pd with stopped := true }) := h

/-- Outside a DECODE the picture is not under way, and the host may write PIX (R14 (4)). -/
theorem PdKept.setPix {s : State} (h : PdKept s) (hp : s.pd.phase ≠ .run) (m : Memory) : PdKept (s.setPix m) :=
  ⟨h.1, fun hr => absurd hr hp⟩

/-- Settles O56: `FsKept` by whose step it is; only the worker's instructions and RESET change what it speaks of. -/
theorem stepKeepsSynchronizer : Obligations.StepKeepsSynchronizer := by
  intro s t hs hr h
  have hk : FsKept s := ⟨hs, hr⟩
  change FsKept t
  cases stepBy_of_step h with
  | worker i u hu hi hw he => exact exec_worker_kept hi hw (hk.of_fetched hu) he
  | consumer i u hu hi _ he =>
    have ho := exec_consumer hi he
    exact (hk.of_fetched hu).of_fs_src ho.fs ho.src
  | reset u _ ht => rw [ht]; exact resetState_fs u
  | host u m hu _ _ ht => rw [ht]; exact (hk.of_fetched hu).of_fs_src rfl rfl
  | still hu => exact hk.of_fetched hu
  | haltWorker u hu _ ht => rw [ht]; exact (hk.of_fetched hu).halted
  | haltConsumer u hu _ ht => rw [ht]; exact (hk.of_fetched hu).of_fs_src rfl rfl

/-- Settles O57: `PdKept` by whose step it is; the consumer's instructions carry what PD fetches, and the host writes
PIX only outside a DECODE. -/
theorem stepKeepsDecoder : Obligations.StepKeepsDecoder := by
  intro s t hs hr h
  have hk : PdKept s := ⟨hs, hr⟩
  change PdKept t
  cases stepBy_of_step h with
  | worker i u hu hi _ he =>
    have ho := exec_worker hi he
    exact (hk.of_fetched hu).of_eq ho.pd ho.pix ho.params
  | consumer i u hu hi hd he => exact exec_consumer_kept hi hd (hk.of_fetched hu) he
  | reset u _ ht => rw [ht]; exact resetState_pd u
  | host u m hu _ hp ht => rw [ht]; exact (hk.of_fetched hu).setPix (by rw [hu.pd]; exact hp.2) m
  | still hu => exact hk.of_fetched hu
  | haltWorker u hu _ ht => rw [ht]; exact (hk.of_fetched hu).of_eq rfl rfl rfl
  | haltConsumer u hu _ ht => rw [ht]; exact (hk.of_fetched hu).halted

/-! ### No step is stuck in the model -/

theorem decode_of_decodeOpc_none {o : ByteOrder} {b : Byte} {bs : Bytes} (h : decodeOpc b = none) :
    decode o .opc8 (b :: bs) = .error (.unknownOpc b) := by
  simp only [decode, h]

/-- Settles O60: `step_moves`, the byte that is no label read through the decoder. -/
theorem soundStatesMove : Obligations.SoundStatesMove := by
  rintro s ⟨hfs, hpd, -⟩
  rcases step_moves hfs hpd with hnext | ⟨b, rest, hs, hb, hstep⟩
  · exact Or.inl hnext
  · exact Or.inr ⟨b, rest, hs, decode_of_decodeOpc_none hb, hstep⟩

/-! ### The values computed from DUMPED -/

/-- Settles O7: `pixelOffset_eq`, and arithmetic of the quotients. -/
theorem sampleDestination : Obligations.SampleDestination := by
  intro d hd totalPixels y x channel
  have hrow : y * 320 + x = totalPixels := by omega
  have hoff : pixelOffset d ≤ 286718 := by rw [pixelOffset_eq]; omega
  exact ⟨rfl, pixelOffset_eq d, by omega, by omega, by omega, by omega, hoff, hrow, by omega, by omega⟩

/-! ### Reset -/

/-- Settles O10: the reset values, read off. -/
theorem resetValues : Obligations.ResetValues :=
  ⟨rfl, rfl, rfl, rfl, rfl, rfl, rfl, rfl, rfl, rfl, rfl, rfl, rfl, rfl, rfl, by decide⟩

/-- Settles O11: RESET leaves both units sound, and does nothing to the state after reset. -/
theorem resetIsSound : Obligations.ResetIsSound := by
  have hreset : resetState State.reset = State.reset := rfl
  obtain ⟨hfs, hstream⟩ := resetState_fs State.reset
  obtain ⟨hpd, hpicture⟩ := resetState_pd State.reset
  rw [hreset] at hfs hstream hpd hpicture
  exact ⟨hfs, hpd, Memory.wf_reset, fun h => absurd rfl h, hstream, hpicture⟩

/-! ### The STATUS view -/

@[simp] theorem bit_getElem_zero (b : Bool) : (bit b)[0] = b := by cases b <;> rfl

/-- Settles O55: each field is the part of the concatenation that stands at its place. -/
theorem statusView : Obligations.StatusView := by
  refine ⟨fun s => ⟨?_, ?_, ?_, ?_, ?perr, ?pending, ?_⟩, ⟨rfl, rfl, rfl, rfl, rfl, rfl⟩, ⟨rfl, rfl, rfl, rfl⟩, rfl, rfl,
    rfl, rfl⟩
  case perr | pending =>
    rw [← BitVec.getLsbD_eq_getElem]
    simp only [status, BitVec.getLsbD_append]
    simp
  all_goals
    ext i hi
    simp only [status, BitVec.getElem_extractLsb', BitVec.getLsbD_append]
    interval_cases i <;> simp

/-! ### What the sequencing state selects -/

theorem workerInstr_of_not_live {s : State} (h : ¬ WorkerLive s) : workerInstr s = none := by
  cases hi : workerInstr s with
  | none => rfl
  | some i => exact absurd (workerInstr_agent hi).2.2 h

theorem consumerInstr_of_not_live {s : State} (h : ¬ ConsumerLive s) : consumerInstr s = none := by
  cases hi : consumerInstr s with
  | none => rfl
  | some i => exact absurd (consumerInstr_agent hi).2.2.1 h

/-- In phase RUN the consumer's instruction is the data at CURSOR (R32). -/
theorem consumerInstr_of_run {s : State} (hl : ConsumerLive s) (hp : s.pd.phase = .run) :
    consumerInstr s = some (pdFetch s) := by
  simp [consumerInstr, hl.2, hp]

/-- A consumer that may move may stop exactly where some unit may. -/
theorem exposedPd_of_live {s : State} (hl : ConsumerLive s) : exposedPd s = true ↔ MayStop s := by
  rw [exposedPd_iff]
  refine ⟨fun ⟨ha, hf, _⟩ => ⟨ha, Or.inr ⟨hf, hl⟩⟩, fun ⟨ha, hm⟩ => ⟨ha, ?_⟩⟩
  rcases hm with ⟨hp, -⟩ | hm
  · exact absurd hp hl.1
  · exact hm

theorem pdFetch_word {s : State} {w : Word} (hw : currentWord s = some w) (hc : s.pd.cursor % 32 = 0)
    (hx : exposedPd s = false) : pdFetch s = .pword w := by
  simp [pdFetch, hw, hc, hx]

/-- Inside a word, or where PD may stop, one slot is fetched, a sample or the parity slot by its place (R26). -/
theorem pdFetch_slot {s : State} {w : Word} (hw : currentWord s = some w)
    (hx : s.pd.cursor % 32 ≠ 0 ∨ exposedPd s = true) :
    pdFetch s = if slotIndex s.pd.cursor < Config.SAMPLES_PER_WORD then decodeSample (bitsAt w (s.pd.cursor % 32))
      else decodeParity (paritySlot w) := by
  have hn : (decide (s.pd.cursor % 32 = 0) && !exposedPd s) = false := by
    rcases hx with hx | hx <;> simp [hx]
  simp only [pdFetch, hw, hn, Bool.false_eq_true, if_false]

/-- An even CURSOR stands at the first bit of its slot (R26, R67). -/
theorem bitsAt_cursor (w : Word) {c : Nat} (h : c % 2 = 0) : bitsAt w (c % 32) = slot w (c % 32 / 2) := by
  rw [slot, show 2 * (c % 32 / 2) = c % 32 by omega]

theorem decodeSample_row {i : Instr} {v : Slot}
    (h : (i, v) ∈ [(Instr.lvl0, 0#2), (.lvl1, 1#2), (.lvl2, 2#2), (.lvl3, 3#2)]) : decodeSample v = i := by
  have rows : ∀ row ∈ [(Instr.lvl0, 0#2), (.lvl1, 1#2), (.lvl2, 2#2), (.lvl3, 3#2)], decodeSample row.2 = row.1 := by
    decide
  exact rows _ h

theorem decodeParity_row {i : Instr} {v : Slot}
    (h : (i, v) ∈ [(Instr.parOk, 0#2), (.parNz1, 1#2), (.parNz2, 2#2), (.parNz3, 3#2)]) : decodeParity v = i := by
  have rows : ∀ row ∈ [(Instr.parOk, 0#2), (.parNz1, 1#2), (.parNz2, 2#2), (.parNz3, 3#2)],
      decodeParity row.2 = row.1 := by decide
  exact rows _ h

/-- Settles O52: an agent that may not move selects nothing; the worker's choice is read off by phase; the consumer's
in phase RUN is `pdFetch`, the word or the slot CURSOR stands at. -/
theorem sequencingSelects : Obligations.SequencingSelects := by
  refine ⟨fun s => workerInstr_of_not_live, fun s hl => ?worker, fun s => consumerInstr_of_not_live,
    fun s hl => ⟨fun hp => ?idle, fun hp => ?check, fun w hp hw => ?run⟩⟩
  case worker =>
    have hh : (fsHalted s || s.fs.stuck) = false := by rw [hl.2.1, hl.2.2]; rfl
    refine ⟨fun hp => ?_, fun hp => ?_, fun hp => ?_, fun hp => ?_, fun hp => ?_⟩ <;>
      simp only [workerInstr, hh, hp, Bool.false_eq_true, if_false]
    · cases s.fs.frameOut <;> rfl
    · change _ = if findFirst s.fs.acc Config.MARKER = none then some Instr.fsScan else some .marker
      cases findFirst s.fs.acc Config.MARKER <;> rfl
    · cases s.fs.frameOut <;> rfl
  case idle => simp [consumerInstr, hp]
  case check => simp [consumerInstr, hp, hl.2]
  case run =>
    rw [consumerInstr_of_run hl hp]
    refine ⟨fun hc hn => ?_, fun i v hi hx he hj hv => ?_, fun i v hi hj hv => ?_⟩
    · rw [pdFetch_word hw hc (by rwa [← exposedPd_of_live hl, Bool.not_eq_true] at hn)]
    · have hs : slotIndex s.pd.cursor < Config.SAMPLES_PER_WORD := hj
      rw [pdFetch_slot hw (by rwa [exposedPd_of_live hl]), if_pos hs, bitsAt_cursor w he, hv, decodeSample_row hi]
    · have hn : ¬ slotIndex s.pd.cursor < Config.SAMPLES_PER_WORD := by rw [slotIndex, hj]; decide
      rw [pdFetch_slot hw (Or.inl (by omega)), if_neg hn, paritySlot, hv, decodeParity_row hi]

end Machine
end Sys2Proof
end

section
/-! PROOFS. The statements of the family `20_memory.md`: what a step writes to PIX (R60, R63), the packed words and
their bits (R64, R67, R100), the picture a DECODE writes (R150, R162), and the source's transactions (R66). -/

namespace Sys2Proof
namespace Machine

/-! ### The fourth bytes -/

theorem AlphaKept.of_pix_eq {s t : State} (h : t.pix = s.pix) : AlphaKept s t := fun a _ => by rw [h]

theorem AlphaKept.trans {s t u : State} (h : AlphaKept s t) (k : AlphaKept t u) : AlphaKept s u :=
  fun a ha => (k a ha).trans (h a ha)

/-- A byte written at another place than a fourth byte's leaves the fourth bytes. -/
theorem AlphaKept.write (s : State) {off : Nat} (v : Byte) (h : off % 4 ≠ 3) :
    AlphaKept s (s.setPix (s.pix.write off v)) :=
  fun a ha => Memory.read_write_other _ _ (by rintro rfl; exact h ha)

/-- PD writes no fourth byte, whatever instruction it takes (R63, R150). -/
theorem exec_consumer_alpha {i : Instr} {s t : State} (hi : agentOf i = .consumer) (h : exec i s = .next t) :
    AlphaKept s t := by
  cases i <;> simp only [agentOf, reduceCtorEq] at hi
  case cpTick =>
    rcases (execCpTick_eq_next h).2 with ⟨-, rfl⟩ | ⟨f, -, h⟩
    · exact .of_pix_eq rfl
    · exact decodeFrame_alpha (s := polled s) h
  all_goals
    simp only [exec] at h
    obtain ⟨-, h⟩ := gate_eq_next.mp h
  case decodeOp => obtain ⟨f, -, h⟩ := withTaken_eq_next h; exact decodeFrame_alpha h
  case pdStart => obtain ⟨f, -, h⟩ := withTaken_eq_next h; cases h; exact .of_pix_eq rfl
  case pdCheck => obtain ⟨f, -, h⟩ := withFrm_eq_next h; cases h; exact .of_pix_eq (pdChecked_pix f s)
  case pdSample => obtain ⟨w, -, h⟩ := withWord_eq_next h; exact putSample_alpha h
  case pdParity => obtain ⟨w, -, h⟩ := withWord_eq_next h; cases h; exact .of_pix_eq rfl
  case pdWord => obtain ⟨w, -, h⟩ := withWord_eq_next h; exact putWord_alpha h
  case pword => exact putWord_alpha h
  case lvl0 | lvl1 | lvl2 | lvl3 => exact putSample_alpha h
  case pdDone | cpPoll | parOk | parNz1 | parNz2 | parNz3 => cases h; exact .of_pix_eq rfl

/-- Of all instructions only the host's PIXEL can write a fourth byte (R63, R96). -/
theorem exec_alpha {i : Instr} {s t : State} (hi : ∀ r g b a, i ≠ .pixel r g b a) (h : exec i s = .next t) :
    AlphaKept s t := by
  rcases agentOf_cases i with ha | ha | rfl | ⟨r, g, b, a, rfl⟩
  · exact .of_pix_eq (exec_worker ha h).pix
  · exact exec_consumer_alpha ha h
  · cases h; exact .of_pix_eq rfl
  · exact absurd rfl (hi r g b a)

/-- Settles O44: what a step can be, case by case. An instruction that is not PIXEL writes no fourth byte
(`exec_alpha`), and PIXEL comes from the script alone: no label names it and no sequencing state selects it. -/
theorem alphaNeverWritten : Obligations.AlphaNeverWritten := by
  intro s t hpixel hbyte h
  cases step_cases h with
  | instr i u _ _ hu hs he =>
    refine (AlphaKept.of_pix_eq hu.pix).trans (exec_alpha ?_ he)
    rintro r g b a rfl
    rcases hs with ⟨_, _, _, hb⟩ | ⟨n, r', g', b', a', rest, hs, -⟩ | ⟨-, hsel⟩
    · cases (decodeOpc_label hb).2
    · exact hpixel n r' g' b' a' rest hs
    · exact (not_or.mpr (not_selected_of_host rfl)) hsel
  | wrote off v u hu hs _ ht =>
    obtain ⟨rest, hs⟩ := hs
    rw [ht, ← hu.pix]
    exact (AlphaKept.of_pix_eq hu.pix).trans (.write u v (hbyte off v rest hs))
  | still hu => exact .of_pix_eq hu.pix
  | haltWorker u hu _ _ ht => rw [ht]; exact .of_pix_eq hu.pix
  | haltConsumer u hu _ _ ht => rw [ht]; exact .of_pix_eq hu.pix

/-! ### The canonical form of PIX -/

/-- PIX's invariant is about PIX alone. -/
theorem PixSound.of_pix_eq {s t : State} (h : PixSound s) (he : t.pix = s.pix) : PixSound t := by
  unfold PixSound; rw [he]; exact h

/-- Settles O58: what a step can be, case by case; an instruction keeps the form (`exec_wf`), and so does the host's
byte, whose offset is one of PIX's (`Memory.wf_write`). -/
theorem stepKeepsPixelMemory : Obligations.StepKeepsPixelMemory := by
  intro s t hs h
  cases step_cases h with
  | instr i u _ _ hu _ he => exact exec_wf (hs.of_pix_eq hu.pix) he
  | wrote off v u _ _ _ ht => rw [ht]; exact Memory.wf_write s.pix off v off.isLt hs
  | still hu => exact hs.of_pix_eq hu.pix
  | haltWorker u hu _ _ ht => rw [ht]; exact hs.of_pix_eq hu.pix
  | haltConsumer u hu _ _ ht => rw [ht]; exact hs.of_pix_eq hu.pix

/-! ### The destinations of the samples -/

/-- Sample `3 n + c` is channel `c` of pixel `n` (R28). -/
theorem pixelOffset_channel (n : Nat) {c : Nat} (hc : c < 3) : pixelOffset (3 * n + c) = 4 * n + c := by
  rw [pixelOffset_eq]; omega

/-- Settles O8: `pixelOffset_inj`; the samples' offsets are inside PIX and no fourth byte's, and the colour byte at
`off` is the one of channel `off % 4` of pixel `off / 4`. -/
theorem destinationsAreColourBytes : Obligations.DestinationsAreColourBytes := by
  refine ⟨fun a b => pixelOffset_inj, fun off => ⟨?_, fun ⟨hoff, hcol⟩ => ?_⟩⟩
  · rintro ⟨d, hd, rfl⟩
    exact ⟨pixelOffset_lt hd, pixelOffset_alpha d⟩
  · refine ⟨3 * (off / 4) + off % 4, by omega, ?_⟩
    rw [pixelOffset_channel _ (by omega)]; omega

/-! ### The picture -/

/-- Settles O33: `decodeFrame_spec`, its picture read at the sample of each colour byte. -/
theorem decodeGivesPicture : Obligations.DecodeGivesPicture := by
  intro s f hl hp ht hlen hwords
  have hf : wellFormedFrame f = true := wellFormedFrame_iff.mpr ⟨hlen, by omega⟩
  obtain ⟨t, hdec, hd⟩ := decodeFrame_spec (s := s) hf
  have hx : exec .decodeOp s = .next t := by
    simp only [exec, execDecode, gate_open (pdStop_eq_none.mpr ⟨hl, hp, rfl⟩), withTaken, ht, hdec]
  obtain ⟨hidle, hfrm⟩ := hd.done rfl
  refine ⟨t, hx, fun n c hn hc => ?picture, fun a ha => ?others, hidle, hfrm, hd.cursor, hd.dumped, hd.fault,
    hd.count, ?diagnostic, hd.taken, hd.only⟩
  case picture =>
    obtain ⟨w, hw⟩ := wellFormedFrame_word (o := s.params.byteOrder) (k := (3 * n + c) / 15) hf (by omega)
    refine ⟨w, hw, ?_⟩
    rw [← pixelOffset_channel n hc, hd.picture _ (by omega), sampleOf, hw]
    rfl
  case others =>
    refine hd.others a fun k hk e => ?_
    have hin : pixelOffset k < 286720 := pixelOffset_lt hk
    have hcol := pixelOffset_alpha k
    omega
  case diagnostic => rw [hd.perr, decide_eq_true_iff]

/-! ### Words of a frame -/

/-- Four bytes side by side, the first the most significant (R64). -/
theorem append_eq_or_shifts (a b c d : Byte) :
    a ++ b ++ c ++ d = a.setWidth 32 <<< 24 ||| b.setWidth 32 <<< 16 ||| c.setWidth 32 <<< 8 ||| d.setWidth 32 :=
  (BitVec.setWidth_eq _).symm.trans BitVec.setWidth_append_append_append_eq_shiftLeft_setWidth_or

/-- A frame from a byte of it on. -/
theorem drop_of_getElem? {f : Bytes} {i : Nat} {b : Byte} (h : f[i]? = some b) : f.drop i = b :: f.drop (i + 1) := by
  rw [List.drop_eq_getElem?_toList_append, h]; rfl

theorem frameWord_of_bytes (o : ByteOrder) {f : Bytes} {k : Nat} {b0 b1 b2 b3 : Byte} (h0 : f[4 * k]? = some b0)
    (h1 : f[4 * k + 1]? = some b1) (h2 : f[4 * k + 2]? = some b2) (h3 : f[4 * k + 3]? = some b3) :
    frameWord o f k = some (wordOfBytes o b0 b1 b2 b3) := by
  unfold frameWord
  rw [drop_of_getElem? h0, drop_of_getElem? h1, drop_of_getElem? h2, drop_of_getElem? h3]

theorem frameWord_of_short (o : ByteOrder) {f : Bytes} {k : Nat} (h : f.length < 4 * k + 4) :
    frameWord o f k = none := by
  have hlen : (f.drop (4 * k)).length < 4 := by rw [List.length_drop]; omega
  unfold frameWord
  split
  next _ _ _ _ rest hd =>
    rw [hd] at hlen
    exact absurd hlen (Nat.not_lt_of_le (Nat.le_add_left 4 rest.length))
  next => rfl

/-- Settles O4: the word is the four bytes side by side, the last one first in order LE (`frameWord_of_bytes`,
`append_eq_or_shifts`). -/
theorem frameWordFromBytes : Obligations.FrameWordFromBytes := by
  refine ⟨fun f k b0 b1 b2 b3 h0 h1 h2 h3 => ⟨?le, ?be⟩, fun o f k => frameWord_of_short o⟩
  case le =>
    have reverse : ∀ a b c d : Word, a ||| b ||| c ||| d = d ||| c ||| b ||| a := by intros; ac_rfl
    rw [frameWord_of_bytes .le h0 h1 h2 h3, wordOfBytes, append_eq_or_shifts, reverse]
  case be =>
    rw [frameWord_of_bytes .be h0 h1 h2 h3, wordOfBytes, append_eq_or_shifts]

/-! ### Slots of a word -/

theorem slot_eq_extractLsb' (w : Word) (j : Nat) : slot w j = w.extractLsb' (30 - 2 * j) 2 :=
  BitVec.eq_of_toNat_eq (by simp [slot, bitsAt])

theorem slot_toNat (w : Word) (j : Nat) : (slot w j).toNat = w.toNat / 2 ^ (30 - 2 * j) % 4 := by
  rw [slot, bitsAt, BitVec.toNat_setWidth, BitVec.toNat_ushiftRight, Nat.shiftRight_eq_div_pow]

/-- Settles O5: a slot is the two bits at its place, read as bits and as a number. -/
theorem slotBits : Obligations.SlotBits :=
  ⟨fun w j _ => ⟨slot_eq_extractLsb' w j, slot_toNat w j⟩,
    fun w => ⟨slot_eq_extractLsb' w 0, slot_eq_extractLsb' w 14, slot_eq_extractLsb' w 15, rfl⟩, fun _ => rfl⟩

/-! ### Labels -/

/-- A byte that labels no row of the table names no instruction (R100). -/
theorem decodeOpc_eq_none {b : Byte} (h : b ∉ opcTable.map (·.1)) : decodeOpc b = none := by
  rw [decodeOpc, Option.map_eq_none_iff, List.find?_eq_none]
  intro row hr hb
  exact h (List.mem_map.mpr ⟨row, hr, by simpa using hb⟩)

/-- Settles O3: the rows of the table one by one, the bytes that label none (`decodeOpc_eq_none`), and the decoder on
the formats' bits. -/
theorem labelsAndWordsDecode : Obligations.LabelsAndWordsDecode :=
  ⟨by decide, by decide, by decide, fun b hb => decodeOpc_eq_none hb, rfl, rfl, by decide, by decide, rfl, rfl,
    rfl, rfl⟩

/-! ### The source's transactions -/

theorem exec_availTransaction {s : State} {i : Instr} (hi : i = .fsPoll ∨ i = .srcAvail) (hl : WorkerLive s)
    (hp : s.fs.phase = .poll) : exec i s = .next (fsPolled s) := by
  rcases hi with rfl | rfl <;> exact gate_open (fsStop_of_live hl hp)

theorem exec_readTransaction {s : State} {i : Instr} (hi : i = .fsRead ∨ i = .srcRead 512) (hl : WorkerLive s)
    (hp : s.fs.phase = .read) : exec i s = .next (fsReadDone 512 s) := by
  rcases hi with rfl | rfl <;> exact gate_open (fsStop_of_live hl hp)

/-- FS.POLL leaves the source and the surroundings as the transaction does (R66, R128). -/
theorem fsPolled_src_env (s : State) :
    (fsPolled s).src = (afterAvail s).src ∧ (fsPolled s).env = (afterAvail s).env := by
  unfold fsPolled
  split <;> exact ⟨rfl, rfl⟩

/-- FS.READ leaves the source and the surroundings as the transaction does (R66, R129). -/
theorem fsReadDone_src_env (m : Nat) (s : State) :
    (fsReadDone m s).src = (afterRead m s).src ∧ (fsReadDone m s).env = (afterRead m s).env := by
  unfold fsReadDone
  split
  · exact ⟨rfl, rfl⟩
  · exact ⟨rfl, rfl⟩
  · split <;> exact ⟨rfl, rfl⟩

theorem fsPolled_fs_of_linkError {s : State} (h : availAnswer s = .linkError) :
    (fsPolled s).fs = { s.fs with fault := .linkError, phase := .fault } := by
  simp [fsPolled, h, (afterAvail_onlySource s).fs]

theorem fsPolled_fs_of_silent {s : State} (h : availAnswer s = .silent) :
    (fsPolled s).fs = { s.fs with stuck := true } := by
  simp [fsPolled, h, (afterAvail_onlySource s).fs]

theorem fsPolled_fs_of_count {s : State} {n : Nat} (h : availAnswer s = .count n) :
    (fsPolled s).fs = { s.fs with avail := n, phase := if n = 0 then .poll else .read } := by
  simp [fsPolled, h]

/-- Settles O14: both rows are `fsPolled`, whose registers are read off by the answer. -/
theorem fsPollByAnswer : Obligations.FsPollByAnswer := by
  intro s i hi hl hp
  obtain ⟨hsrc, henv⟩ := fsPolled_src_env s
  exact ⟨fsPolled s, exec_availTransaction hi hl hp, fsPolled_only s, hsrc, henv, fsPolled_fs_of_linkError,
    fsPolled_fs_of_silent, fun _ => fsPolled_fs_of_count⟩

theorem fsReadDone_fs_of_linkError {m : Nat} {s : State} (h : readAnswer m s = .linkError) :
    (fsReadDone m s).fs = { s.fs with fault := .linkError, phase := .fault } := by
  simp [fsReadDone, h, (afterRead_onlySource m s).fs]

theorem fsReadDone_fs_of_silent {m : Nat} {s : State} (h : readAnswer m s = .silent) :
    (fsReadDone m s).fs = { s.fs with stuck := true } := by
  simp [fsReadDone, h, (afterRead_onlySource m s).fs]

/-- A chunk that passes ACC_CAP faults FS, any other extends ACC (R129, R205). -/
theorem fsReadDone_fs_of_chunk {m : Nat} {s : State} {c : Bytes} (h : readAnswer m s = .chunk c) :
    (fsReadDone m s).fs =
      if overflows s c.length then { s.fs with chunk := c, fault := .bufferOverflow, phase := .fault }
      else { s.fs with chunk := c, acc := s.fs.acc ++ c, phase := .scan } := by
  simp only [fsReadDone, h]
  split <;> rfl

theorem overflows_of_unbounded {s : State} (n : Nat) (h : s.params.accCap = none) : overflows s n = false := by
  simp [overflows, h]

theorem overflows_iff {s : State} {n cap : Nat} (h : s.params.accCap = some cap) :
    overflows s n = true ↔ cap < s.fs.acc.length + n := by
  simp [overflows, h]

/-- Settles O15: both rows are `fsReadDone 512`, whose registers are read off by the answer, a chunk's by ACC_CAP; the
stream after it is the transaction's. -/
theorem fsReadByAnswer : Obligations.FsReadByAnswer := by
  intro s i hi hl hp
  obtain ⟨hsrc, henv⟩ := fsReadDone_src_env 512 s
  refine ⟨fsReadDone 512 s, exec_readTransaction hi hl hp, fsReadDone_only 512 s, hsrc, henv, fun h => ?linkError,
    fun h => ?silent, fun c h => ?chunk⟩ <;> rw [hsrc]
  case linkError => exact ⟨fsReadDone_fs_of_linkError h, afterRead_stream_fail h⟩
  case silent => exact ⟨fsReadDone_fs_of_silent h, afterRead_stream_silent h⟩
  case chunk =>
    refine ⟨readAnswer_bound h, afterRead_stream h, fun hcap => ?_, fun cap hcap => ?_⟩
    · rw [fsReadDone_fs_of_chunk h, overflows_of_unbounded _ hcap, if_neg Bool.false_ne_true]
    · simp only [fsReadDone_fs_of_chunk h, overflows_iff hcap]

/-! ### Answers on hand and free answers -/

theorem availAnswer_of_onHand {s : State} {r : AvailReply} {rs : List AvailReply} (h : s.src.avails = r :: rs) :
    availAnswer s = r ∧ afterAvail s = s.setSrc { s.src with avails := rs } := by
  simp only [availAnswer, afterAvail, h, and_self]

theorem availAnswer_of_free {s : State} (h : s.src.avails = []) :
    availAnswer s = Config.freeAvail s.env.draws ∧ afterAvail s = s.draw := by
  simp only [availAnswer, afterAvail, h, and_self]

/-- A reply that is no chunk is not cut, and nothing of it is left. -/
theorem upTo_left_of_not_chunk {r : ReadReply} (m : Nat) (h : ∀ bs, r ≠ .chunk bs) :
    ReadReply.upTo m r = r ∧ ReadReply.left m r = [] := by
  cases r with
  | chunk bs => exact absurd rfl (h bs)
  | linkError => exact ⟨rfl, rfl⟩
  | silent => exact ⟨rfl, rfl⟩

theorem readAnswer_of_onHand {s : State} {r : ReadReply} {rs : List ReadReply} (m : Nat) (h : s.src.reads = r :: rs) :
    readAnswer m s = ReadReply.upTo m r := by
  simp only [readAnswer, h]

theorem readAnswer_of_free {s : State} (m : Nat) (h : s.src.reads = []) :
    readAnswer m s = ReadReply.upTo m (Config.freeRead s.env.draws) := by
  simp only [readAnswer, h]

/-- The state of `afterRead` before the bytes are counted as delivered: the answer is used up, or a free value drawn
(R121; `afterRead_of_chunk`, `afterRead_of_not_chunk`). -/
def readUsedUp (m : Nat) (s : State) : State :=
  match s.src.reads with
  | r :: rs => s.setSrc { s.src with reads := ReadReply.left m r ++ rs }
  | [] => s.draw

theorem readUsedUp_of_onHand {s : State} {r : ReadReply} {rs : List ReadReply} (m : Nat) (h : s.src.reads = r :: rs) :
    readUsedUp m s = s.setSrc { s.src with reads := ReadReply.left m r ++ rs } := by
  simp only [readUsedUp, h]

theorem readUsedUp_of_free {s : State} (m : Nat) (h : s.src.reads = []) : readUsedUp m s = s.draw := by
  simp only [readUsedUp, h]

/-- The bytes a read returns extend the stream (R123). -/
theorem afterRead_of_chunk {m : Nat} {s : State} {c : Bytes} (h : readAnswer m s = .chunk c) :
    afterRead m s = (readUsedUp m s).setSrc
      { (readUsedUp m s).src with stream := (readUsedUp m s).src.stream ++ c } := by
  unfold afterRead
  rw [h]
  rfl

/-- A read that returns no bytes only uses its answer up. -/
theorem afterRead_of_not_chunk {m : Nat} {s : State} (h : ∀ c, readAnswer m s ≠ .chunk c) :
    afterRead m s = readUsedUp m s := by
  unfold afterRead
  cases ha : readAnswer m s with
  | chunk c => exact absurd ha (h c)
  | linkError => rfl
  | silent => rfl

/-- Settles O16: a transaction uses up the first answer on hand, or else a draw; the bytes a read returns extend the
stream, a longer reply leaving its rest on hand. -/
theorem sourceAnswersInOrder : Obligations.SourceAnswersInOrder := by
  refine ⟨fun s r rs => availAnswer_of_onHand, fun s => availAnswer_of_free, fun s m bs rs h => ?chunkOnHand,
    fun s m r rs hr h => ?noBytesOnHand, fun s m h => ⟨fun bs hb => ?freeChunk, fun hb => ?freeNoBytes⟩⟩
  case chunkOnHand =>
    have ha : readAnswer m s = .chunk (bs.take m) := readAnswer_of_onHand m h
    refine ⟨ha, ?_⟩
    rw [afterRead_of_chunk ha, readUsedUp_of_onHand m h, ReadReply.left]
    split <;> rfl
  case noBytesOnHand =>
    have hr : ∀ bs, r ≠ .chunk bs := by rcases hr with rfl | rfl <;> nofun
    obtain ⟨hcut, hleft⟩ := upTo_left_of_not_chunk m hr
    have ha : readAnswer m s = r := (readAnswer_of_onHand m h).trans hcut
    refine ⟨ha, ?_⟩
    rw [afterRead_of_not_chunk (ha ▸ hr), readUsedUp_of_onHand m h, hleft, List.nil_append]
  case freeChunk =>
    have ha : readAnswer m s = .chunk (bs.take m) := by rw [readAnswer_of_free m h, hb]; rfl
    refine ⟨ha, ?_⟩
    rw [afterRead_of_chunk ha, readUsedUp_of_free m h]
    rfl
  case freeNoBytes =>
    have ha : readAnswer m s = Config.freeRead s.env.draws :=
      (readAnswer_of_free m h).trans (upTo_left_of_not_chunk m hb).1
    refine ⟨ha, ?_⟩
    rw [afterRead_of_not_chunk (ha ▸ hb), readUsedUp_of_free m h]

end Machine
end Sys2Proof
end

section
/-! PROOFS. The statements of the family `30_encoding.md`: the encoder and the decoder (R90 to R97, R100), the report
that goes out inside CP.PUSH (R104, R184), CATCH on the passes that complete a marker (R125, R133 to R135), what the
slots and the words write (R97, R156 to R159, R204), and the operations that give way to their steps (R104, R207). -/

namespace Sys2Proof
namespace Machine

/-! ### The decoder and the encoder -/

theorem decode_of_decodeOpc {o : ByteOrder} {b : Byte} {i : Instr} (rest : Bytes) (h : decodeOpc b = some i) :
    decode o .opc8 (b :: rest) = .ok (i, rest) := by
  simp only [decode, h]

/-- Settles O1: row by row; a label is looked up in the table (R100), a packed word is put together again from its
bytes (`wordOfBytes_bytesOfWord`), and SRC.READ asks for CHUNK_MAX. -/
theorem decodeEncodeRoundTrip : Obligations.DecodeEncodeRoundTrip := by
  intro o i rest hwf
  cases i with
  | srcRead m =>
    obtain rfl : m = Config.CHUNK_MAX := by simpa [Instr.wf] using hwf
    exact decode_of_decodeOpc rest (by decide)
  | pword w =>
    obtain ⟨b0, b1, b2, b3, hbytes, hword⟩ := wordOfBytes_bytesOfWord o w
    simp only [Instr.format, encode, hbytes, List.cons_append, List.nil_append, decode, hword]
  | marker | pixel | lvl0 | lvl1 | lvl2 | lvl3 | parOk | parNz1 | parNz2 | parNz3 => rfl
  | _ => exact decode_of_decodeOpc rest (by decide)

/-- A row of the table is its label's encoding (R100). -/
theorem encode_of_decodeOpc {b : Byte} {i : Instr} (o : ByteOrder) (h : decodeOpc b = some i) : encode o i = [b] := by
  have rows : ∀ row ∈ opcTable, encode o row.2 = [row.1] := by cases o <;> decide
  exact rows _ (decodeOpc_mem h)

/-- A byte read as a slot holds it alone, its six high bits 0 (log entry 12). -/
theorem slotOfByte_map_eq_ok {α : Type} {b : Byte} {g : Slot → α} {y : α} (h : (slotOfByte b).map g = .ok y) :
    ∃ v : Slot, b = v.setWidth 8 ∧ g v = y := by
  unfold slotOfByte at h
  split at h
  · refine ⟨b.setWidth 2, BitVec.eq_of_toNat_eq ?_, Except.ok.inj h⟩
    simp only [BitVec.toNat_setWidth]
    omega
  · cases h

theorem encode_decodeSample (o : ByteOrder) (v : Slot) :
    (decodeSample v).format = .sampleSlot ∧ encode o (decodeSample v) = [v.setWidth 8] := by
  rcases slot_cases v with rfl | rfl | rfl | rfl <;> exact ⟨rfl, rfl⟩

theorem encode_decodeParity (o : ByteOrder) (v : Slot) :
    (decodeParity v).format = .paritySlot ∧ encode o (decodeParity v) = [v.setWidth 8] := by
  rcases slot_cases v with rfl | rfl | rfl | rfl <;> exact ⟨rfl, rfl⟩

/-- The bytes and the row of every answer the decoder gives, format by format. -/
inductive Decoded (o : ByteOrder) (rest : Bytes) : Format → Bytes → Instr → Prop where
  | opc8 (b : Byte) (i : Instr) (h : decodeOpc b = some i) : Decoded o rest .opc8 (b :: rest) i
  | mk : Decoded o rest .mk (Config.MARKER ++ rest) .marker
  | pw (b0 b1 b2 b3 : Byte) :
      Decoded o rest .pw (b0 :: b1 :: b2 :: b3 :: rest) (.pword (wordOfBytes o b0 b1 b2 b3))
  | px (r g b a : Byte) : Decoded o rest .px (r :: g :: b :: a :: rest) (.pixel r g b a)
  | sampleSlot (v : Slot) : Decoded o rest .sampleSlot (v.setWidth 8 :: rest) (decodeSample v)
  | paritySlot (v : Slot) : Decoded o rest .paritySlot (v.setWidth 8 :: rest) (decodeParity v)

/-- Every answer the decoder gives is one of these. -/
theorem decode_cases {o : ByteOrder} {f : Format} {bs rest : Bytes} {i : Instr} (h : decode o f bs = .ok (i, rest)) :
    Decoded o rest f bs i := by
  unfold decode at h
  split at h
  · split at h
    · rename_i hb
      cases h; exact .opc8 _ _ hb
    · cases h
  · split at h
    · rename_i b0 b1 b2 b3 _ hm
      cases h
      have hbytes : b0 :: b1 :: b2 :: b3 :: rest = Config.MARKER ++ rest := by rw [← hm]; rfl
      rw [hbytes]; exact .mk
    · cases h
  · cases h; exact .pw ..
  · cases h; exact .px ..
  · obtain ⟨v, rfl, he⟩ := slotOfByte_map_eq_ok h
    cases he; exact .sampleSlot v
  · obtain ⟨v, rfl, he⟩ := slotOfByte_map_eq_ok h
    cases he; exact .paritySlot v
  · cases h

/-- Settles O2: the decoder's answers format by format (`decode_cases`), each with the bytes its row encodes to. -/
theorem encodeDecodeRoundTrip : Obligations.EncodeDecodeRoundTrip := by
  intro o f bs rest i h
  cases decode_cases h with
  | opc8 b i hb =>
    obtain ⟨hwf, hformat⟩ := decodeOpc_label hb
    exact ⟨hformat, hwf, by rw [encode_of_decodeOpc o hb]; rfl⟩
  | mk => exact ⟨rfl, rfl, rfl⟩
  | pw b0 b1 b2 b3 => exact ⟨rfl, rfl, by rw [encode, bytesOfWord_wordOfBytes]; rfl⟩
  | px => exact ⟨rfl, rfl, rfl⟩
  | sampleSlot v =>
    obtain ⟨hformat, hbytes⟩ := encode_decodeSample o v
    exact ⟨hformat, (decodeSample_agent v).2, by rw [hbytes]; rfl⟩
  | paritySlot v =>
    obtain ⟨hformat, hbytes⟩ := encode_decodeParity o v
    exact ⟨hformat, (decodeParity_agent v).2, by rw [hbytes]; rfl⟩

/-! ### The report -/

/-- Settles O59: what a step can be, case by case; an instruction keeps the reports sound (`exec_report`) and nothing
else touches the pipeline; where they are sound none is due (`ReportSound.not_due`). -/
theorem stepKeepsReport : Obligations.StepKeepsReport := by
  refine ⟨fun s t hs h => ?_, fun s hs => ?_⟩
  · have of_pipe : ∀ {u : State}, u.pipe = s.pipe → ReportSound u := fun e => hs.of_eq (by rw [e]) (by rw [e])
    cases step_cases h with
    | instr i u _ _ hu _ he => exact exec_report (of_pipe hu.pipe) he
    | wrote off v u hu _ _ ht => rw [ht]; exact of_pipe hu.pipe
    | still hu => exact of_pipe hu.pipe
    | haltWorker u hu _ _ ht => rw [ht]; exact of_pipe hu.pipe
    | haltConsumer u hu _ _ ht => rw [ht]; exact of_pipe hu.pipe
  · cases hg : reportStop s with
    | some w => exact ⟨w, by simp only [exec, execCpReport, hg, gate_some]⟩
    | none =>
      have hdue := (reportStop_eq_none.mp hg).2
      rw [hs.not_due] at hdue
      cases hdue

/-! ### The marker and CATCH on passes -/

/-- While FS scans, no match in ACC keeps MARKER from its step (R92). -/
theorem markerStop_of_none {s : State} (hl : WorkerLive s) (hp : s.fs.phase = .scan)
    (hn : findFirst s.fs.acc Config.MARKER = none) : markerStop s = some .noMarker := by
  simp only [markerStop, fsStop_of_live hl hp, hn]
  rfl

/-- Settles O18: a match opens the gate of FS.SCAN's step (`markerStop_eq_none`), none shuts it. -/
theorem markerIsFirstMatch : Obligations.MarkerIsFirstMatch := by
  intro s hl hp
  refine ⟨fun k (hk : findFirst s.fs.acc Config.MARKER = some k) => ?_,
    fun (hn : findFirst s.fs.acc Config.MARKER = none) => ?_⟩
  · have hg : markerStop s = none := markerStop_eq_none.mpr ⟨hl, hp, by rw [hk]; rfl⟩
    simp only [exec, execMarker, gate_open hg, fsScanned, hk]
    rfl
  · simp only [exec, execMarker, markerStop_of_none hl hp hn, gate_some]

/-- Settles O21: `catchLoop_passes` from FS.START on, the steps at hand being enough (`catchFuel_passes`). -/
theorem catchOnPasses : Obligations.CatchOnPasses := by
  intro s ps p i ra rr hl hp hf hcap ha hr hlen hno hyes
  have hfuel := catchFuel_passes (ps ++ [p]) 0 (la := ra) ha hr
  exact (gate_open (fsStop_of_live hl hp)).trans
    (catchLoop_passes ps (s := fsStarted s) (by omega) rfl hl.2.1 hf hcap ha hr hlen hno hyes)

/-- Bytes too few for a clean frame and its marker hold no marker, if they begin them (R135). -/
theorem FrameClean.findFirst_of_short {f a b rest : Bytes} (hf : FrameClean f)
    (h : a ++ b = f ++ (Config.MARKER ++ rest)) (hlen : a.length < f.length + 4) :
    findFirst a Config.MARKER = none := by
  cases ha : findFirst a Config.MARKER with
  | none => rfl
  | some k =>
    have hcut := findFirst_append b ha
    rw [h, hf.findFirst_eq rest] at hcut
    obtain rfl := Option.some.inj hcut
    have hbound : f.length + 4 ≤ a.length := (findFirst_split ha).2
    omega

theorem passBytes_take_drop (ps : List Pass) (k : Nat) :
    passBytes (ps.take k) ++ passBytes (ps.drop k) = passBytes ps := by
  rw [← passBytes_append, List.take_append_drop]

/-- Settles O23: the marker after the clean payload is the first match, and no earlier read holds one
(`FrameClean.findFirst_of_short`), so that CATCH is `catchOnPasses` and cuts behind the payload. -/
theorem catchIgnoresChunking : Obligations.CatchIgnoresChunking := by
  intro s ps p payload rest ra rr hl hp hf hcap ha hr hlen hclean hbytes hshort
  have hyes : findFirst (s.fs.spill ++ passBytes (ps ++ [p])) Config.MARKER = some payload.length := by
    rw [hbytes]; exact hclean.findFirst_eq rest
  have hno : ∀ k, 0 < k → k ≤ ps.length → findFirst (s.fs.spill ++ passBytes (ps.take k)) Config.MARKER = none := by
    intro k hk hk'
    have hshort' : (s.fs.spill ++ passBytes ps).length < payload.length + 4 := by
      rcases hshort with rfl | hshort
      · exact absurd hk (Nat.not_lt.mpr hk')
      · exact hshort
    have hall := passBytes_take_drop ps k
    refine hclean.findFirst_of_short (b := passBytes (ps.drop k) ++ passBytes [p]) (rest := rest) ?_ ?_
    · rw [List.append_assoc, ← List.append_assoc (passBytes _), hall, ← passBytes_append]; exact hbytes
    · rw [← hall] at hshort'
      simp only [List.length_append] at hshort' ⊢
      omega
  refine ⟨_, catchOnPasses s ps p payload.length ra rr hl hp hf hcap ha hr hlen hno hyes, rfl, rfl, ?_, ?_, rfl, rfl⟩
  · simp only [State.setFs_fs, hbytes, List.take_left]
  · simp only [State.setFs_fs, hbytes, ← List.drop_drop, List.drop_left]
    rfl

/-! ### The slots and the end of DECODE -/

/-- Settles O6: the output byte of each of the four samples. -/
theorem sampleScale : Obligations.SampleScale := by
  refine ⟨fun v => ?_, rfl, rfl, rfl, rfl⟩
  rcases slot_cases v with rfl | rfl | rfl | rfl <;> exact ⟨rfl, by decide, rfl⟩

/-- The four LVL rows are the samples by their value (R97; log entry 11). -/
theorem exec_decodeSample (v : Slot) (s : State) :
    exec (decodeSample v) s = gate (sampleStop s) (putSample v s) := by
  rcases slot_cases v with rfl | rfl | rfl | rfl <;> rfl

/-- The four PAR rows are the parity slot by its value (R157, R204; log entry 11). -/
theorem exec_decodeParity (v : Slot) (s : State) :
    exec (decodeParity v) s = gate (parityStop s) (.next (takeParity v s)) := by
  rcases slot_cases v with rfl | rfl | rfl | rfl <;> rfl

/-- The registers of PD after a parity slot, field by field (R157, R158). -/
def parityTaken (p : Slot) (x : PdUnit) : PdUnit :=
  { x with
    perrCnt := if p = 0#2 then x.perrCnt else x.perrCnt + 1
    perr := if p = 0#2 then x.perr else true
    cursor := x.cursor + 2
    frm := if x.dumped = Config.TARGET then none else x.frm
    phase := if x.dumped = Config.TARGET then .idle else x.phase }

theorem takeParity_eq (p : Slot) (s : State) : takeParity p s = s.setPd (parityTaken p s.pd) := by
  unfold takeParity notePar pdFinished parityTaken
  by_cases hp : p = 0#2 <;> by_cases hd : s.pd.dumped = Config.TARGET <;> simp [hp, hd]

theorem sampleStop_of_live {s : State} (hl : ConsumerLive s) (hp : s.pd.phase = .run)
    (hc : s.pd.cursor % 32 / 2 < 15) : sampleStop s = none :=
  pdStop_eq_none.mpr ⟨hl, hp, decide_eq_true hc⟩

theorem parityStop_of_live {s : State} (hl : ConsumerLive s) (hp : s.pd.phase = .run)
    (hc : s.pd.cursor % 32 / 2 = 15) : parityStop s = none :=
  pdStop_eq_none.mpr ⟨hl, hp, decide_eq_true hc⟩

theorem wordStop_of_live {s : State} (hl : ConsumerLive s) (hp : s.pd.phase = .run) (hc : s.pd.cursor % 32 = 0) :
    wordStop s = none :=
  pdStop_eq_none.mpr ⟨hl, hp, decide_eq_true hc⟩

/-- The rows LVL0 to LVL3 by the sample they carry and the byte they write (R97). -/
theorem levelRow {i : Instr} {v : Slot} {b : Byte}
    (h : (i, v, b) ∈ [(Instr.lvl0, 0#2, 0x00#8), (.lvl1, 1#2, 0x55#8), (.lvl2, 2#2, 0xAA#8), (.lvl3, 3#2, 0xFF#8)]) :
    i = decodeSample v ∧ b = scale v := by
  have rows : ∀ row ∈ [(Instr.lvl0, 0#2, 0x00#8), (.lvl1, 1#2, 0x55#8), (.lvl2, 2#2, 0xAA#8), (.lvl3, 3#2, 0xFF#8)],
      row.1 = decodeSample row.2.1 ∧ row.2.2 = scale row.2.1 := by decide
  exact rows _ h

/-- The rows PAR.OK and PAR.NZ1 to PAR.NZ3 by the slot they carry; PAR.OK is the one of the slot 0 (R157). -/
theorem parityRow {i : Instr} (h : i ∈ [Instr.parOk, .parNz1, .parNz2, .parNz3]) :
    ∃ v, i = decodeParity v ∧ (v = 0#2 ↔ i = .parOk) := by
  have rows : ∀ i ∈ [Instr.parOk, .parNz1, .parNz2, .parNz3], ∃ v, i = decodeParity v ∧ (v = 0#2 ↔ i = .parOk) := by
    decide
  exact rows _ h

/-- Settles O30: each row is the sample or the parity slot it carries (`exec_decodeSample`, `exec_decodeParity`), whose
effect is `putSample` or `takeParity`. -/
theorem slotValues : Obligations.SlotValues := by
  refine ⟨fun s i v b hrow hl hp hc hd => ?levels, fun s i hrow hl hp hc => ?parity⟩
  case levels =>
    obtain ⟨rfl, rfl⟩ := levelRow hrow
    have hg := sampleStop_of_live hl hp hc
    rw [exec_decodeSample, gate_open hg]
    refine ⟨⟨_, putSample_next hd, rfl, rfl, putSample_only (putSample_next hd), fun a => ?_⟩, fun w hw hv he => ?_⟩
    · simp only [State.setPd_pix, State.setPix_pix, Memory.read_write, pixelOffset_eq]
    · rw [← hv, ← bitsAt_cursor w he]
      simp only [exec, execPdSample, gate_open hg, withWord, hw]
  case parity =>
    obtain ⟨v, rfl, hv⟩ := parityRow hrow
    rw [exec_decodeParity, gate_open (parityStop_of_live hl hp hc), takeParity_eq]
    simp only [parityTaken, ← hv, hp]
    rfl

/-- Settles O31: R158's condition opens the gate. -/
theorem pdDoneDiscardsFrame : Obligations.PdDoneDiscardsFrame := by
  intro s hl hp hd hc
  have hg : doneStop s = none := pdStop_eq_none.mpr ⟨hl, hp, by rw [hd, hc]; rfl⟩
  exact gate_open hg

/-! ### The words -/

theorem exec_pdWord_of_live {s : State} {w : Word} (hl : ConsumerLive s) (hp : s.pd.phase = .run)
    (hc : s.pd.cursor % 32 = 0) (hw : currentWord s = some w) : exec .pdWord s = putWord w s := by
  simp only [exec, execPdWord, gate_open (wordStop_of_live hl hp hc), withWord, hw]

theorem exec_pword_of_live {s : State} (w : Word) (hl : ConsumerLive s) (hp : s.pd.phase = .run)
    (hc : s.pd.cursor % 32 = 0) : exec (.pword w) s = putWord w s :=
  gate_open (wordStop_of_live hl hp hc)

/-- Slot `3 q + c` of word `n` is channel `c` of pixel `5 n + q` (R28, R159). -/
theorem pixelOffset_lane (n q : Nat) {c : Nat} (hc : c < 3) :
    pixelOffset (15 * n + (3 * q + c)) = 20 * n + 4 * q + c := by
  rw [show 15 * n + (3 * q + c) = 3 * (5 * n + q) + c by omega, pixelOffset_channel _ hc]
  omega

/-- Settles O32: both rows are `putWord`, whose fifteen samples are written as `putWord_spec` says, sample `3 q + c` in
lane `q`, channel `c`; the registers are those of `parityTaken`. -/
theorem pdWordLanes : Obligations.PdWordLanes := by
  intro s i n x hi hl hp hn hc hd
  have hc' : s.pd.cursor % 32 = 0 := by omega
  have hx : exec i s = putWord x s := by
    rcases hi with ⟨rfl, hw⟩ | rfl
    · exact exec_pdWord_of_live hl hp hc' hw
    · exact exec_pword_of_live x hl hp hc'
  obtain ⟨m, hput, hlanes, hothers, -⟩ := putWord_spec x s (by simp only [Config.TARGET]; omega)
  have hlast : s.pd.dumped + 15 = Config.TARGET ↔ n = 14335 := by simp only [Config.TARGET]; omega
  refine ⟨_, hx.trans hput, fun q c hq hch => ?lanes, fun a ha => ?others, ?registers, takeParity_pipe ..,
    putWord_only hput⟩
  case lanes => rw [← pixelOffset_lane n q hch, ← hd]; exact hlanes (3 * q + c) (by omega)
  case others =>
    refine hothers a fun j hj e => ha (j / 3) (j % 3) (by omega) (by omega) ?_
    rw [e, hd, ← pixelOffset_lane n _ (by omega), show 3 * (j / 3) + j % 3 = j by omega]
  case registers =>
    simp only [takeParity_eq, State.setPd_pd, parityTaken, hlast, hp]
    rw [show s.pd.cursor + 30 + 2 = 32 * (n + 1) by omega, show s.pd.dumped + 15 = 15 * (n + 1) by omega]

/-- The samples of a word are its bits above the parity slot (R95). -/
theorem samplesOf_eq_of_ushiftRight_eq {x y : Word} (h : x >>> 2 = y >>> 2) : samplesOf x = samplesOf y := by
  have split : ∀ w : Word, samplesOf w = (List.range 15).map (fun j => ((w >>> 2) >>> (28 - 2 * j)).setWidth 2) := by
    intro w
    refine List.map_congr_left (l := List.range 15) (f := slot w) fun j hj => ?_
    have hj := List.mem_range.mp hj
    rw [slot, bitsAt, ← BitVec.shiftRight_add, show 2 + (28 - 2 * j) = 30 - 2 * j by omega]
  rw [split, split, h]

/-- Settles O36: the two words write the same samples (`samplesOf_eq_of_ushiftRight_eq`), and the value of the parity
slot that follows changes PERR and PERR_CNT alone (`parityTaken`). -/
theorem parityChangesNoPixel : Obligations.ParityChangesNoPixel := by
  intro s t u x y hxy hx hy
  obtain ⟨t', htx, ht⟩ := andThen_eq_next.mp (gate_eq_next.mp hx).2
  obtain ⟨u', huy, hu⟩ := andThen_eq_next.mp (gate_eq_next.mp hy).2
  rw [samplesOf_eq_of_ushiftRight_eq hxy, huy] at htx
  cases htx
  cases ht
  cases hu
  simp only [takeParity_eq, State.setPd_pix, State.setPd_pd, parityTaken, and_self]

/-! ### Operations that give way to their steps -/

/-- A worker that may move may stop exactly where some unit may. -/
theorem exposedFs_of_live {s : State} (hl : WorkerLive s) : exposedFs s = true ↔ MayStop s := by
  rw [exposedFs_iff]
  refine ⟨fun ⟨ha, hf, _⟩ => ⟨ha, Or.inl ⟨hf, hl⟩⟩, fun ⟨ha, hm⟩ => ⟨ha, ?_⟩⟩
  rcases hm with hm | ⟨hp, -⟩
  · exact hm
  · exact absurd hp hl.1

/-- The labels of CATCH's loop are those of FS.POLL, FS.READ, FS.SCAN and FS.EMIT (R125). -/
theorem catchLabels_subset (n : Nat) (s : State) : catchLabels n s ⊆ [0x12#8, 0x13#8, 0x14#8, 0x15#8] := by
  induction n generalizing s with
  | zero => exact List.nil_subset _
  | succ n ih =>
    rw [catchLabels]
    split
    · exact List.nil_subset _
    cases s.fs.phase with
    | idle | fault => exact List.nil_subset _
    | poll =>
      dsimp only
      split
      · exact List.nil_subset _
      · exact List.cons_subset.mpr ⟨by decide, ih _⟩
    | read =>
      dsimp only
      split
      · exact List.nil_subset _
      · exact List.cons_subset.mpr ⟨by decide, ih _⟩
    | scan => exact List.cons_subset.mpr ⟨by decide, ih _⟩
    | emit =>
      dsimp only
      split
      · exact List.nil_subset _
      · exact List.cons_subset.mpr ⟨by decide, List.nil_subset _⟩

/-- CATCH is FS.START and the steps of its loop (R104, R125). -/
theorem runLabels_catchOp {s : State} (hl : WorkerLive s) (hp : s.fs.phase = .idle) :
    runLabels (0x11#8 :: catchLabels (catchFuel s) (fsStarted s)) s = exec .catchOp s := by
  have hg := fsStop_of_live hl hp
  have hstart : exec .fsStart s = .next (fsStarted s) := gate_open hg
  have hcatch : exec .catchOp s = catchLoop (catchFuel s) (fsStarted s) := gate_open hg
  have hh : fsHalted (fsStarted s) = false := hl.2.2
  rw [runLabels_cons (i := .fsStart) _ _ (by decide), hstart, andThen_next, runLabels_catch _ hh, hcatch]

/-- The words of a DECODE, one label each if the frame is admitted (R150, R152). -/
theorem decodeLabels_eq (f : Bytes) : decodeLabels f = 0x21#8 :: 0x22#8 ::
    (if f.length % 4 = 0 ∧ 14336 ≤ f.length / 4 then List.replicate 14336 0x26#8 else []) := by
  have hf : wellFormedFrame f = true ↔ f.length % 4 = 0 ∧ 14336 ≤ f.length / 4 := by
    rw [wellFormedFrame_iff]; omega
  simp only [decodeLabels, hf, Config.WORDS_PER_FRAME]

theorem exec_decodeOp_of_taken {s : State} {f : Bytes} (hl : ConsumerLive s) (hp : s.pd.phase = .idle)
    (ht : s.pipe.taken = some f) : exec .decodeOp s = decodeFrame f s := by
  simp only [exec, execDecode, gate_open (pdStop_eq_none.mpr ⟨hl, hp, rfl⟩), withTaken, ht]

/-- A poll takes the head of Q into the consumer's hand (R183). -/
theorem polled_taken {s : State} {f : Bytes} {fs : List Bytes} (hq : s.pipe.q = f :: fs) :
    (polled s).pipe.taken = some f := by
  simp only [polled, State.setPipe_pipe, hq, List.head?_cons]

/-- A tick with a frame queued is the poll and the DECODE of it (R185). -/
theorem exec_cpTick_of_queued {s : State} {f : Bytes} {fs : List Bytes} (hl : ConsumerLive s)
    (hp : s.pd.phase = .idle) (hq : s.pipe.q = f :: fs) : exec .cpTick s = decodeFrame f (polled s) := by
  simp only [exec, execCpTick, gate_open (pdStop_eq_none.mpr ⟨hl, hp, rfl⟩), polled_taken hq]

/-- Settles O48: outside an exposed boundary nothing gives way (`unfolding_of_calm`); each operation's steps one after
another are the operation (`runLabels_catchOp`, `runLabels_decode`, `runLabels_word`). -/
theorem wholeOperationsUnfold : Obligations.WholeOperationsUnfold := by
  refine ⟨fun i s h => ⟨?exposed, ?operation⟩, fun s hm hl hp => ?catching, fun s f hm hl hp ht => ?decode,
    fun s f fs hm hl hp hq => ?tick, fun s n w hm hl hp hw hn hc hd => ?word⟩
  case exposed =>
    by_contra hm
    exact h (unfolding_of_calm hm)
  case operation =>
    cases i with
    | catchOp | decodeOp | cpTick | pdWord => simp
    | _ => exact absurd rfl h
  case catching =>
    refine ⟨catchLabels (catchFuel s) (fsStarted s), ?_, fun b hb => catchLabels_subset _ _ hb, runLabels_catchOp hl hp⟩
    simp only [unfolding, (exposedFs_of_live hl).mpr hm, fsStop_of_live hl hp]
    rfl
  case decode =>
    have hg : pdStop .idle true s = none := pdStop_eq_none.mpr ⟨hl, hp, rfl⟩
    refine ⟨_, rfl, ?_, ?_⟩ <;> rw [← decodeLabels_eq]
    · simp only [unfolding, (exposedPd_of_live hl).mpr hm, hg, ht]
      rfl
    · rw [runLabels_decode hl hp ht, exec_decodeOp_of_taken hl hp ht]
  case tick =>
    have hg : pdStop .idle true s = none := pdStop_eq_none.mpr ⟨hl, hp, rfl⟩
    have hpoll : exec .cpPoll s = .next (polled s) := gate_open (consumerStop_eq_none.mpr hl)
    refine ⟨_, rfl, ?_, ?_⟩ <;> rw [← decodeLabels_eq]
    · simp only [unfolding, (exposedPd_of_live hl).mpr hm, hg, hq]
      rfl
    · rw [runLabels_cons (i := .cpPoll) _ _ (by decide), hpoll, andThen_next,
        runLabels_decode (s := polled s) hl hp (polled_taken hq), exec_cpTick_of_queued hl hp hq]
  case word =>
    have hc' : s.pd.cursor % 32 = 0 := by omega
    refine ⟨?_, ?_⟩
    · simp only [unfolding, (exposedPd_of_live hl).mpr hm, wordStop_of_live hl hp hc']
      rfl
    · rw [exec_pdWord_of_live hl hp hc' hw]
      exact runLabels_word hl hp hw hc' (by simp only [Config.TARGET]; omega)

end Machine
end Sys2Proof
end

section
/-! PROOFS. The statements of the family `40_frame_synchronizer.md`: what keeps an agent from every step (R137, R206,
R209), the requests that have no step (R126, R151), FS.START, FS.SCAN and FS.EMIT (R127, R130, R131), and CATCH where
it does not end (R125, R129, R137, R201, R205). -/

namespace Sys2Proof
namespace Machine

/-! ### What keeps an agent from every step -/

theorem workerStop_of_fault {s : State} (h : s.fs.phase = .fault) : workerStop s = some .faulted := if_pos h

theorem workerStop_of_stuck {s : State} (hp : s.fs.phase ≠ .fault) (hk : s.fs.stuck = true) :
    workerStop s = some .unanswered :=
  (if_neg hp).trans (if_pos hk)

theorem consumerStop_of_fault {s : State} (h : s.pd.phase = .fault) : consumerStop s = some .faulted := if_pos h

theorem fsStop_of_workerStop {s : State} {w : NoStep} (p : FsPhase) (h : workerStop s = some w) :
    fsStop p s = some w := by
  simp only [fsStop, h]

theorem pdStop_of_consumerStop {s : State} {w : NoStep} (p : PdPhase) (c : Bool) (h : consumerStop s = some w) :
    pdStop p c s = some w := by
  simp only [pdStop, h]

theorem gate_shut {w : Option NoStep} {r : NoStep} (o : Out) (h : w = some r) : gate w o = .refused (.noStep r) := by
  rw [h, gate_some]

/-- What keeps the worker from every step is the reason each of its instructions is refused with. -/
theorem exec_worker_refused {i : Instr} {s : State} {w : NoStep} (hi : agentOf i = .worker)
    (h : workerStop s = some w) : exec i s = .refused (.noStep w) := by
  have hfs := fun p => fsStop_of_workerStop p h
  cases i <;> simp only [agentOf, reduceCtorEq] at hi
  case catchOp | fsStart => exact gate_shut _ (hfs .idle)
  case srcAvail | fsPoll => exact gate_shut _ (hfs .poll)
  case srcRead | fsRead => exact gate_shut _ (hfs .read)
  case fsScan => exact gate_shut _ (hfs .scan)
  case marker => exact gate_shut _ (by simp only [markerStop, hfs])
  case fsEmit => exact gate_shut _ (by simp only [emitStop, hfs])
  case runOp => exact gate_shut _ (by simp only [runStop, hfs])
  case cpPush => exact gate_shut _ h
  case cpReport => exact gate_shut _ (by simp only [reportStop, h])

/-- What keeps the consumer from every step is the reason each of its instructions is refused with. -/
theorem exec_consumer_refused {i : Instr} {s : State} {w : NoStep} (hi : agentOf i = .consumer)
    (h : consumerStop s = some w) : exec i s = .refused (.noStep w) := by
  have hpd := fun p c => pdStop_of_consumerStop p c h
  cases i <;> simp only [agentOf, reduceCtorEq] at hi
  case cpPoll => exact gate_shut _ h
  all_goals exact gate_shut _ (hpd _ _)

/-- Settles O46: a fault or an unanswered transaction is what keeps the agent from every step (R206, R209), so that
each of its instructions is refused with it. -/
theorem faultedUnitRefuses : Obligations.FaultedUnitRefuses := fun _ _ =>
  ⟨fun hi hp => exec_worker_refused hi (workerStop_of_fault hp),
    fun hi hp hk => exec_worker_refused hi (workerStop_of_stuck hp hk),
    fun hi hp => exec_consumer_refused hi (consumerStop_of_fault hp)⟩

/-! ### Requests without a step -/

theorem gate_refuses {w : Option NoStep} (o : Out) (h : w ≠ none) : ∃ r, gate w o = .refused (.noStep r) := by
  obtain ⟨r, hr⟩ := Option.ne_none_iff_exists'.mp h
  exact ⟨r, gate_shut o hr⟩

theorem fsStop_of_other_phase {p : FsPhase} {s : State} (h : s.fs.phase ≠ p) : fsStop p s ≠ none :=
  fun he => h (fsStop_eq_none.mp he).2

theorem pdStop_of_other_phase {p : PdPhase} {s : State} (c : Bool) (h : s.pd.phase ≠ p) : pdStop p c s ≠ none :=
  fun he => h (pdStop_eq_none.mp he).2.1

/-- A CATCH that has no step gives way to no steps either (R126, R207). -/
theorem unfolding_catchOp_of_busy {s : State} (h : s.fs.phase ≠ .idle) : unfolding .catchOp s = none := by
  have hg : (fsStop .idle s).isNone = false := Option.isNone_eq_false_iff.mpr
    (Option.isSome_iff_ne_none.mpr (fsStop_of_other_phase h))
  simp only [unfolding, hg, Bool.and_false, Bool.false_eq_true, if_false]

theorem emitStop_of_frame {s : State} {f : Bytes} (hl : WorkerLive s) (hp : s.fs.phase = .emit)
    (hf : s.fs.frameOut = some f) : emitStop s = some .frameNotTaken := by
  simp only [emitStop, fsStop_of_live hl hp, hf]
  rfl

/-- Settles O49: outside IDLE the gate of R126 is shut, and `settle` drops the refused label; FS.EMIT's gate is shut by
the frame not taken. -/
theorem catchAdmission : Obligations.CatchAdmission := by
  refine ⟨fun s hp => ?refused, fun s u rest hg hp hs => ?dropped, fun s f hl hp hf => ?waits⟩
  case refused => exact ⟨gate_refuses _ (fsStop_of_other_phase hp), gate_refuses _ (fsStop_of_other_phase hp)⟩
  case dropped =>
    have hpu : u.fs.phase ≠ .idle := by rw [hg.fetched.fs]; exact hp
    obtain ⟨w, hw⟩ : ∃ w, exec .catchOp (afterAct rest u) = .refused (.noStep w) :=
      gate_refuses _ (fsStop_of_other_phase (s := afterAct rest u) hpu)
    rw [hg.step, move_of_label (i := .catchOp) (hg.script.trans hs) (by decide) (unfolding_catchOp_of_busy hpu), hw]
    rfl
  case waits => exact gate_shut _ (emitStop_of_frame hl hp hf)

/-- Settles O26: in IDLE the gate of R151 is open and the consumer's hand decides; in another phase it is shut. -/
theorem pdStartTakesFrame : Obligations.PdStartTakesFrame := by
  have idle {s : State} (hl : ConsumerLive s) (hp : s.pd.phase = .idle) : pdStop .idle true s = none :=
    pdStop_eq_none.mpr ⟨hl, hp, rfl⟩
  refine ⟨fun s f hl hp ht => ?taken, fun s hp => ?busy, fun s hl hp ht => ?noFrame⟩
  case taken => simp only [exec, execPdStart, gate_open (idle hl hp), withTaken, ht, pdStarted]
  case busy => exact ⟨gate_refuses _ (pdStop_of_other_phase _ hp), gate_refuses _ (pdStop_of_other_phase _ hp)⟩
  case noFrame => simp only [exec, execPdStart, execDecode, gate_open (idle hl hp), withTaken, ht, and_self]

/-! ### FS.START, FS.SCAN and FS.EMIT -/

/-- Settles O13: the gate is open in IDLE, and after reset SPILL is empty. -/
theorem fsStartSeedsAcc : Obligations.FsStartSeedsAcc := by
  have seeds (s : State) (hl : WorkerLive s) (hp : s.fs.phase = .idle) : exec .fsStart s = .next (fsStarted s) :=
    gate_open (fsStop_of_live hl hp)
  exact ⟨seeds, _, seeds .reset ⟨by decide, rfl, rfl⟩ rfl, rfl, rfl⟩

/-- A pattern longer than the sequence does not stand in it. -/
theorem findFirst_of_short {s m : Bytes} (h : s.length < m.length) : findFirst s m = none :=
  findFirst_eq_none.mpr fun _ hm => by have := hm.bound; omega

/-- Settles O17: in SCAN the gate is open, and fewer bytes than the marker's hold none (`findFirst_of_short`). -/
theorem fsScanFindsFirst : Obligations.FsScanFindsFirst := by
  refine fun s hl hp => ⟨(gate_open (fsStop_of_live hl hp)).trans ?_, findFirst_of_short (m := Config.MARKER)⟩
  simp only [fsScanned, Option.isNone_iff_eq_none]
  rfl

/-- Settles O19: the gate is open where FRAME_OUT has been taken; in a sound state FS_MATCH is the first match, which
cuts ACC (`findFirst_split`) behind a clean frame (`frameClean_take`). -/
theorem fsEmitSplits : Obligations.FsEmitSplits := by
  refine fun s i hl hp hf hi => ⟨(gate_open (emitStop_eq_none.mpr ⟨hl, hp, hf⟩)).trans ?_, fun hs => ?_⟩
  · simp only [fsEmitted, hi]
    rfl
  · obtain ⟨-, -, hemit, -⟩ := hs
    have hm : findFirst s.fs.acc Config.MARKER = some i := by rw [← (hemit hp).2, hi]
    obtain ⟨hsplit, hbound⟩ := findFirst_split hm
    exact ⟨hsplit, List.length_take_of_le (by omega), by rw [List.length_drop]; omega, frameClean_take hm⟩

/-! ### CATCH -/

/-- Without an answer on hand FS waits in phase POLL (R137; log entry 5). -/
theorem catchLoop_waits {n : Nat} {s : State} (hp : s.fs.phase = .poll) (ha : s.src.avails = []) :
    catchLoop n s = .next s := by
  cases n with
  | zero => rfl
  | succ n => simp [catchLoop, hp, ha]

/-- Settles O20: `catchLoop_completes` for the rest, `catchLoop_at` for where CATCH stands there. -/
theorem catchEndsOrWaits : Obligations.CatchEndsOrWaits := by
  intro s hl hp
  obtain ⟨t, ht, hrests⟩ := catchLoop_completes (catchFuel s) (fsStarted_ready s) (catchFuel_enough s)
  obtain ⟨⟨more, hstream, hstands⟩, -⟩ := catchLoop_at _ (fsStarted_at s) ht
  refine ⟨t, more, (gate_open (fsStop_of_live hl hp)).trans ht, hrests,
    (fsStarted_only s).trans (catchLoop_only _ ht), hstream, hstands,
    catchLoop_stuck _ (fun _ => Or.inl rfl) ht, fun ha => ?_⟩
  rw [catchLoop_waits (s := fsStarted s) rfl ha] at ht
  exact (Host.Outcome.next.inj ht).symm

/-- A poll whose answer on hand is a failure (R128, R201). -/
theorem fsPolled_linkError {s : State} {rs : List AvailReply} (h : s.src.avails = .linkError :: rs) :
    fsPolled s = raiseFs .linkError (s.setSrc { s.src with avails := rs }) := by
  obtain ⟨ha, hs⟩ := availAnswer_of_onHand h
  rw [fsPolled, ha, hs]

/-- A poll that is never answered (R137). -/
theorem fsPolled_silent {s : State} {rs : List AvailReply} (h : s.src.avails = .silent :: rs) :
    fsPolled s = leftWaiting (s.setSrc { s.src with avails := rs }) := by
  obtain ⟨ha, hs⟩ := availAnswer_of_onHand h
  rw [fsPolled, ha, hs]

/-- A reply on hand that brings no bytes is used up whole (the fourth part of SourceAnswersInOrder). -/
theorem readAnswer_of_no_bytes {s : State} {r : ReadReply} {rs : List ReadReply} (m : Nat)
    (hr : r = .linkError ∨ r = .silent) (h : s.src.reads = r :: rs) :
    readAnswer m s = r ∧ afterRead m s = s.setSrc { s.src with reads := rs } := by
  obtain ⟨-, -, -, noBytes, -⟩ := sourceAnswersInOrder
  exact noBytes s m r rs hr h

/-- A read whose answer on hand is a failure (R129, R201). -/
theorem fsReadDone_linkError {s : State} {rs : List ReadReply} (m : Nat) (h : s.src.reads = .linkError :: rs) :
    fsReadDone m s = raiseFs .linkError (s.setSrc { s.src with reads := rs }) := by
  obtain ⟨ha, hs⟩ := readAnswer_of_no_bytes m (Or.inl rfl) h
  rw [fsReadDone, ha, hs]

/-- A read that is never answered (R137). -/
theorem fsReadDone_silent {s : State} {rs : List ReadReply} (m : Nat) (h : s.src.reads = .silent :: rs) :
    fsReadDone m s = leftWaiting (s.setSrc { s.src with reads := rs }) := by
  obtain ⟨ha, hs⟩ := readAnswer_of_no_bytes m (Or.inr rfl) h
  rw [fsReadDone, ha, hs]

/-- A poll that faults FS or leaves it stuck is the last step of the loop. -/
theorem catchLoop_poll_last {n : Nat} {s t : State} (hp : s.fs.phase = .poll) (hk : s.fs.stuck = false)
    (ha : s.src.avails ≠ []) (he : fsPolled s = t) (ht : t.fs.phase = .fault ∨ t.fs.stuck = true) :
    catchLoop (n + 1) s = .next t := by
  rw [catchLoop_poll hp hk ha, he, catchLoop_stop ht]

/-- A read that faults FS or leaves it stuck is the last step of the loop. -/
theorem catchLoop_read_last {n : Nat} {s t : State} (hp : s.fs.phase = .read) (hk : s.fs.stuck = false)
    (hr : s.src.reads ≠ []) (he : fsReadDone Config.CHUNK_MAX s = t) (ht : t.fs.phase = .fault ∨ t.fs.stuck = true) :
    catchLoop (n + 1) s = .next t := by
  rw [catchLoop_read hp hk hr, he, catchLoop_stop ht]

/-- CATCH begun in state `s`, on its way in phase `p` after passes without a match (`exec_catchOp_polls`,
`exec_catchOp_reads`); the scratch registers hold something (R24). -/
def catching (s : State) (ps : List Pass) (a : Nat) (b : Bytes) (m : Option Nat) (avails : List AvailReply)
    (reads : List ReadReply) (p : FsPhase) : State :=
  (s.setSrc { avails := avails, reads := reads, stream := s.src.stream ++ passBytes ps }).setFs
    { s.fs with avail := a, chunk := b, found := m, acc := s.fs.spill ++ passBytes ps, phase := p }

section
variable {s : State} {ps : List Pass} {z : Nat} {la : List AvailReply} {lr : List ReadReply}
  (hl : WorkerLive s) (hp : s.fs.phase = .idle) (hcap : Fits s (s.fs.spill ++ passBytes ps).length)
  (ha : s.src.avails = passAvails ps ++ (List.replicate z (.count 0) ++ la)) (hr : s.src.reads = passReads ps ++ lr)
  (hlen : ∀ q ∈ ps, q.bytes.length ≤ Config.CHUNK_MAX)
  (hno : ∀ n, 0 < n → n ≤ ps.length → findFirst (s.fs.spill ++ passBytes (ps.take n)) Config.MARKER = none)
include hl hp hcap ha hr hlen hno

/-- CATCH after its passes, with steps left for the polls and two more. -/
theorem exec_catchOp_passes : ∃ n a b m, z + 2 ≤ n ∧
    exec .catchOp s = catchLoop n (catching s ps a b m (List.replicate z (.count 0) ++ la) lr .poll) := by
  have hfuel := catchFuel_passes ps z ha hr
  obtain ⟨a, b, m, h⟩ := catchLoop_unmatched ps (s := fsStarted s) (n := catchFuel s) (by omega) rfl hl.2.1
    (by rw [← List.length_append]; exact hcap) ha hr hlen hno
  exact ⟨_, a, b, m, by omega, (gate_open (fsStop_of_live hl hp)).trans h⟩

/-- CATCH at the poll behind its passes and the answers 0 (R125, R128). -/
theorem exec_catchOp_polls : ∃ n a b m, exec .catchOp s = catchLoop (n + 1) (catching s ps a b m la lr .poll) := by
  obtain ⟨n, a, b, m, hn, h⟩ := exec_catchOp_passes hl hp hcap ha hr hlen hno
  obtain ⟨a', h'⟩ := catchLoop_zeros z (n := n) (rest := la)
    (s := catching s ps a b m (List.replicate z (.count 0) ++ la) lr .poll) (by omega) rfl hl.2.1 rfl
  exact ⟨n - z - 1, a', b, m, by rw [h, h', show n - z - 1 + 1 = n - z by omega]; rfl⟩

/-- CATCH at the read behind its passes, the answers 0 and one that is not 0 (R125, R129). -/
theorem exec_catchOp_reads {k : Nat} {ra : List AvailReply} (hla : la = .count (k + 1) :: ra) :
    ∃ n a b m, exec .catchOp s = catchLoop (n + 1) (catching s ps a b m ra lr .read) := by
  subst hla
  obtain ⟨n, a, b, m, hn, h⟩ := exec_catchOp_passes hl hp hcap ha hr hlen hno
  have h' := catchLoop_polled (z := z) (n := n) (ra := ra)
    (s := catching s ps a b m (List.replicate z (.count 0) ++ (.count (k + 1) :: ra)) lr .poll) (by omega) rfl hl.2.1
    rfl
  exact ⟨n - (z + 1) - 1, k + 1, b, m, by
    rw [h, h', show n - (z + 1) - 1 + 1 = n - (z + 1) by omega]; rfl⟩

end

/-- Settles O22: CATCH comes to the poll or the read behind the passes (`exec_catchOp_polls`, `exec_catchOp_reads`),
whose answer makes that step the last. -/
theorem catchFaultsOrSticks : Obligations.CatchFaultsOrSticks := by
  intro s ps z k c la ra lr rr hl hp hcap ha hr hlen hno stops
  have hk : s.fs.stuck = false := hl.2.1
  have hpoll := exec_catchOp_polls hl hp hcap ha hr hlen hno
  have hread := fun hla => exec_catchOp_reads (k := k) (ra := ra) hl hp hcap ha hr hlen hno hla
  refine ⟨?availFails, ?availSilent, ?readFails, ?readSilent, ?overflow⟩
  case availFails =>
    rintro rfl
    obtain ⟨n, a, b, m, h⟩ := hpoll
    exact ⟨_, a, b, m, h.trans (catchLoop_poll_last rfl hk nofun (fsPolled_linkError rfl) (Or.inl rfl)),
      by rw [List.append_nil, ← hk]; rfl⟩
  case availSilent =>
    rintro rfl
    obtain ⟨n, a, b, m, h⟩ := hpoll
    exact ⟨_, a, b, m, h.trans (catchLoop_poll_last rfl hk nofun (fsPolled_silent rfl) (Or.inr rfl)),
      by rw [List.append_nil]; rfl⟩
  case readFails =>
    rintro hla rfl
    obtain ⟨n, a, b, m, h⟩ := hread hla
    exact ⟨_, a, b, m, h.trans (catchLoop_read_last rfl hk nofun (fsReadDone_linkError _ rfl) (Or.inl rfl)),
      by rw [List.append_nil, ← hk]; rfl⟩
  case readSilent =>
    rintro hla rfl
    obtain ⟨n, a, b, m, h⟩ := hread hla
    exact ⟨_, a, b, m, h.trans (catchLoop_read_last rfl hk nofun (fsReadDone_silent _ rfl) (Or.inr rfl)),
      by rw [List.append_nil]; rfl⟩
  case overflow =>
    rintro hla rfl hc hover
    rw [List.length_append] at hover
    obtain ⟨n, a, b, m, h⟩ := hread hla
    exact ⟨_, a, c, m, h.trans (catchLoop_read_last rfl hk nofun (fsReadDone_overflow rfl hc hover) (Or.inl rfl)),
      by rw [← List.append_assoc, ← hk]; rfl⟩

end Machine
end Sys2Proof
end

section
/-! PROOFS. The statements of the family `41_pixel_plane_decoder.md`: PD's steps PD.CHECK, PD.SAMPLE and PD.PARITY
(R152, R156, R157), and DECODE of a malformed frame and of a frame of one level (R162, R203). -/

namespace Sys2Proof
namespace Machine

/-! ### The word at CURSOR, one sample, one parity slot -/

/-- The word handed on is the frame's word of CURSOR's number (R26, R64). -/
theorem withWord_of_frm {s : State} {f : Bytes} {w : Word} (k : Word → Out) (hf : s.pd.frm = some f)
    (hw : frameWord s.params.byteOrder f (s.pd.cursor / 32) = some w) : withWord s k = k w := by
  simp only [withWord, currentWord, hf, hw]

theorem bitsAt_toNat (w : Word) (place : Nat) : (bitsAt w place).toNat = w.toNat / 2 ^ (30 - place) % 4 := by
  rw [bitsAt, BitVec.toNat_setWidth, BitVec.toNat_ushiftRight, Nat.shiftRight_eq_div_pow]

/-- The output byte of a sample is its value times 85 (R97). -/
theorem scale_eq_ofNat (v : Slot) : scale v = BitVec.ofNat 8 (v.toNat * 85) := by
  rcases slot_cases v with rfl | rfl | rfl | rfl <;> rfl

/-- The parity slot is 0 where the two lowest bits of the word are (R95, R157). -/
theorem paritySlot_eq_zero_iff (w : Word) : paritySlot w = 0#2 ↔ w.toNat % 4 = 0 := by
  have hbits : (paritySlot w).toNat = w.toNat % 4 := by rw [paritySlot, slot_toNat]; simp
  rw [← hbits, BitVec.toNat_eq]
  rfl

/-- Settles O28: the gate is open and the destination inside PIX, so that the step is `putSample` of the two bits at
CURSOR. -/
theorem pdSampleWritesByte : Obligations.PdSampleWritesByte := by
  intro s f w hl hp hf hc hw hd
  have hstep : exec .pdSample s = putSample (bitsAt w (s.pd.cursor % 32)) s :=
    (gate_open (sampleStop_of_live hl hp hc)).trans (withWord_of_frm _ hf hw)
  have hput := putSample_next (v := bitsAt w (s.pd.cursor % 32)) hd
  refine ⟨_, hstep.trans hput, rfl, rfl, putSample_only hput, fun a => ?_⟩
  rw [State.setPd_pix, State.setPix_pix, Memory.read_write, scale_eq_ofNat, bitsAt_toNat]
  rfl

/-- Settles O29: the gate is open and the step is `takeParity`, field by field `parityTaken`. -/
theorem pdParityCounts : Obligations.PdParityCounts := by
  intro s f w hl hp hf hc hw
  have hstep : exec .pdParity s = .next (takeParity (paritySlot w) s) :=
    (gate_open (parityStop_of_live hl hp hc)).trans (withWord_of_frm _ hf hw)
  rw [hstep, takeParity_eq]
  simp only [parityTaken, paritySlot_eq_zero_iff, hp]
  rfl

/-! ### The length of a frame -/

/-- The lengths of the frames that are not admitted (R152). -/
theorem wellFormedFrame_eq_false_iff {f : Bytes} :
    wellFormedFrame f = false ↔ f.length % 4 ≠ 0 ∨ f.length / 4 < 14336 := by
  rw [← Bool.not_eq_true, wellFormedFrame_iff]
  omega

/-- Settles O27: the gate is open, and the length decides which branch of `pdChecked` is taken. -/
theorem pdCheckByLength : Obligations.PdCheckByLength := by
  intro s f hl hp hf
  have hstep : exec .pdCheck s = .next (pdChecked f s) := by
    simp only [exec, execPdCheck, gate_open (pdStop_eq_none.mpr ⟨hl, hp, rfl⟩), withFrm, hf]
  refine ⟨?_, by omega⟩
  rw [hstep, pdChecked]
  cases hwf : wellFormedFrame f with
  | false => rw [if_pos (wellFormedFrame_eq_false_iff.mp hwf)]; rfl
  | true =>
    have hlen := (not_congr wellFormedFrame_eq_false_iff).mp (by rw [hwf]; decide)
    rw [if_neg hlen]; rfl

/-- Settles O34: the gate is open, and `decodeFrame_malformed` is the whole DECODE. -/
theorem decodeMalformed : Obligations.DecodeMalformed := by
  intro s f hl hp ht hlen
  have hstep : exec .decodeOp s = decodeFrame f s := by
    simp only [exec, execDecode, gate_open (pdStop_eq_none.mpr ⟨hl, hp, rfl⟩), withTaken, ht]
  rw [hstep, decodeFrame_malformed (wellFormedFrame_eq_false_iff.mpr hlen)]
  rfl

/-! ### A frame of one level -/

/-- Without a parity slot that is not 0 the count is 0 (R162). -/
theorem parityWords_eq_zero {o : ByteOrder} {f : Bytes} (n : Nat)
    (h : ∀ k w, k < n → frameWord o f k = some w → paritySlot w = 0#2) : parityWords o f n = 0 := by
  induction n with
  | zero => rfl
  | succ n ih =>
    rw [parityWords, ih fun k w hk => h k w (by omega)]
    cases hw : frameWord o f n with
    | none => rfl
    | some w => simp only [h n w (by omega) hw, if_true]

/-- The words of one level: every sample gives the level's byte, the parity slot is 0 (R162). -/
theorem levelWord {x : Word} {b : Byte}
    (h : (x, b) ∈ [(0x00000000#32, 0x00#8), (0x55555554#32, 0x55#8), (0xAAAAAAA8#32, 0xAA#8), (0xFFFFFFFC#32, 0xFF#8)]) :
    (∀ v ∈ samplesOf x, scale v = b) ∧ paritySlot x = 0#2 := by
  simp only [List.mem_cons, Prod.mk.injEq, List.not_mem_nil, or_false] at h
  rcases h with ⟨rfl, rfl⟩ | ⟨rfl, rfl⟩ | ⟨rfl, rfl⟩ | ⟨rfl, rfl⟩ <;> exact ⟨by decide, rfl⟩

/-- Settles O35: the picture is that of DecodeGivesPicture, each of its samples one of the level's word
(`levelWord`). -/
theorem decodeUniformFrame : Obligations.DecodeUniformFrame := by
  intro s f x b hrow hl hp ht hlen hwords
  obtain ⟨hlevel, hpar⟩ := levelWord hrow
  obtain ⟨t, hstep, hpicture, hothers, hidle, -, -, -, hfault, hcount, hperr, -, -⟩ :=
    decodeGivesPicture s f hl hp ht (by omega) (by omega)
  have hzero : t.pd.perrCnt = 0 := by
    refine hcount.trans (parityWords_eq_zero _ fun k w hk hw => ?_)
    rw [hwords k hk] at hw
    cases hw
    exact hpar
  refine ⟨t, hstep, fun n c hn hc => ?_, fun n _ => hothers _ (by omega), hzero, ?_, hidle, hfault⟩
  · obtain ⟨w, hw, hread⟩ := hpicture n c hn hc
    rw [hwords _ (by omega)] at hw
    cases hw
    rw [hread, hlevel _ (List.mem_of_getElem? (samplesOf_get x (Nat.mod_lt _ (by decide))))]
  · exact Bool.eq_false_iff.mpr fun h => hperr.mp h hzero

end Machine
end Sys2Proof
end

section
/-! PROOFS. The statements of the family `42_capture_pipeline.md`: CP.PUSH (R182), CP.REPORT (R184), CP.POLL and
CP.TICK (R183, R185). -/

namespace Sys2Proof
namespace Machine

/-! ### The report -/

/-- Time has passed since the worker's start: the report is the quotient (R184, D12). -/
theorem throughput_of_ne {frames now t0 : Nat} (draws : Nat) (h : now ≠ t0) :
    throughput frames now t0 draws = .rate frames ((now : Int) - (t0 : Int)) := if_neg h

/-- No time has passed since the worker's start: the report's content is open (R184, U15). -/
theorem throughput_of_eq {frames now t0 : Nat} (draws : Nat) (h : now = t0) :
    throughput frames now t0 draws = .unstated frames (Config.freeReport draws) := if_pos h

/-- A push that comes to a multiple of 30 sends the report at the new count (R182, R184). -/
theorem pushed_report_of_due (f : Bytes) {s : State} (h : (s.pipe.fcount + 1) % 30 = 0) :
    (pushed f s).pipe.report = some (throughput (s.pipe.fcount + 1) (nowAnswer s) s.pipe.t0 s.env.draws) := by
  unfold pushed
  dsimp only
  split
  case isTrue => rfl
  case isFalse hn => exact absurd h hn

/-- A push that comes to no multiple of 30 sends no report and does not read the clock (R182). -/
theorem pushed_of_not_due (f : Bytes) {s : State} (h : (s.pipe.fcount + 1) % 30 ≠ 0) :
    (pushed f s).pipe.report = s.pipe.report ∧ (pushed f s).env = s.env := by
  unfold pushed
  dsimp only
  split
  case isTrue hy => exact absurd hy h
  case isFalse => exact ⟨rfl, rfl⟩

/-- Settles O38: the step is `pushed`, its report the throughput at the new count where that is a multiple of 30. -/
theorem cpPushQueues : Obligations.CpPushQueues := by
  intro s f hl hf
  refine ⟨pushed f s, exec_cpPush_of_frame hl hf, pushed_fcount f s, pushed_q f s, pushed_fs f s, pushed_src f s,
    pushed_t0 f s, pushed_running f s, pushed_worker f s, pushed_of_not_due f, fun hdue => ?_⟩
  rw [pushed_report_of_due f hdue]
  exact ⟨fun hne => congrArg some (throughput_of_ne _ hne),
    fun heq => ⟨_, congrArg some (throughput_of_eq _ heq)⟩⟩

/-- Settles O39: where the report is due the gate is open, and the step is `reported`. -/
theorem cpReportRate : Obligations.CpReportRate := by
  intro s hl hcounted hmultiple hunsent
  have hdue : reportDue s = true := reportDue_eq_true.mpr ⟨hcounted, hmultiple, hunsent⟩
  exact ⟨reported s, gate_open (reportStop_eq_none.mpr ⟨hl, hdue⟩),
    fun hne => congrArg some (throughput_of_ne _ hne),
    fun heq => ⟨_, congrArg some (throughput_of_eq _ heq)⟩, rfl, rfl, rfl, reported_worker s⟩

/-! ### The consumer's poll and tick -/

/-- A poll of an empty Q leaves the consumer's hand empty (R183). -/
theorem polled_of_empty {s : State} (hq : s.pipe.q = []) :
    polled s = s.setPipe { s.pipe with taken := none } := by
  simp only [polled, hq, List.head?_nil, List.tail_nil]

/-- A poll of a Q with frames takes the head and leaves the tail (R183). -/
theorem polled_of_cons {s : State} {f : Bytes} {fs : List Bytes} (hq : s.pipe.q = f :: fs) :
    polled s = s.setPipe { s.pipe with taken := some f, q := fs } := by
  rw [polled, hq, List.head?_cons, List.tail_cons]

theorem exec_cpPoll_of_live {s : State} (hl : ConsumerLive s) : exec .cpPoll s = .next (polled s) :=
  gate_open (consumerStop_eq_none.mpr hl)

/-- A tick with nothing queued is the poll alone (R185). -/
theorem exec_cpTick_of_empty {s : State} (hl : ConsumerLive s) (hp : s.pd.phase = .idle) (hq : s.pipe.q = []) :
    exec .cpTick s = .next (polled s) := by
  have hnone : (polled s).pipe.taken = none := congrArg List.head? hq
  simp only [exec, execCpTick, gate_open (pdStop_eq_none.mpr ⟨hl, hp, rfl⟩), hnone]

/-- Settles O40: a poll is `polled`, a tick the poll and the DECODE of what it took, which completes
(`decodeFrame_completes`). -/
theorem cpPollAndTick : Obligations.CpPollAndTick := by
  refine ⟨fun s hl hq => ?pollEmpty, fun s f fs hl hq => ?pollFrame, fun s hl hp hq => ?tickEmpty,
    fun s f fs hl hp hq => ?tickFrame⟩
  case pollEmpty => rw [exec_cpPoll_of_live hl, polled_of_empty hq]
  case pollFrame => rw [exec_cpPoll_of_live hl, polled_of_cons hq]
  case tickEmpty => rw [exec_cpTick_of_empty hl hp hq, polled_of_empty hq]
  case tickFrame =>
    have hdecode : exec .decodeOp (polled s) = decodeFrame f (polled s) :=
      exec_decodeOp_of_taken hl hp (polled_taken hq)
    rw [exec_cpTick_of_queued hl hp hq, ← polled_of_cons hq]
    exact ⟨hdecode.symm, decodeFrame_completes f (polled s)⟩

end Machine
end Sys2Proof
end

section
/-! PROOFS. The statements of the family `60_exceptions.md`: what a fault in one unit does to the other under each
HALT_POLICY (R207), RESET as the way out of every fault (R209, R230), and the machine at rest (R210, R231). -/

namespace Sys2Proof
namespace Machine

/-! ### Which agent may move under each policy -/

/-- HALT_POLICY keeps the worker only after PD's fault (R207). -/
theorem fsHalted_of_calm {s : State} (h : s.pd.phase ≠ .fault) : fsHalted s = false := by
  simp only [fsHalted, h, decide_false, Bool.false_and]

/-- HALT_POLICY keeps the consumer only after FS's fault (R207). -/
theorem pdHalted_of_calm {s : State} (h : s.fs.phase ≠ .fault) : pdHalted s = false := by
  simp only [pdHalted, h, decide_false, Bool.false_and]

theorem fsHalted_of_haltAll {s : State} (hpol : s.params.haltPolicy = .haltAll) (h : s.pd.phase = .fault) :
    fsHalted s = true := by
  simp only [fsHalted, h, hpol, decide_true, Bool.and_true]

theorem pdHalted_of_haltAll {s : State} (hpol : s.params.haltPolicy = .haltAll) (h : s.fs.phase = .fault) :
    pdHalted s = true := by
  simp only [pdHalted, h, hpol, decide_true, Bool.and_true]

theorem fsHalted_of_independent {s : State} (hpol : s.params.haltPolicy = .independent) : fsHalted s = false := by
  simp only [fsHalted, hpol, Bool.and_false]

theorem pdHalted_of_independent {s : State} (hpol : s.params.haltPolicy = .independent) : pdHalted s = false := by
  simp only [pdHalted, hpol, Bool.and_false]

/-- Under `any` the worker is kept, after PD's fault, once it has stopped (R207; log entry 15). -/
theorem fsHalted_of_any {s : State} (hpol : s.params.haltPolicy = .any) (h : s.pd.phase = .fault) :
    fsHalted s = s.fs.stopped := by
  simp only [fsHalted, h, hpol, decide_true, Bool.true_and]

/-- Under `any` the consumer is kept, after FS's fault, once it has stopped (R207; log entry 15). -/
theorem pdHalted_of_any {s : State} (hpol : s.params.haltPolicy = .any) (h : s.fs.phase = .fault) :
    pdHalted s = s.pd.stopped := by
  simp only [pdHalted, h, hpol, decide_true, Bool.true_and]

/-- A worker that HALT_POLICY does not keep moves unless it has faulted or is stuck (R206, R209). -/
theorem workerLive_iff_of_not_halted {s : State} (h : fsHalted s = false) :
    WorkerLive s ↔ s.fs.phase ≠ .fault ∧ s.fs.stuck = false := by
  simp only [WorkerLive, h, and_true]

/-- A consumer that HALT_POLICY does not keep moves unless it has faulted (R206). -/
theorem consumerLive_iff_of_not_halted {s : State} (h : pdHalted s = false) :
    ConsumerLive s ↔ s.pd.phase ≠ .fault := by
  simp only [ConsumerLive, h, and_true]

theorem exec_worker_refused_of_halted {i : Instr} {s : State} (hi : agentOf i = .worker) (h : fsHalted s = true) :
    ∃ w, exec i s = .refused (.noStep w) := by
  have hn : workerStop s ≠ none := fun hs => by
    obtain ⟨-, -, hh⟩ := workerStop_eq_none.mp hs
    rw [h] at hh; cases hh
  obtain ⟨w, hw⟩ := Option.ne_none_iff_exists'.mp hn
  exact ⟨w, exec_worker_refused hi hw⟩

theorem exec_consumer_refused_of_halted {i : Instr} {s : State} (hi : agentOf i = .consumer)
    (h : pdHalted s = true) : ∃ w, exec i s = .refused (.noStep w) := by
  have hn : consumerStop s ≠ none := fun hs => by
    obtain ⟨-, hh⟩ := consumerStop_eq_none.mp hs
    rw [h] at hh; cases hh
  obtain ⟨w, hw⟩ := Option.ne_none_iff_exists'.mp hn
  exact ⟨w, exec_consumer_refused hi hw⟩

/-! ### The stop -/

/-- No step but RESET ends a stop: an agent's instruction keeps its own flag and the other's (R207, R209). -/
theorem step_keeps_stopped {s t : State} (h : step s = .next t)
    (hr : ∀ rest, s.env.script ≠ .label 0xFF#8 :: rest) :
    (s.fs.stopped = true → t.fs.stopped = true) ∧ (s.pd.stopped = true → t.pd.stopped = true) := by
  have kept (hf : t.fs.stopped = s.fs.stopped) (hp : t.pd.stopped = s.pd.stopped) :
      (s.fs.stopped = true → t.fs.stopped = true) ∧ (s.pd.stopped = true → t.pd.stopped = true) :=
    ⟨hf.trans, hp.trans⟩
  cases stepBy_of_step h with
  | worker i u hu hi _ he =>
    have ho := exec_worker hi he
    exact kept (by rw [ho.stopped, hu.fs]) (by rw [ho.pd, hu.pd])
  | consumer i u hu hi _ he =>
    have ho := exec_consumer hi he
    exact kept (by rw [ho.fs, hu.fs]) (by rw [ho.stopped, hu.pd])
  | reset u hs _ => exact absurd hs (not_exists.mpr hr)
  | host u m hu _ _ ht => subst ht; exact kept (congrArg _ hu.fs) (congrArg _ hu.pd)
  | still hu => exact kept (congrArg _ hu.fs) (congrArg _ hu.pd)
  | haltWorker u hu _ ht => subst ht; exact ⟨fun _ => rfl, (congrArg _ hu.pd).trans⟩
  | haltConsumer u hu _ ht => subst ht; exact ⟨(congrArg _ hu.fs).trans, fun _ => rfl⟩

/-- Settles O47: who may move is read off `fsHalted` and `pdHalted` policy by policy; a live unit after the other's
fault under `any` is exposed, so that the free value decides (`step_of_exposedFs`, `step_of_exposedPd`). -/
theorem haltPolicyDecides : Obligations.HaltPolicyDecides := by
  refine ⟨fun i s hpol => ⟨fun hi hf => ?consumerRefused, fun hi hf => ?workerRefused⟩,
    fun s hpol => ⟨?workerIndependent, ?consumerIndependent⟩, fun s hpol hf => ?consumerAny, fun s hpol hf => ?workerAny,
    fun s hf => workerLive_iff_of_not_halted (fsHalted_of_calm hf),
    fun s hf => consumerLive_iff_of_not_halted (pdHalted_of_calm hf),
    fun s hpol hf hl => step_of_exposedFs (exposedFs_iff.mpr ⟨hpol, hf, hl⟩),
    fun s hpol hf hl => step_of_exposedPd (exposedPd_iff.mpr ⟨hpol, hf, hl⟩),
    fun s => step_of_calm, fun s t => step_keeps_stopped⟩
  case consumerRefused => exact exec_consumer_refused_of_halted hi (pdHalted_of_haltAll hpol hf)
  case workerRefused => exact exec_worker_refused_of_halted hi (fsHalted_of_haltAll hpol hf)
  case workerIndependent => exact workerLive_iff_of_not_halted (fsHalted_of_independent hpol)
  case consumerIndependent => exact consumerLive_iff_of_not_halted (pdHalted_of_independent hpol)
  case consumerAny => rw [ConsumerLive, pdHalted_of_any hpol hf]
  case workerAny => rw [WorkerLive, fsHalted_of_any hpol hf]

/-! ### RESET -/

/-- After RESET neither unit has faulted, so that no policy keeps the other (R207, R209, R230). -/
theorem resetState_live (s : State) : WorkerLive (resetState s) ∧ ConsumerLive (resetState s) := by
  have hfs : (resetState s).fs.phase ≠ .fault := nofun
  have hpd : (resetState s).pd.phase ≠ .fault := nofun
  exact ⟨(workerLive_iff_of_not_halted (fsHalted_of_calm hpd)).mpr ⟨hfs, rfl⟩,
    (consumerLive_iff_of_not_halted (pdHalted_of_calm hfs)).mpr hpd⟩

/-- Settles O12: RESET has no gate; its values are read off `resetState`. -/
theorem resetInstruction : Obligations.ResetInstruction := fun s =>
  ⟨resetState s, rfl, rfl, rfl, rfl, rfl, rfl, rfl, rfl, rfl, rfl, rfl, rfl, rfl, rfl, rfl, rfl, rfl, rfl, rfl, rfl, rfl,
    resetState_live s⟩

/-! ### The machine at rest -/

theorem not_mayStop_of_idle {s : State} (hf : s.fs.phase = .idle) (hp : s.pd.phase = .idle) : ¬ MayStop s := by
  rintro ⟨-, ⟨hfault, -⟩ | ⟨hfault, -⟩⟩
  · rw [hp] at hfault; cases hfault
  · rw [hf] at hfault; cases hfault

/-- An idle worker whose loop has not been started has no step of its own (R31, R181). -/
theorem workerInstr_of_idle {s : State} (hp : s.fs.phase = .idle) (hr : s.pipe.running = false) :
    workerInstr s = none := by
  simp only [workerInstr, hp, hr, Bool.false_eq_true, if_false, ite_self]

/-- An idle consumer has no step of its own (R32, R185). -/
theorem consumerInstr_of_idle {s : State} (hp : s.pd.phase = .idle) : consumerInstr s = none := by
  simp only [consumerInstr, hp, ite_self]

theorem step_of_idle {s : State} (hs : s.env.script = []) (hf : s.fs.phase = .idle) (hr : s.pipe.running = false)
    (hp : s.pd.phase = .idle) : step s = .next s := by
  rw [step_of_calm (not_mayStop_of_idle hf hp)]
  exact move_of_rest hs (by rw [choose, workerInstr_of_idle hf hr, consumerInstr_of_idle hp])

/-- Settles O53: where nothing may stop and no agent has a step the machine rests (`step_of_idle`); so at reset. -/
theorem restsUntilAsked : Obligations.RestsUntilAsked :=
  ⟨step_of_idle rfl rfl rfl rfl, fun _ => step_of_idle⟩

end Machine
end Sys2Proof
end
